-- ==== Sys2Proof/Word.lean ====
section
/-! DEFINITION. The word types of the register space, the data memory and the command word
(10_state.md R31, R38; 20_memory.md R80). -/

namespace Sys2Proof

/-- One byte of the data memory. -/
abbrev Byte := BitVec 8

/-- One 32-bit register of the register space (R31); `toNat` is the spec's u32, `toInt` its s32 (R6). -/
abbrev Word := BitVec 32

/-- The 64-bit command word C = {CMD1, CMD0} (R38, R110). -/
abbrev CmdWord := BitVec 64

end Sys2Proof
end

