-- ==== Sys2Proof/Syntax.lean ====
section
/-! DEFINITION. The six commands, one constructor per row of spec/opcode_table.json
(30_encoding.md R115 to R121). -/

namespace Sys2Proof

/-- A command with its operand fields: a slot or count field is the number its 6 bits hold (R113),
a flag field is a Bool (R114). -/
inductive Instr where
  /-- TMASK (R116): `pclass = false` is a luma plane, `true` a chroma plane. -/
  | tmask (src dst : Nat) (pclass : Bool)
  /-- MMASK (R117). -/
  | mmask (src1 msk1 src2 msk2 dst : Nat)
  /-- MAND (R118). -/
  | mand (a b dst : Nat)
  /-- MCOMB (R119). -/
  | mcomb (src dst : Nat)
  /-- TBUILD (R120). -/
  | tbuild (dst cbase ccnt obase ocnt : Nat) (order field rowpar cfirst wother : Bool)
  /-- ISCOMBED (R121). -/
  | iscombed (ys us vs : Nat)
  deriving DecidableEq, Repr

end Sys2Proof
end

