-- ==== Sys2Proof/WellFormed.lean ====
section
/-! DEFINITION. Which commands a command word can hold: every slot and count field is a 6-bit
number (30_encoding.md R113). -/

namespace Sys2Proof

/-- A slot or count field holds an unsigned 6-bit number, 0 to 63 (R113). -/
abbrev sixBits (n : Nat) : Bool := n < 64

/-- Every field of the command is in the range its format gives it (R113 to R121). -/
def Instr.wellFormed : Instr → Bool
  | .tmask src dst _ => sixBits src && sixBits dst
  | .mmask src1 msk1 src2 msk2 dst =>
      sixBits src1 && sixBits msk1 && sixBits src2 && sixBits msk2 && sixBits dst
  | .mand a b dst => sixBits a && sixBits b && sixBits dst
  | .mcomb src dst => sixBits src && sixBits dst
  | .tbuild dst cbase ccnt obase ocnt _ _ _ _ _ =>
      sixBits dst && sixBits cbase && sixBits ccnt && sixBits obase && sixBits ocnt
  | .iscombed ys us vs => sixBits ys && sixBits us && sixBits vs

end Sys2Proof
end

