-- ==== Sys2Proof/Decode.lean ====
section
/-! DEFINITION. The command decoder and encoder (30_encoding.md R110 to R124). -/

namespace Sys2Proof

/-- Why a command word is no command. -/
inductive DecodeError where
  /-- OPC is 0x0 or 0x7 to 0xF (R122): the command fails with E_OPC and ERRINFO = OPC. -/
  | illegalOpcode (opc : Nat)
  /-- The lowest reserved bit that is 1 (R112, R241): the command fails with E_RSVD. -/
  | reservedBit (index : Nat)
  deriving DecidableEq, Repr

/-- C[lo+len-1 : lo] as an unsigned number (R6, R113). -/
def bitsAt (c : CmdWord) (lo len : Nat) : Nat := (c.extractLsb' lo len).toNat

/-- The one-bit flag C[i] (R114). -/
def flagAt (c : CmdWord) (i : Nat) : Bool := c.getLsbD i

/-- The lowest of the reserved bits of a format that is 1: bits [7:4] and every bit from `top` on (R112). -/
def lowestReserved (c : CmdWord) (top : Nat) : Option Nat :=
  (List.range 64).find? fun k => c.getLsbD k && (decide (4 ≤ k ∧ k < 8) || decide (top ≤ k))

/-- The command i if every reserved bit of its format, bits [7:4] and those from `top` on, is 0. -/
def unlessReserved (c : CmdWord) (top : Nat) (i : Instr) : Except DecodeError Instr :=
  match lowestReserved c top with
  | some k => .error (.reservedBit k)
  | none => .ok i

/-- The decoder: OPC first (R111), then the reserved bits (R112), then the fields (R116 to R121). -/
def decode (c : CmdWord) : Except DecodeError Instr :=
  match bitsAt c 0 4 with
  | 1 => unlessReserved c 21 (.tmask (bitsAt c 8 6) (bitsAt c 14 6) (flagAt c 20))
  | 2 => unlessReserved c 38
      (.mmask (bitsAt c 8 6) (bitsAt c 14 6) (bitsAt c 20 6) (bitsAt c 26 6) (bitsAt c 32 6))
  | 3 => unlessReserved c 26 (.mand (bitsAt c 8 6) (bitsAt c 14 6) (bitsAt c 20 6))
  | 4 => unlessReserved c 20 (.mcomb (bitsAt c 8 6) (bitsAt c 14 6))
  | 5 => unlessReserved c 43
      (.tbuild (bitsAt c 8 6) (bitsAt c 14 6) (bitsAt c 20 6) (bitsAt c 26 6) (bitsAt c 32 6)
        (flagAt c 38) (flagAt c 39) (flagAt c 40) (flagAt c 41) (flagAt c 42))
  | 6 => unlessReserved c 26 (.iscombed (bitsAt c 8 6) (bitsAt c 14 6) (bitsAt c 20 6))
  | opc => .error (.illegalOpcode opc)

/-- The number whose bits are the command's word: opcode, then each field at its lowest bit
(R116 to R121), every reserved bit 0. -/
def encodeNat : Instr → Nat
  | .tmask src dst pclass => 1 + src * 2 ^ 8 + dst * 2 ^ 14 + pclass.toNat * 2 ^ 20
  | .mmask src1 msk1 src2 msk2 dst =>
      2 + src1 * 2 ^ 8 + msk1 * 2 ^ 14 + src2 * 2 ^ 20 + msk2 * 2 ^ 26 + dst * 2 ^ 32
  | .mand a b dst => 3 + a * 2 ^ 8 + b * 2 ^ 14 + dst * 2 ^ 20
  | .mcomb src dst => 4 + src * 2 ^ 8 + dst * 2 ^ 14
  | .tbuild dst cbase ccnt obase ocnt order field rowpar cfirst wother =>
      5 + dst * 2 ^ 8 + cbase * 2 ^ 14 + ccnt * 2 ^ 20 + obase * 2 ^ 26 + ocnt * 2 ^ 32
        + order.toNat * 2 ^ 38 + field.toNat * 2 ^ 39 + rowpar.toNat * 2 ^ 40
        + cfirst.toNat * 2 ^ 41 + wother.toNat * 2 ^ 42
  | .iscombed ys us vs => 6 + ys * 2 ^ 8 + us * 2 ^ 14 + vs * 2 ^ 20

/-- The 64-bit word of a well-formed command. -/
def encode (i : Instr) : CmdWord := BitVec.ofNat 64 (encodeNat i)

/-- The command the decoder reads from the word w of the opcode table, whose bit k is C[k]. Every
command has 64 bits (R110), so a w of more bits is no command. -/
def decodeTableWord (nbits w : Nat) : Option Instr :=
  if w < 2 ^ nbits ∧ w < 2 ^ 64 then (decode (BitVec.ofNat 64 w)).toOption else none

end Sys2Proof
end

