-- ==== Sys2Proof/Config.lean ====
section
/-! DEFINITION. What one block of this hardware fixes (00_scope.md R10, 10_state.md R56) and the
free values. -/

namespace Sys2Proof

/-- A ThresholdMask shift parameter per plane class (40_threshold_mask.md R142, R145): `none` is the
default the rule states, `some n` a block that shifts by n. -/
structure ClassShift where
  luma   : Option Nat
  chroma : Option Nat
  deriving DecidableEq, Repr

/-- The implementation parameters (R10); `Params.legal` says which the spec allows. -/
structure Params where
  /-- MEMSIZE, the bytes of data memory. -/
  memSize : Nat
  /-- LMAX, the largest legal LENGTH. -/
  lmax : Nat
  /-- WMAX, the ISCOMBED scratch width. -/
  wmax : Nat
  /-- HMAX, the ISCOMBED scratch height. -/
  hmax : Nat
  tmHShift : ClassShift
  tmVShift : ClassShift
  tmPlainShift : ClassShift
  /-- TM_RANGE_CENTER (40_threshold_mask.md R146). -/
  tmRangeCenter : Bool
  deriving DecidableEq, Repr

/-- NSLOTS (R10): the descriptor slots. -/
abbrev nslots : Nat := 64

/-- The parameter values R10 allows. -/
abbrev Params.legal (p : Params) : Prop :=
  1 ≤ p.memSize ∧ p.memSize ≤ 2 ^ 32 ∧ 6 ≤ p.lmax ∧ 2 * p.lmax - 5 + 1 ≤ nslots ∧
    p.wmax ≤ 65535 ∧ p.hmax ≤ 65535

/-- A GVLUT weight: 1, 2 or 4 (43_temporal_mask_builder.md R187). -/
inductive Weight where
  | one
  | two
  | four
  deriving DecidableEq, Repr, Inhabited

/-- The tables one MTYPE value selects (R186, R187). `gvlut` has a row for each LENGTH 6 to 34 (the
largest LMAX of R10); of the row of LENGTH L only entries 0 to L-1 are read. -/
structure RomSet where
  vlut     : Vector (BitVec 2) 64
  tmmlut16 : Vector (BitVec 8) 16
  gvlut    : Vector (Vector Weight 34) 29
  deriving DecidableEq, Repr

/-- The lookup-table ROMs for MTYPE 0, 1 and 2 (10_state.md R56). -/
abbrev Rom := Vector RomSet 3

namespace Config

/-- Free value: the n-th byte whose value the spec leaves open (log 12). -/
opaque freeByte : Nat → BitVec 8

/-- VLUT(m, k), contents OPEN (R186; log 8). -/
opaque vlut : Nat → Nat → BitVec 2

/-- TMMLUT16(m, k), contents OPEN (R186; log 8). -/
opaque tmmlut16 : Nat → Nat → BitVec 8

/-- GVLUT(m, L, i), contents OPEN (R187; log 8). -/
opaque gvlut : Nat → Nat → Nat → Weight

/-- The ROM contents of `State.reset`: OPEN parameters, of which nothing can be proved (log 8). -/
def rom : Rom :=
  Vector.ofFn fun m =>
    { vlut := Vector.ofFn fun k => vlut m k
      tmmlut16 := Vector.ofFn fun k => tmmlut16 m k
      gvlut := Vector.ofFn fun l => Vector.ofFn fun i => gvlut m (l + 6) i }

/-- The parameters of `State.reset`: the defaults of R10, R142, R145 and R146. MEMSIZE has no default:
DESIGN CHOICE 4096, unsafe for a claim about `State.reset` alone (log 7). -/
def params : Params where
  memSize := 4096
  lmax := 30
  wmax := 8192
  hmax := 8192
  tmHShift := ⟨none, none⟩
  tmVShift := ⟨none, none⟩
  tmPlainShift := ⟨none, none⟩
  tmRangeCenter := true

end Config

end Sys2Proof
end

