-- ==== Sys2Proof/Machine/State.lean ====
section
/-! DEFINITION. The state of the machine as plain data (10_state.md, 20_memory.md, 70_reset_and_hazards.md
R270), and the state after reset. -/

namespace Sys2Proof.Machine

/-- The failure codes (60_exceptions.md R241). -/
inductive ErrCode where
  | eOpc
  | eRsvd
  | eFmt
  | eCfg
  | ePlaneOff
  | eDesc
  | eShape
  | eOverlap
  | eCount
  | eSize
  deriving DecidableEq, Repr

/-- FMT (R39), without its reserved bits, which read 0 and ignore writes (R32). -/
structure Fmt where
  bitdepth : BitVec 5
  ssw      : BitVec 2
  ssh      : BitVec 2
  deriving DecidableEq, Repr

/-- ICFG (R48), without its reserved bits. -/
structure Icfg where
  metric : Bool
  chroma : Bool
  bxlog2 : BitVec 4
  bylog2 : BitVec 4
  deriving DecidableEq, Repr

/-- One plane descriptor (R50 to R53): D_BASE, D_STRIDE, D_DIM, D_FLAGS without reserved bits. -/
structure Desc where
  base   : Word
  stride : Word
  width  : BitVec 16
  height : BitVec 16
  zero   : Bool
  deriving DecidableEq, Repr

/-- What a command reads and an accepted START latches (R57): the command word, every
configuration register and every descriptor. -/
structure CmdRegs where
  cmd0 : Word
  cmd1 : Word
  fmt  : Fmt
  ttype : BitVec 3
  mtql : Word
  mthl : Word
  mtqc : Word
  mthc : Word
  nt   : Word
  minThresh : Word
  maxThresh : Word
  cstr   : Word
  length : Word
  mtype  : BitVec 2
  cthresh : Word
  mi   : Word
  icfg : Icfg
  descs : Vector Desc 64
  deriving DecidableEq, Repr

/-- CTRL's interrupt enables (R34); START is write-only and reads 0. -/
structure Ctrl where
  ieDone : Bool
  ieErr  : Bool
  deriving DecidableEq, Repr

/-- STATUS (R35) and ERRINFO (R36); `errCode = none` is ERRCODE 0x00. -/
structure Status where
  busy  : Bool
  done  : Bool
  err   : Bool
  wbusy : Bool
  errCode : Option ErrCode
  errInfo : Word
  deriving DecidableEq, Repr

/-- SCORE and RESULT.COMBED (R49). -/
structure Result where
  score  : Word
  combed : Bool
  deriving DecidableEq, Repr

/-- A bitmap: rows top first, each left to right. -/
abbrev Bitmap := List (List Bool)

/-- A counter's place in the block histogram: grid, cell row, cell column (44_combing_scorer.md R218). -/
structure CellKey where
  grid : Nat
  row  : Nat
  col  : Nat
  deriving DecidableEq, Repr

/-- The block histogram: the counters that are not 0, each cell at most once. -/
abbrev Hist := List (CellKey × Nat)

/-- The hidden ISCOMBED scratch (R58). -/
structure Scratch where
  bitmap : Bitmap
  hist   : Hist
  deriving DecidableEq, Repr

/-- The data memory (20_memory.md R80): address and byte, addresses strictly rising, no entry equal to
what an unlisted address reads as (`unlistedByte`). -/
abbrev Memory := List Host.Cell

/-- What happens next outside a command's own computation (log 1): an access of the host (R274), the
reset input (R270), or the block's turn, at which a running command completes (R281). -/
inductive HostAct where
  /-- The host reads `size` bytes at a register offset (R31). -/
  | regRead (offset : BitVec 12) (size : Nat)
  /-- The host writes `size` bytes at a register offset (R31). -/
  | regWrite (offset : BitVec 12) (size : Nat) (value : Word)
  /-- The host reads one byte of data memory (R80). -/
  | memRead (addr : Word)
  /-- The host writes one byte of data memory (R80). -/
  | memWrite (addr : Word) (value : Byte)
  /-- Reset is asserted (R270, R272). -/
  | reset
  /-- The block's turn: a running command completes (R281). -/
  | blockTurn
  deriving DecidableEq, Repr

/-- Why the machine stops. -/
inductive Fault where
  /-- Raised by a host data-memory access at or above MEMSIZE, an address R80 says does not exist
  (log 11). Safe: the model stops. -/
  | noSuchAddress (addr : Word)
  deriving DecidableEq, Repr

/-- Why a step has no meaning. -/
inductive Refusal where
  /-- A command whose meaning is not modelled; no arm of `exec` uses it. Safe. -/
  | notModelled (mnemonic : String)
  /-- Raised by a host register access that is not one whole aligned 32-bit word, which R31 gives no
  step. Safe. -/
  | badAccess (offset : BitVec 12) (size : Nat)
  deriving DecidableEq, Repr

/-- The machine's state (INVENTORY.md, State). -/
structure State where
  /-- The registers the host writes and a command reads. -/
  regs : CmdRegs
  /-- The command latch (R57): what the running command reads. -/
  latch : CmdRegs
  ctrl   : Ctrl
  status : Status
  /-- SCORE and RESULT. -/
  result : Result
  scratch : Scratch
  mem : Memory
  /-- The lookup-table ROMs (R56): constants. -/
  rom : Rom
  /-- The implementation parameters (R10): constants. -/
  params : Params
  /-- MODEL: the host accesses and block turns to come, oldest first (log 1). -/
  host : List HostAct
  /-- MODEL: what the last host read returned (log 15). -/
  busData : Word
  /-- MODEL: the host wrote an operand extent of the running command (R96; log 13). -/
  hostTouched : Bool
  /-- MODEL: how many free bytes have been used (log 12). -/
  freeCtr : Nat
  deriving DecidableEq, Repr

/-- A descriptor after reset (R270). -/
def Desc.reset : Desc := { base := 0, stride := 0, width := 0, height := 0, zero := false }

/-- The command, configuration and descriptor registers after reset (R270). -/
def CmdRegs.reset : CmdRegs where
  cmd0 := 0
  cmd1 := 0
  fmt := { bitdepth := 8, ssw := 0, ssh := 0 }
  ttype := 0
  mtql := 0xFFFFFFFF
  mthl := 0xFFFFFFFF
  mtqc := 0xFFFFFFFF
  mthc := 0xFFFFFFFF
  nt := 0
  minThresh := 0
  maxThresh := 0
  cstr := 0
  length := 0
  mtype := 0
  cthresh := 0
  mi := 0
  icfg := { metric := false, chroma := false, bxlog2 := 4, bylog2 := 4 }
  descs := Vector.replicate 64 Desc.reset

/-- STATUS and ERRINFO after reset (R270). -/
def Status.reset : Status :=
  { busy := false, done := false, err := false, wbusy := false, errCode := none, errInfo := 0 }

/-- The state after reset (R270). DESIGN CHOICES: the latch and the scratch (log 9), the memory's unlisted
byte (log 6), MEMSIZE (log 7) and the model's own fields (logs 2, 12, 13, 15). -/
def State.reset : State where
  regs := CmdRegs.reset
  latch := CmdRegs.reset
  ctrl := { ieDone := false, ieErr := false }
  status := Status.reset
  result := { score := 0, combed := false }
  scratch := { bitmap := [], hist := [] }
  mem := []
  rom := Config.rom
  params := Config.params
  host := []
  busData := 0
  hostTouched := false
  freeCtr := 0

end Sys2Proof.Machine
end

