-- ==== Sys2Proof/Machine/Flags.lean ====
section
/-! DEFINITION. The status flags, the failure codes and the interrupt output (10_state.md R34, R35, R62;
60_exceptions.md R241, R252). No command sets a flag from arithmetic but RESULT.COMBED (R62). -/

namespace Sys2Proof.Machine

/-- The code written to STATUS.ERRCODE (R241). -/
def ErrCode.byte : ErrCode → Byte
  | .eOpc => 0x01
  | .eRsvd => 0x02
  | .eFmt => 0x03
  | .eCfg => 0x04
  | .ePlaneOff => 0x05
  | .eDesc => 0x06
  | .eShape => 0x07
  | .eOverlap => 0x08
  | .eCount => 0x09
  | .eSize => 0x0A

/-- STATUS.ERRCODE (R35): 0x00 when no failure since the last accepted START. -/
def errByte : Option ErrCode → Byte
  | none => 0
  | some c => c.byte

/-- A flag as the bit n of a register. -/
def flagBit (b : Bool) (n : Nat) : Word := if b then BitVec.ofNat 32 (2 ^ n) else 0

/-- STATUS as the host reads it (R35): bits [7:4] and [31:16] reserved, 0. -/
def Status.word (t : Status) : Word :=
  flagBit t.busy 0 ||| flagBit t.done 1 ||| flagBit t.err 2 ||| flagBit t.wbusy 3 |||
    ((errByte t.errCode).setWidth 32 <<< 8)

/-- A host write to STATUS (R35): DONE, ERR and WBUSY are cleared by a 1 and kept by a 0. -/
def Status.clear (t : Status) (v : Word) : Status :=
  { t with
    done := t.done && !v.getLsbD 1
    err := t.err && !v.getLsbD 2
    wbusy := t.wbusy && !v.getLsbD 3 }

/-- A dropped write (R37) sets WBUSY. -/
def Status.dropped (t : Status) : Status := { t with wbusy := true }

/-- An accepted START (R34): DONE, ERR, ERRCODE and ERRINFO to 0, BUSY to 1. -/
def Status.started (t : Status) : Status :=
  { t with busy := true, done := false, err := false, errCode := none, errInfo := 0 }

/-- A failed command (R244): ERRCODE, ERRINFO, ERR to 1, BUSY to 0; DONE stays. -/
def Status.failed (t : Status) (code : ErrCode) (info : Word) : Status :=
  { t with busy := false, err := true, errCode := some code, errInfo := info }

/-- A successful command (R245): DONE to 1, BUSY to 0; ERR, ERRCODE and ERRINFO stay. -/
def Status.succeeded (t : Status) : Status := { t with busy := false, done := true }

/-- CTRL as the host reads it (R34): START reads 0. -/
def Ctrl.word (c : Ctrl) : Word := flagBit c.ieDone 1 ||| flagBit c.ieErr 2

/-- The level output IRQ (R252). -/
def State.irq (s : State) : Bool :=
  (s.status.done && s.ctrl.ieDone) || (s.status.err && s.ctrl.ieErr)

/-- RESULT.COMBED (44_combing_scorer.md R219): SCORE > s32(MI) as exact integers. -/
def combedFlag (score mi : Word) : Bool := decide ((score.toNat : Int) > mi.toInt)

end Sys2Proof.Machine
end

