-- ==== Sys2Proof/Machine/Ops.lean ====
section
/-! DEFINITION. The operations over memory and state that the commands share: the data memory
(20_memory.md R80, R83, R92), START (10_state.md R34), failure and success of a command
(60_exceptions.md R243 to R245). A failure is this hardware's exception; there is no return from one
(R251, R260). -/

namespace Sys2Proof.Machine

/-- What a byte of data memory that is not listed reads as. DESIGN CHOICE 0x00: the power-up contents are
the platform's, any value (70_reset_and_hazards.md R270). Unsafe for a claim that rests on it (log 6). -/
def unlistedByte : Byte := 0

/-- The byte at an address. -/
def Memory.read : Memory → Nat → Byte
  | [], _ => unlistedByte
  | (b, v) :: m, a => if a = b then v else Memory.read m a

/-- Writing one byte; writing `unlistedByte` removes the entry, so that the form stays canonical. -/
def Memory.write : Memory → Nat → Byte → Memory
  | [], a, v => if v = unlistedByte then [] else [(a, v)]
  | (b, w) :: m, a, v =>
    if a < b then
      if v = unlistedByte then (b, w) :: m else (a, v) :: (b, w) :: m
    else if a = b then
      if v = unlistedByte then m else (a, v) :: m
    else (b, w) :: Memory.write m a v

/-- Writing bytes one after another. -/
def Memory.writeAll (m : Memory) (cells : List Host.Cell) : Memory :=
  cells.foldl (fun m c => Memory.write m c.1 c.2) m

/-- The canonical form: addresses strictly rising, no entry that reads as an unlisted address does. -/
abbrev Memory.wf (m : Memory) : Prop :=
  m.Pairwise (fun c d => c.1 < d.1) ∧ ∀ c ∈ m, c.2 ≠ unlistedByte

/-- MemRead(addr, n) (R7, R83): n bytes at addr as an unsigned little-endian number. -/
def Memory.readLE (m : Memory) (a : Nat) : Nat → Nat
  | 0 => 0
  | n + 1 => (Memory.read m a).toNat + 256 * Memory.readLE m (a + 1) n

/-- The cells MemWrite(addr, n, v) writes (R7): the n low bytes of v, little-endian. -/
def cellsLE (a v : Nat) : Nat → List Host.Cell
  | 0 => []
  | n + 1 => (a, BitVec.ofNat 8 v) :: cellsLE (a + 1) (v / 256) n

/-- The free bytes number ctr, ctr+1, ... at the given addresses (log 12). -/
def freeCells (addrs : List Nat) (ctr : Nat) : List Host.Cell :=
  addrs.zipIdx.map fun p => (p.1, Config.freeByte (ctr + p.2))

/-- Any value in every one of the given bytes (93_implementation_defined.md I7, I16). -/
def State.scramble (s : State) (addrs : List Nat) : State :=
  { s with
    mem := s.mem.writeAll (freeCells addrs s.freeCtr)
    freeCtr := s.freeCtr + addrs.length }

/-- A 32-bit word of four free bytes, number ctr on. -/
def freeWord (ctr : Nat) : Word :=
  Config.freeByte ctr ++ Config.freeByte (ctr + 1) ++ Config.freeByte (ctr + 2) ++
    Config.freeByte (ctr + 3)

/-- A failing check: the code and ERRINFO (R241). -/
structure Failure where
  code : ErrCode
  info : Word
  deriving DecidableEq, Repr

/-- The failure with this code and ERRINFO if the check's condition for failing holds. -/
def failIf (bad : Prop) [Decidable bad] (code : ErrCode) (info : Nat) : Option Failure :=
  if bad then some ⟨code, BitVec.ofNat 32 info⟩ else none

/-- "The first that fails decides the code and ERRINFO, and no later check is made" (R246). -/
def firstFailure : List (Option Failure) → Option Failure
  | [] => none
  | some f :: _ => some f
  | none :: rest => firstFailure rest

/-- Failure effects (R244): STATUS and ERRINFO only. -/
def failCommand (f : Failure) (s : State) : State :=
  { s with status := s.status.failed f.code f.info, hostTouched := false }

/-- Success effects on STATUS (R245). -/
def succeedCommand (s : State) : State :=
  { s with status := s.status.succeeded, hostTouched := false }

/-- A command's completion (R240, R243): a failing check decides; otherwise its effect happens and it
succeeds. -/
def completeCommand (check : Option Failure) (effect : State → State) (s : State) :
    Host.Outcome State Fault Refusal :=
  match check with
  | some f => .next (failCommand f s)
  | none => .next (succeedCommand (effect s))

/-- An accepted START (R34, R57): STATUS and ERRINFO, and the latch. -/
def startCommand (s : State) : State :=
  { s with latch := s.regs, status := s.status.started, hostTouched := false }

/-- The command word {CMD1, CMD0} of the latch (R110). -/
def CmdRegs.word (l : CmdRegs) : CmdWord := l.cmd1 ++ l.cmd0

/-- The failure of a word the decoder rejects (R241 codes 0x01 and 0x02). -/
def decodeFailure : DecodeError → Failure
  | .illegalOpcode opc => ⟨.eOpc, BitVec.ofNat 32 opc⟩
  | .reservedBit k => ⟨.eRsvd, BitVec.ofNat 32 k⟩

end Sys2Proof.Machine
end

