-- ==== Sys2Proof/Machine/Operands.lean ====
section
/-! DEFINITION. Operand forms: sample format, planes, border reads, stacked masks, extents, the checks on
configuration, descriptors, shapes and overlap (00_scope.md R8, R9; 20_memory.md R83 to R93;
60_exceptions.md R246 to R250), and the commit of a destination plane (R92, R95). -/

namespace Sys2Proof.Machine

/-! ### Format -/

/-- BPS (R9): bytes per sample. -/
def Fmt.bps (f : Fmt) : Nat := if f.bitdepth.toNat = 8 then 1 else 2

/-- PEAK = 2^BITDEPTH - 1 (R9), a set flag's value (R12). -/
def Fmt.peak (f : Fmt) : Nat := 2 ^ f.bitdepth.toNat - 1

/-- A flag sample (R12): PEAK when set, 0 when clear. -/
def Fmt.flag (f : Fmt) (set : Bool) : Nat := if set then f.peak else 0

/-- FMT is legal (R39). -/
abbrev Fmt.legal (f : Fmt) : Prop :=
  8 ≤ f.bitdepth.toNat ∧ f.bitdepth.toNat ≤ 16 ∧ f.ssw ≠ 3 ∧ f.ssh ≠ 3

/-! ### Planes -/

/-- The descriptor of a slot; a number that is no slot, which no command word holds, gives a zeroed
descriptor (log 21). -/
def CmdRegs.desc (l : CmdRegs) (slot : Nat) : Desc := l.descs[slot]?.getD Desc.reset

/-- W(s) (R8). -/
def CmdRegs.w (l : CmdRegs) (slot : Nat) : Nat := (l.desc slot).width.toNat

/-- H(s) (R8). -/
def CmdRegs.h (l : CmdRegs) (slot : Nat) : Nat := (l.desc slot).height.toNat

/-- A(s, y, x) = D_BASE + y * D_STRIDE + x * BPS, exactly (R85). -/
def Desc.addr (d : Desc) (bps y x : Nat) : Nat := d.base.toNat + y * d.stride.toNat + x * bps

/-- LAST(s) (R91), the last byte of the extent of a plane with W, H >= 1. -/
def Desc.last (d : Desc) (bps : Nat) : Nat :=
  d.base.toNat + (d.height.toNat - 1) * d.stride.toNat + d.width.toNat * bps - 1

/-- The slot has an extent (R91): it is no ZERO slot and has W, H >= 1. -/
abbrev Desc.hasExtent (d : Desc) : Prop := d.zero = false ∧ 1 ≤ d.width.toNat ∧ 1 ≤ d.height.toNat

/-- The address is in the slot's extent (R91). -/
abbrev Desc.covers (d : Desc) (bps a : Nat) : Prop :=
  d.hasExtent ∧ d.base.toNat ≤ a ∧ a ≤ d.last bps

/-- S(s, y, x) (R83, R85 to R87). -/
def sample (m : Memory) (bps : Nat) (d : Desc) (y x : Nat) : Nat :=
  if d.zero then 0 else m.readLE (d.addr bps y x) bps

/-- S(s, y, x) of a slot, as the running command reads it. -/
def State.sampleAt (s : State) (slot y x : Nat) : Nat :=
  sample s.mem s.latch.fmt.bps (s.latch.desc slot) y x

/-- mirror(x, W) (R88). -/
def mirror (x : Int) (w : Nat) : Nat :=
  if x < 0 then (-x).toNat else if x > (w : Int) - 1 then (2 * ((w : Int) - 1) - x).toNat else x.toNat

/-- rrow(y, d, H) (R89). -/
def rrow (y : Nat) (d : Int) (h : Nat) : Nat :=
  if 0 ≤ (y : Int) + d ∧ (y : Int) + d < h then ((y : Int) + d).toNat else ((y : Int) - d).toNat

/-- Sb(s, y, x; d, e) (R89) over a layer of h rows and w columns read by `rd` (R90: a border read
stays in its layer). -/
def borderRead (rd : Nat → Nat → Nat) (w h y x : Nat) (d e : Int) : Nat :=
  rd (rrow y d h) (mirror ((x : Int) + e) w)

/-! ### Checks -/

/-- Step 3 (R246): E_FMT, ERRINFO FMT's offset. -/
def fmtFailure (l : CmdRegs) : Option Failure := failIf (¬ l.fmt.legal) .eFmt 0x020

/-- A descriptor check of R249 fails for an operand with minimum size minW x minH (R247), in the order
(a) to (e), which all give the same code and ERRINFO. -/
abbrev Desc.violates (d : Desc) (bps memSize minW minH : Nat) (isDest : Bool) : Prop :=
  (isDest ∧ d.zero) ∨
  (d.width.toNat = 0 ∨ d.height.toNat = 0 ∨ d.width.toNat < minW ∨ d.height.toNat < minH) ∨
  (d.zero = false ∧
    (d.stride.toNat < d.width.toNat * bps ∨
     (bps = 2 ∧ (d.base.toNat % 2 = 1 ∨ d.stride.toNat % 2 = 1)) ∨
     d.last bps > memSize - 1))

/-- An operand slot and its minimum size (R247). -/
structure Operand where
  slot : Nat
  minW : Nat := 1
  minH : Nat := 1
  deriving DecidableEq, Repr

/-- Step 7 for one operand (R246, R249): E_DESC, ERRINFO the slot. A slot that is also the command's
destination is checked as one wherever it stands (95_test_vectors.md V-MA-3). -/
def descFailure (p : Params) (l : CmdRegs) (dst : Option Nat) (o : Operand) : Option Failure :=
  failIf ((l.desc o.slot).violates l.fmt.bps p.memSize o.minW o.minH (dst = some o.slot))
    .eDesc o.slot

/-- The slot is a plane of w columns and h rows. -/
abbrev CmdRegs.isSize (l : CmdRegs) (slot w h : Nat) : Prop := l.w slot = w ∧ l.h slot = h

/-- Step 8 for one slot (R250): E_SHAPE, ERRINFO the slot, unless it is w x h. -/
def shapeFailure (l : CmdRegs) (slot w h : Nat) : Option Failure :=
  failIf (¬ l.isSize slot w h) .eShape slot

/-- The extents of two slots intersect (R91, R93). -/
abbrev Desc.intersects (d e : Desc) (bps : Nat) : Prop :=
  d.base.toNat ≤ e.last bps ∧ e.base.toNat ≤ d.last bps

/-- Exact aliasing (R93): equal D_BASE, D_STRIDE and D_DIM. -/
abbrev Desc.sameExtent (d e : Desc) : Prop :=
  d.base = e.base ∧ d.stride = e.stride ∧ d.width = e.width ∧ d.height = e.height

/-- Step 9 for one source (R246, R93): E_OVERLAP, ERRINFO (destination slot << 8) or source slot. -/
def overlapFailure (l : CmdRegs) (aliasAllowed : Bool) (dst src : Nat) : Option Failure :=
  failIf ((l.desc src).zero = false ∧ (l.desc dst).intersects (l.desc src) l.fmt.bps ∧
      ¬ (aliasAllowed ∧ (l.desc dst).sameExtent (l.desc src)))
    .eOverlap (dst <<< 8 ||| src)

/-! ### Operand slots -/

/-- The mask slots of TBUILD, current then opposite (R189). -/
def maskSlots (cbase ccnt obase ocnt : Nat) : List Nat :=
  List.range' cbase ccnt ++ List.range' obase ocnt

/-- The source slots of a command, in the order of step 7 (R246); ISCOMBED reads US and VS only when
ICFG.CHROMA is 1 (R121). -/
def sourceSlots (l : CmdRegs) : Instr → List Nat
  | .tmask src _ _ => [src]
  | .mmask src1 msk1 src2 msk2 _ => [src1, msk1, src2, msk2]
  | .mand a b _ => [a, b]
  | .mcomb src _ => [src]
  | .tbuild _ cbase ccnt obase ocnt _ _ _ _ _ => maskSlots cbase ccnt obase ocnt
  | .iscombed ys us vs => if l.icfg.chroma then [ys, us, vs] else [ys]

/-- The destination slot of a command; ISCOMBED has none (R210). -/
def destSlot : Instr → Option Nat
  | .tmask _ dst _ => some dst
  | .mmask _ _ _ _ dst => some dst
  | .mand _ _ dst => some dst
  | .mcomb _ dst => some dst
  | .tbuild dst _ _ _ _ _ _ _ _ _ => some dst
  | .iscombed _ _ _ => none

/-! ### The commit of a destination plane -/

/-- The cells of the samples a command puts into a plane (R92): `f y x` is the sample for row y and
column x, `none` where the command's rule names none. -/
def planeCells (bps : Nat) (d : Desc) (f : Nat → Nat → Option Nat) : List Host.Cell :=
  (List.range d.height.toNat).flatMap fun y =>
    (List.range d.width.toNat).flatMap fun x =>
      match f y x with
      | some v => cellsLE (d.addr bps y x) v bps
      | none => []

/-- The addresses of every sample byte of a plane. -/
def planeAddrs (bps : Nat) (d : Desc) : List Nat :=
  (planeCells bps d fun _ _ => some 0).map Prod.fst

/-- Writing the destination (R95: every sample from memory as it was at START). When the host wrote an
operand extent meanwhile, every destination sample is a free value (R96; log 13). -/
def commitPlane (dst : Nat) (f : Nat → Nat → Option Nat) (s : State) : State :=
  if s.hostTouched then s.scramble (planeAddrs s.latch.fmt.bps (s.latch.desc dst))
  else { s with mem := s.mem.writeAll (planeCells s.latch.fmt.bps (s.latch.desc dst) f) }

/-! ### Small arithmetic shared by the kernels (R7, R13) -/

/-- min of a nonempty list. -/
def minOf : List Nat → Nat
  | [] => 0
  | x :: xs => xs.foldl min x

/-- max of a list, 0 for the empty one. -/
def maxOf (xs : List Nat) : Nat := xs.foldl max 0

/-- abs(a - b) of two samples. -/
def absDiff (a b : Nat) : Nat := ((a : Int) - (b : Int)).natAbs

end Sys2Proof.Machine
end

