-- ==== Sys2Proof/Machine/CombingScorer.lean ====
section
/-! DEFINITION. ISCOMBED, the block combing scorer (44_combing_scorer.md R210 to R222). -/

namespace Sys2Proof.Machine

/-! ### The combing test -/

/-- Metric 0 (R213). UNVERIFIED: the spec marks the second-derivative expression as general
knowledge; unsafe (log 16). -/
def combed0 (t c p n pp nn : Int) : Bool :=
  decide (((c - p > t ∧ c - n > t) ∨ (c - p < -t ∧ c - n < -t)) ∧
    ((pp + 4 * c + nn - 3 * (p + n)).natAbs : Int) > 6 * t)

/-- Metric 1 (R214), over exact integers. -/
def combed1 (t c p n : Int) : Bool := decide ((c - p) * (c - n) > t * t)

/-- COMBED(P, y, x, met, T) (R212 to R214) for a plane of h rows read by `rd`. -/
def combedAt (rd : Nat → Nat → Nat) (h : Nat) (metric : Bool) (t : Int) (y x : Nat) : Bool :=
  let row := fun d : Int => (rd (rrow y d h) x : Int)
  if metric then combed1 t (row 0) (row (-1)) (row 1)
  else combed0 t (row 0) (row (-1)) (row 1) (row (-2)) (row 2)

/-! ### Bitmaps -/

/-- The w x h bitmap of a predicate. -/
def bitmapOf (w h : Nat) (f : Nat → Nat → Bool) : Bitmap :=
  (List.range h).map fun y => (List.range w).map fun x => f y x

/-- The bit at row y, column x, 0 outside the bitmap. -/
def Bitmap.bit (b : Bitmap) (y x : Nat) : Bool := (b.getD y []).getD x false

/-- CB_P, the bitmap of a plane (R210). -/
def combedBitmap (s : State) (slot : Nat) : Bitmap :=
  bitmapOf (s.latch.w slot) (s.latch.h slot)
    (combedAt (s.sampleAt slot) (s.latch.h slot) s.latch.icfg.metric s.latch.cthresh.toInt)

/-- hit(P) of R216: the bit itself and at least one of its eight neighbours, at y, x >= 1.
UNVERIFIED: the spec marks this form as general knowledge; unsafe (log 17). -/
def chromaHit (b : Bitmap) (y x : Nat) : Bool :=
  b.bit y x && [b.bit (y - 1) (x - 1), b.bit (y - 1) x, b.bit (y - 1) (x + 1), b.bit y (x - 1),
    b.bit y (x + 1), b.bit (y + 1) (x - 1), b.bit (y + 1) x, b.bit (y + 1) (x + 1)].any id

/-- A chroma position of a wc x hc plane from which R216 propagates. -/
def propagates (u v : Bitmap) (wc hc cy cx : Nat) : Bool :=
  decide (1 ≤ cy ∧ cy + 2 ≤ hc ∧ 1 ≤ cx ∧ cx + 2 ≤ wc) && (chromaHit u cy cx || chromaHit v cy cx)

/-- B after PROPAGATE (R216). The luma position (y, x) belongs to the one chroma position
(y >> SSH, x >> SSW), so setting every position of each block is this test per position. -/
def lumaBitmap (s : State) (ys us vs : Nat) : Bitmap :=
  let b := combedBitmap s ys
  if s.latch.icfg.chroma then
    let u := combedBitmap s us
    let v := combedBitmap s vs
    let f := s.latch.fmt
    bitmapOf (s.latch.w ys) (s.latch.h ys) fun y x =>
      b.bit y x ||
        propagates u v (s.latch.w ys >>> f.ssw.toNat) (s.latch.h ys >>> f.ssh.toNat)
          (y >>> f.ssh.toNat) (x >>> f.ssw.toNat)
  else b

/-! ### Hits and histogram -/

/-- (x, y) is a hit (R217). -/
def isHit (b : Bitmap) (h y x : Nat) : Bool :=
  decide (1 ≤ y ∧ y + 2 ≤ h) && b.bit (y - 1) x && b.bit y x && b.bit (y + 1) x

/-- The hits of a w x h bitmap as (row, column), rows top first (R217). -/
def hits (b : Bitmap) (w h : Nat) : List (Nat × Nat) :=
  (List.range h).flatMap fun y => ((List.range w).filter (isHit b h y)).map fun x => (y, x)

/-- The four counters a hit adds to (R218), block size 2^bxl x 2^byl. UNVERIFIED: the half-block offset is
the spec's decision; unsafe (log 18). -/
def hitCells (bxl byl y x : Nat) : List CellKey :=
  let cell := fun (k ox oy : Nat) => ({ grid := k, row := (y + oy) >>> byl, col := (x + ox) >>> bxl } : CellKey)
  [cell 0 0 0, cell 1 (2 ^ bxl / 2) 0, cell 2 0 (2 ^ byl / 2), cell 3 (2 ^ bxl / 2) (2 ^ byl / 2)]

/-- Adding 1 to a counter. -/
def Hist.bump : Hist → CellKey → Hist
  | [], k => [(k, 1)]
  | (k', n) :: rest, k => if k' = k then (k', n + 1) :: rest else (k', n) :: Hist.bump rest k

/-- The counter at a cell, 0 when it is not listed. -/
def Hist.count : Hist → CellKey → Nat
  | [], _ => 0
  | (k', n) :: rest, k => if k' = k then n else Hist.count rest k

/-- The histogram of a list of hits, from every counter 0 (R218, R220). -/
def histOf (bxl byl : Nat) (hs : List (Nat × Nat)) : Hist :=
  (hs.flatMap fun p => hitCells bxl byl p.1 p.2).foldl Hist.bump []

/-- The largest counter, 0 when there was no hit (R219). -/
def Hist.score (h : Hist) : Nat := maxOf (h.map Prod.snd)

/-! ### The command -/

/-- The least HEIGHT of a plane ISCOMBED reads (R247). -/
def iscombedMinH (l : CmdRegs) : Nat := if l.icfg.metric then 2 else 4

/-- BXLOG2 and BYLOG2 are legal (R48). -/
abbrev Icfg.legal (c : Icfg) : Prop :=
  2 ≤ c.bxlog2.toNat ∧ c.bxlog2.toNat ≤ 11 ∧ 2 ≤ c.bylog2.toNat ∧ c.bylog2.toNat ≤ 11

/-- Step 8 with CHROMA = 1 (R215, R250). -/
def chromaShapeFailures (l : CmdRegs) (ys us vs : Nat) : List (Option Failure) :=
  let sw := l.fmt.ssw.toNat
  let sh := l.fmt.ssh.toNat
  [failIf (l.w ys % 2 ^ sw ≠ 0 ∨ l.h ys % 2 ^ sh ≠ 0) .eShape ys,
    shapeFailure l us (l.w ys >>> sw) (l.h ys >>> sh),
    shapeFailure l vs (l.w ys >>> sw) (l.h ys >>> sh)]

/-- The checks of ISCOMBED in the order of R246. -/
def iscombedCheck (p : Params) (l : CmdRegs) (ys us vs : Nat) : Option Failure :=
  firstFailure (
    [fmtFailure l, failIf (¬ l.icfg.legal) .eCfg 0x058] ++
    (sourceSlots l (.iscombed ys us vs)).map
      (fun m => descFailure p l none { slot := m, minH := iscombedMinH l }) ++
    (if l.icfg.chroma then chromaShapeFailures l ys us vs else []) ++
    [failIf (p.wmax < l.w ys ∨ p.hmax < l.h ys) .eSize ys])

/-- The scratch a successful ISCOMBED leaves (R58, R220). -/
def iscombedScratch (s : State) (ys us vs : Nat) : Scratch :=
  let b := lumaBitmap s ys us vs
  { bitmap := b
    hist := histOf s.latch.icfg.bxlog2.toNat s.latch.icfg.bylog2.toNat
      (hits b (s.latch.w ys) (s.latch.h ys)) }

/-- SCORE of ISCOMBED (R219). -/
def iscombedScore (s : State) (ys us vs : Nat) : Nat := Hist.score (iscombedScratch s ys us vs).hist

/-- Writing SCORE, and RESULT computed from it (R219). -/
def State.withScore (s : State) (score : Word) : State :=
  { s with result := { score := score, combed := combedFlag score s.latch.mi } }

/-- The effect of ISCOMBED (R210): no memory write. When the host wrote an operand extent meanwhile,
SCORE is a free value and RESULT is computed from it (R96; log 13). -/
def scoreFrame (ys us vs : Nat) (s : State) : State :=
  let s1 := { s with scratch := iscombedScratch s ys us vs }
  if s.hostTouched then { s1.withScore (freeWord s.freeCtr) with freeCtr := s.freeCtr + 4 }
  else s1.withScore (BitVec.ofNat 32 (iscombedScore s ys us vs))

/-- ISCOMBED (R210). -/
def execIscombed (ys us vs : Nat) (s : State) : Host.Outcome State Fault Refusal :=
  completeCommand (iscombedCheck s.params s.latch ys us vs) (scoreFrame ys us vs) s

end Sys2Proof.Machine
end

