-- ==== Sys2Proof/Machine/MaskFusion.lean ====
section
/-! DEFINITION. MAND and MCOMB, mask fusion and combing classification (42_mask_fusion.md R170 to R178). -/

namespace Sys2Proof.Machine

/-! ### MAND -/

/-- The checks of MAND in the order of R246. -/
def mandCheck (p : Params) (l : CmdRegs) (a b dst : Nat) : Option Failure :=
  firstFailure (
    [fmtFailure l] ++
    [({ slot := a } : Operand), { slot := b }, { slot := dst }].map (descFailure p l (some dst)) ++
    [failIf (l.h a % 2 = 1) .eShape a, shapeFailure l b (l.w a) (l.h a),
      shapeFailure l dst (l.w a) (l.h a)] ++
    [a, b].map (overlapFailure l true dst))

/-- The bitwise AND of the stored values (R171). -/
def mandSample (s : State) (a b r x : Nat) : Nat := s.sampleAt a r x &&& s.sampleAt b r x

/-- MAND (R170). -/
def execMand (a b dst : Nat) (s : State) : Host.Outcome State Fault Refusal :=
  completeCommand (mandCheck s.params s.latch a b dst)
    (commitPlane dst fun r x => some (mandSample s a b r x)) s

/-! ### MCOMB -/

/-- The checks of MCOMB in the order of R246; floor(HEIGHT / 2) >= 2 is HEIGHT >= 4 (R247). -/
def mcombCheck (p : Params) (l : CmdRegs) (src dst : Nat) : Option Failure :=
  firstFailure [
    fmtFailure l,
    descFailure p l (some dst) { slot := src, minW := 2, minH := 4 },
    descFailure p l (some dst) { slot := dst },
    failIf (l.h src % 2 = 1) .eShape src,
    shapeFailure l dst (l.w src) (l.h src / 2),
    overlapFailure l false dst src]

/-- The eight neighbour offsets (R175). -/
def neighbourOffsets : List (Int × Int) :=
  [(-1, -1), (-1, 0), (-1, 1), (0, -1), (0, 1), (1, -1), (1, 0), (1, 1)]

/-- How many of the eight neighbours of (y, x), border reads in a w x h layer read by `rd`, are not 0;
a reflected or mirrored sample counts as often as it is read (R177). -/
def neighbourCount (rd : Nat → Nat → Nat) (w h y x : Nat) : Nat :=
  neighbourOffsets.countP fun o => borderRead rd w h y x o.1 o.2 ≠ 0

/-- The sample at (y, x) of MCOMB's destination (R175, R176, R178). -/
def mcombSample (s : State) (src y x : Nat) : Nat :=
  let h := s.latch.h src / 2
  let w := s.latch.w src
  let q := s.sampleAt src
  if q y x = 0 ∧ q (h + y) x ≠ 0 ∧ s.latch.cstr.toNat ≤ neighbourCount q w h y x then
    s.latch.fmt.peak
  else q y x

/-- MCOMB (R175). -/
def execMcomb (src dst : Nat) (s : State) : Host.Outcome State Fault Refusal :=
  completeCommand (mcombCheck s.params s.latch src dst)
    (commitPlane dst fun y x => some (mcombSample s src y x)) s

end Sys2Proof.Machine
end

