-- ==== Sys2Proof/Machine/MotionMask.lean ====
section
/-! DEFINITION. MMASK, the motion detector comparator (41_motion_mask.md R160 to R163). -/

namespace Sys2Proof.Machine

/-- clamp(v, lo, hi) = min(max(v, lo), hi); lo and hi need not be ordered (R161). -/
def clamp (v lo hi : Int) : Int := min (max v lo) hi

/-- A layer's threshold (R161): clamp(min(t1, t2) + nt, lo, hi). -/
def matchThreshold (l : CmdRegs) (t1 t2 : Nat) : Int :=
  clamp ((min t1 t2 : Nat) + l.nt.toInt) l.minThresh.toInt l.maxThresh.toInt

/-- A match flag (R160, R162): set iff diff <= threshold. -/
def matchFlag (l : CmdRegs) (a b t1 t2 : Nat) : Bool :=
  decide ((absDiff a b : Int) ≤ matchThreshold l t1 t2)

/-- The operands of MMASK in the order of step 7 (R246). -/
def mmaskOperands (src1 msk1 src2 msk2 dst : Nat) : List Operand :=
  [{ slot := src1 }, { slot := msk1 }, { slot := src2 }, { slot := msk2 }, { slot := dst }]

/-- The checks of MMASK in the order of R246. -/
def mmaskCheck (p : Params) (l : CmdRegs) (src1 msk1 src2 msk2 dst : Nat) : Option Failure :=
  let w := l.w src1
  let h := l.h src1
  firstFailure (
    [fmtFailure l] ++
    (mmaskOperands src1 msk1 src2 msk2 dst).map (descFailure p l (some dst)) ++
    [shapeFailure l msk1 w (2 * h), shapeFailure l src2 w h, shapeFailure l msk2 w (2 * h),
      shapeFailure l dst w (2 * h)] ++
    [src1, msk1, src2, msk2].map (overlapFailure l true dst))

/-- The sample at row r, column x of MMASK's stacked destination (R160, R162): row r of the masks is the
layer's row, row r mod H of the sources. -/
def mmaskSample (s : State) (src1 msk1 src2 msk2 : Nat) (r x : Nat) : Nat :=
  let h := s.latch.h src1
  let y := if r < h then r else r - h
  s.latch.fmt.flag (matchFlag s.latch (s.sampleAt src1 y x) (s.sampleAt src2 y x)
    (s.sampleAt msk1 r x) (s.sampleAt msk2 r x))

/-- MMASK (R160). -/
def execMmask (src1 msk1 src2 msk2 dst : Nat) (s : State) : Host.Outcome State Fault Refusal :=
  completeCommand (mmaskCheck s.params s.latch src1 msk1 src2 msk2 dst)
    (commitPlane dst fun r x => some (mmaskSample s src1 msk1 src2 msk2 r x)) s

end Sys2Proof.Machine
end

