-- ==== Sys2Proof/Machine/TemporalBuilder.lean ====
section
/-! DEFINITION. TBUILD, the temporal mask builder (43_temporal_mask_builder.md R185 to R197). -/

namespace Sys2Proof.Machine

/-! ### Tables -/

/-- The number a weight stands for (R187). -/
def Weight.bits : Weight → BitVec 6
  | .one => 1
  | .two => 2
  | .four => 4

/-- The tables MTYPE selects (R186); MTYPE 3 never gets here (E_CFG, R47). -/
def romSet (r : Rom) (mtype : BitVec 2) : RomSet := r[mtype.toNat]?.getD r[0]

/-- VLUT(m, val) (R186). -/
def coarse (t : RomSet) (val : BitVec 6) : BitVec 2 := t.vlut.get val.toFin

/-- GVLUT(m, L, i) (R187). -/
def weightOf (t : RomSet) (len i : Nat) : BitVec 6 :=
  Weight.bits (((t.gvlut[len - 6]?.bind fun row => row[i]?)).getD .one)

/-- TMMLUT16(m, ORDER*8 + FIELD*4 + VLUT(m, val)) (R188). -/
def tableCode (t : RomSet) (order field : Bool) (cls : BitVec 2) : Nat :=
  (t.tmmlut16[order.toNat * 8 + field.toNat * 4 + cls.toNat]?.getD 0).toNat

/-! ### The scan -/

/-- A phase array of n entries (R191): current entries at positions 2j + offc, opposite entries at
2j + offo, with offc = 0 when CFIRST is 1. -/
def phaseArray (cfirst : Bool) (cur opp : List Nat) : List Nat :=
  (List.range (cur.length + opp.length)).map fun k =>
    if (k % 2 = 0) = (cfirst = true) then cur.getD (k / 2) 0 else opp.getD (k / 2) 0

/-- The window p[i .. i+L-5] passes: all its L-4 samples are nonzero (R193). -/
def windowPasses (p : List Nat) (len i : Nat) : Bool :=
  (List.range (len - 4)).all fun k => p.getD (i + k) 0 ≠ 0

/-- val after step i (R185, R193): phase 0's weight in bits [5:3], phase 1's in [2:0]. -/
def scanStep (t : RomSet) (len : Nat) (p0 p1 : List Nat) (i : Nat) (val : BitVec 6) : BitVec 6 :=
  val ||| (if windowPasses p0 len i then weightOf t len i <<< 3 else 0) |||
    (if windowPasses p1 len i then weightOf t len i else 0)

/-- The scan over the remaining values of i (R193): it ends early when VLUT(m, val) = 2. -/
def scanFrom (t : RomSet) (len : Nat) (p0 p1 : List Nat) : List Nat → BitVec 6 → BitVec 6
  | [], val => val
  | i :: rest, val =>
    let v := scanStep t len p0 p1 i val
    if coarse t v = 2 then v else scanFrom t len p0 p1 rest v

/-- val at the end of the scan of one pixel (R193). -/
def scanVal (t : RomSet) (len : Nat) (p0 p1 : List Nat) : BitVec 6 :=
  scanFrom t len p0 p1 (List.range len) 0

/-- The fast path (R192): the central three current entries are 0. -/
def centreClear (cur : List Nat) : Bool :=
  let ct := cur.length / 2
  cur.getD (ct - 1) 0 = 0 && cur.getD ct 0 = 0 && cur.getD (ct + 1) 0 = 0

/-- The code of a classified pixel (R185): `cur` the current samples, `above` and `below` the opposite
samples of the rows above and below. -/
def pixelCode (t : RomSet) (len : Nat) (order field cfirst : Bool) (cur above below : List Nat) : Nat :=
  if centreClear cur then 60
  else tableCode t order field
    (coarse t (scanVal t len (phaseArray cfirst cur above) (phaseArray cfirst cur below)))

/-! ### The command -/

/-- The count constraints 1 to 5 (R190), E_COUNT, in order. -/
def countFailures (len cbase ccnt obase ocnt : Nat) (cfirst : Bool) : List (Option Failure) :=
  [failIf (ccnt < 3) .eCount 1,
    failIf (¬ (if cfirst then ccnt = ocnt ∨ ccnt = ocnt + 1 else ocnt = ccnt ∨ ocnt = ccnt + 1))
      .eCount 2,
    failIf (ccnt + ocnt < 2 * len - 5) .eCount 3,
    failIf (nslots < cbase + ccnt) .eCount 4,
    failIf (nslots < obase + ocnt) .eCount 5]

/-- The checks of TBUILD in the order of R246. -/
def tbuildCheck (p : Params) (l : CmdRegs) (dst cbase ccnt obase ocnt : Nat) (cfirst : Bool) :
    Option Failure :=
  let masks := maskSlots cbase ccnt obase ocnt
  firstFailure (
    [fmtFailure l,
      failIf (¬ (6 ≤ l.length.toNat ∧ l.length.toNat ≤ p.lmax)) .eCfg 0x048,
      failIf (l.mtype.toNat = 3) .eCfg 0x04C] ++
    countFailures l.length.toNat cbase ccnt obase ocnt cfirst ++
    [descFailure p l (some dst) { slot := dst, minH := 2 }] ++
    masks.map (fun m => descFailure p l (some dst) { slot := m }) ++
    masks.map (fun m => shapeFailure l m (l.w dst) (l.h dst)) ++
    masks.map (overlapFailure l false dst))

/-- The samples at (y, x) of n mask slots from `first` on (R189). -/
def maskSamples (s : State) (first n y x : Nat) : List Nat :=
  (List.range' first n).map fun m => s.sampleAt m y x

/-- The sample at (y, x) of TBUILD's destination, `none` for a row it does not write (R185, R194). -/
def tbuildSample (s : State) (dst cbase ccnt obase ocnt : Nat)
    (order field rowpar cfirst wother : Bool) (y x : Nat) : Option Nat :=
  if y % 2 = rowpar.toNat then
    let h := s.latch.h dst
    some (pixelCode (romSet s.rom s.latch.mtype) s.latch.length.toNat order field cfirst
      (maskSamples s cbase ccnt y x)
      (maskSamples s obase ocnt (rrow y (-1) h) x)
      (maskSamples s obase ocnt (rrow y 1 h) x))
  else if wother then some 10 else none

/-- TBUILD (R185). -/
def execTbuild (dst cbase ccnt obase ocnt : Nat) (order field rowpar cfirst wother : Bool)
    (s : State) : Host.Outcome State Fault Refusal :=
  completeCommand (tbuildCheck s.params s.latch dst cbase ccnt obase ocnt cfirst)
    (commitPlane dst fun y x =>
      tbuildSample s dst cbase ccnt obase ocnt order field rowpar cfirst wother y x) s

end Sys2Proof.Machine
end

