-- ==== Sys2Proof/Machine/ThresholdMask.lean ====
section
/-! DEFINITION. TMASK, the threshold-mask generator (40_threshold_mask.md R140 to R150). -/

namespace Sys2Proof.Machine

/-- The samples of the 3 x 3 window around a pixel (R141). -/
structure Window where
  c  : Nat
  u  : Nat
  d  : Nat
  l  : Nat
  r  : Nat
  ul : Nat
  ur : Nat
  dl : Nat
  dr : Nat
  deriving DecidableEq, Repr

/-- The window of pixel (y, x) of a w x h plane read by `rd`, with border reads (R141). -/
def windowAt (rd : Nat → Nat → Nat) (w h y x : Nat) : Window :=
  let n := borderRead rd w h y x
  { c := n 0 0, u := n (-1) 0, d := n 1 0, l := n 0 (-1), r := n 0 1,
    ul := n (-1) (-1), ur := n (-1) 1, dl := n 1 (-1), dr := n 1 1 }

/-- The 4-neighbour set (R143). -/
def Window.four (n : Window) : List Nat := [n.u, n.d, n.l, n.r]

/-- The 8-neighbour set (R143). -/
def Window.eight (n : Window) : List Nat := n.four ++ [n.ul, n.ur, n.dl, n.dr]

/-- half(s) (R142). -/
def half (s : Nat) : Nat := if s = 0 then 0 else 2 ^ (s - 1)

/-- (abs(c - v) + half(s)) >> s, the normalised deviation of the centre from one sample (R144). -/
def normDev (c v s : Nat) : Nat := (absDiff c v + half s) >>> s

/-- The larger normalised deviation from the least and the greatest sample of a group (R144, R145). -/
def groupDev (c : Nat) (group : List Nat) (s : Nat) : Nat :=
  max (normDev c (minOf group) s) (normDev c (maxOf group) s)

/-- The shift parameter of a plane class, or its default (R142, R145). -/
def ClassShift.pick (q : ClassShift) (pclass : Bool) (default : Nat) : Nat :=
  ((if pclass then q.chroma else q.luma).getD default)

/-- hShift (R142): default SSW_c. -/
def hShift (p : Params) (f : Fmt) (pclass : Bool) : Nat :=
  ClassShift.pick p.tmHShift pclass (if pclass then f.ssw.toNat else 0)

/-- vShift (R142): default 1 + SSH_c. -/
def vShift (p : Params) (f : Fmt) (pclass : Bool) : Nat :=
  ClassShift.pick p.tmVShift pclass (1 + if pclass then f.ssh.toNat else 0)

/-- pShift (R145): default hShift. -/
def plainShift (p : Params) (f : Fmt) (pclass : Bool) : Nat :=
  ClassShift.pick p.tmPlainShift pclass (hShift p f pclass)

/-- Compensated ATMAX (R144): vertical group `v`, horizontal group {l, r}. -/
def compensated (n : Window) (v : List Nat) (hs vs : Nat) : Nat :=
  max (groupDev n.c v vs) (groupDev n.c [n.l, n.r] hs)

/-- Range ATMAX (R146): max - min, with no shift. -/
def rangeOf (n : Window) (set : List Nat) (centre : Bool) : Nat :=
  let r := if centre then n.c :: set else set
  maxOf r - minOf r

/-- ATMAX by TTYPE (R143 to R146); TTYPE 6 and 7 never get here (E_CFG, R40). -/
def atmax (p : Params) (f : Fmt) (ttype : BitVec 3) (pclass : Bool) (n : Window) : Nat :=
  match ttype.toNat with
  | 0 => compensated n [n.u, n.d] (hShift p f pclass) (vShift p f pclass)
  | 1 => compensated n [n.ul, n.u, n.ur, n.dl, n.d, n.dr] (hShift p f pclass) (vShift p f pclass)
  | 2 => groupDev n.c n.four (plainShift p f pclass)
  | 3 => groupDev n.c n.eight (plainShift p f pclass)
  | 4 => rangeOf n n.four p.tmRangeCenter
  | _ => rangeOf n n.eight p.tmRangeCenter

/-- The pair's quarter override register and its offset (R140, R42). -/
def quarterReg (l : CmdRegs) (pclass : Bool) : Word × Nat :=
  if pclass then (l.mtqc, 0x030) else (l.mtql, 0x028)

/-- The pair's half override register and its offset. -/
def halfReg (l : CmdRegs) (pclass : Bool) : Word × Nat :=
  if pclass then (l.mthc, 0x034) else (l.mthl, 0x02C)

/-- An override value is -2, -1 or in [0, PEAK] (R42, R148). -/
abbrev overrideLegal (f : Fmt) (v : Word) : Prop :=
  v.toInt = -2 ∨ v.toInt = -1 ∨ (0 ≤ v.toInt ∧ v.toInt ≤ f.peak)

/-- Step 4 for an override register (R148): E_CFG, ERRINFO its offset. -/
def overrideFailure (f : Fmt) (r : Word × Nat) : Option Failure :=
  failIf (¬ overrideLegal f r.1) .eCfg r.2

/-- Step 5 for an override register (R148): E_PLANE_OFF when it holds -2, ERRINFO its offset. -/
def planeOffFailure (r : Word × Nat) : Option Failure := failIf (r.1.toInt = -2) .ePlaneOff r.2

/-- The checks of TMASK in the order of R246. -/
def tmaskCheck (p : Params) (l : CmdRegs) (src dst : Nat) (pclass : Bool) : Option Failure :=
  firstFailure [
    fmtFailure l,
    failIf (5 < l.ttype.toNat) .eCfg 0x024,
    overrideFailure l.fmt (quarterReg l pclass),
    overrideFailure l.fmt (halfReg l pclass),
    planeOffFailure (quarterReg l pclass),
    planeOffFailure (halfReg l pclass),
    descFailure p l (some dst) { slot := src, minW := 2, minH := 2 },
    descFailure p l (some dst) { slot := dst },
    shapeFailure l dst (l.w src) (2 * l.h src),
    overlapFailure l false dst src]

/-- qv of pixel (y, x) (R140, R147, R149). -/
def quarterValue (qo : Word) (a : Nat) : Nat := if 0 ≤ qo.toInt then qo.toInt.toNat else (a + 2) >>> 2

/-- hv of pixel (y, x) (R140, R147, R149). -/
def halfValue (ho : Word) (a : Nat) : Nat := if 0 ≤ ho.toInt then ho.toInt.toNat else (a + 1) >>> 1

/-- ATMAX(SRC, y, x, TTYPE, PCLASS) (R140, R141). -/
def tmaskAtmax (s : State) (src : Nat) (pclass : Bool) (y x : Nat) : Nat :=
  atmax s.params s.latch.fmt s.latch.ttype pclass
    (windowAt (s.sampleAt src) (s.latch.w src) (s.latch.h src) y x)

/-- The sample at row r, column x of TMASK's stacked destination (R140, R90). -/
def tmaskSample (s : State) (src : Nat) (pclass : Bool) (r x : Nat) : Nat :=
  if r < s.latch.h src then
    quarterValue (quarterReg s.latch pclass).1 (tmaskAtmax s src pclass r x)
  else
    halfValue (halfReg s.latch pclass).1 (tmaskAtmax s src pclass (r - s.latch.h src) x)

/-- TMASK (R140). -/
def execTmask (src dst : Nat) (pclass : Bool) (s : State) : Host.Outcome State Fault Refusal :=
  completeCommand (tmaskCheck s.params s.latch src dst pclass)
    (commitPlane dst fun r x => some (tmaskSample s src pclass r x)) s

end Sys2Proof.Machine
end

