-- ==== Sys2Proof/Machine/Dispatch.lean ====
section
/-! DEFINITION. The dispatch of a command to its meaning (30_encoding.md R115). -/

namespace Sys2Proof.Machine

/-- A command's completion, from the latch and the data memory. -/
def exec (i : Instr) (s : State) : Host.Outcome State Fault Refusal :=
  match i with
  | .tmask src dst pclass => Sys2Proof.Machine.execTmask src dst pclass s
  | .mmask src1 msk1 src2 msk2 dst => Sys2Proof.Machine.execMmask src1 msk1 src2 msk2 dst s
  | .mand a b dst => Sys2Proof.Machine.execMand a b dst s
  | .mcomb src dst => Sys2Proof.Machine.execMcomb src dst s
  | .tbuild dst cbase ccnt obase ocnt order field rowpar cfirst wother => Sys2Proof.Machine.execTbuild dst cbase ccnt obase ocnt order field rowpar cfirst wother s
  | .iscombed ys us vs => Sys2Proof.Machine.execIscombed ys us vs s

end Sys2Proof.Machine
end

