-- ==== Sys2Proof/Machine/Command.lean ====
section
/-! DEFINITION. The block's turn: the running command completes (10_state.md R30, 60_exceptions.md R240). -/

namespace Sys2Proof.Machine

/-- The running command completes: an illegal word fails (R246 steps 1 and 2), a command has its
meaning. -/
def runCommand (s : State) : Host.Outcome State Fault Refusal :=
  match decode s.latch.word with
  | .error e => .next (failCommand (decodeFailure e) s)
  | .ok i => exec i s

/-- The block's turn: an idle block does nothing (R253). -/
def blockTurn (s : State) : Host.Outcome State Fault Refusal :=
  if s.status.busy then runCommand s else .next s

end Sys2Proof.Machine
end

