-- ==== Sys2Proof/Machine/Registers.lean ====
section
/-! DEFINITION. The register space (10_state.md R31 to R59): the register map, reads and writes. -/

namespace Sys2Proof.Machine

/-- The registers of the map (R59). -/
inductive Reg where
  | id
  | ctrl
  | status
  | errinfo
  | cmd0
  | cmd1
  | score
  | result
  | fmt
  | ttype
  | mtql
  | mthl
  | mtqc
  | mthc
  | nt
  | minThresh
  | maxThresh
  | cstr
  | length
  | mtype
  | cthresh
  | mi
  | icfg
  | cap0
  | cap1
  | dBase (slot : Fin 64)
  | dStride (slot : Fin 64)
  | dDim (slot : Fin 64)
  | dFlags (slot : Fin 64)
  deriving DecidableEq, Repr

/-- The register at a word-aligned offset of the descriptor table (R50). -/
def descReg (slot : Fin 64) : Nat → Option Reg
  | 0 => some (.dBase slot)
  | 4 => some (.dStride slot)
  | 8 => some (.dDim slot)
  | 12 => some (.dFlags slot)
  | _ => none

/-- The register map (R59): `none` for an offset not listed. -/
def regAt (offset : Nat) : Option Reg :=
  match offset with
  | 0x000 => some .id
  | 0x004 => some .ctrl
  | 0x008 => some .status
  | 0x00C => some .errinfo
  | 0x010 => some .cmd0
  | 0x014 => some .cmd1
  | 0x018 => some .score
  | 0x01C => some .result
  | 0x020 => some .fmt
  | 0x024 => some .ttype
  | 0x028 => some .mtql
  | 0x02C => some .mthl
  | 0x030 => some .mtqc
  | 0x034 => some .mthc
  | 0x038 => some .nt
  | 0x03C => some .minThresh
  | 0x040 => some .maxThresh
  | 0x044 => some .cstr
  | 0x048 => some .length
  | 0x04C => some .mtype
  | 0x050 => some .cthresh
  | 0x054 => some .mi
  | 0x058 => some .icfg
  | 0x05C => some .cap0
  | 0x060 => some .cap1
  | o =>
    if 0x100 ≤ o ∧ o < 0x500 then descReg (Fin.ofNat 64 ((o - 0x100) / 16)) ((o - 0x100) % 16)
    else none

/-- FMT as the host reads it (R39). -/
def Fmt.word (f : Fmt) : Word :=
  f.bitdepth.setWidth 32 ||| (f.ssw.setWidth 32 <<< 8) ||| (f.ssh.setWidth 32 <<< 12)

/-- FMT from the written word; reserved bits are ignored (R32, R39). -/
def Fmt.ofWord (v : Word) : Fmt :=
  { bitdepth := v.extractLsb' 0 5, ssw := v.extractLsb' 8 2, ssh := v.extractLsb' 12 2 }

/-- ICFG as the host reads it (R48). -/
def Icfg.word (c : Icfg) : Word :=
  flagBit c.metric 0 ||| flagBit c.chroma 1 ||| (c.bxlog2.setWidth 32 <<< 8) |||
    (c.bylog2.setWidth 32 <<< 12)

/-- ICFG from the written word (R48). -/
def Icfg.ofWord (v : Word) : Icfg :=
  { metric := v.getLsbD 0, chroma := v.getLsbD 1, bxlog2 := v.extractLsb' 8 4,
    bylog2 := v.extractLsb' 12 4 }

/-- CAP0 (R55): LMAX in [7:0], NSLOTS in [15:8]. -/
def cap0Word (p : Params) : Word := BitVec.ofNat 32 (p.lmax % 256 + 256 * nslots)

/-- CAP1 (R55): WMAX in [15:0], HMAX in [31:16]. -/
def cap1Word (p : Params) : Word := BitVec.ofNat 32 (p.wmax % 65536 + 65536 * (p.hmax % 65536))

/-- The value a host read of a register returns (R33 to R55). -/
def readReg (s : State) : Reg → Word
  | .id => 0x544D4431
  | .ctrl => s.ctrl.word
  | .status => s.status.word
  | .errinfo => s.status.errInfo
  | .cmd0 => s.regs.cmd0
  | .cmd1 => s.regs.cmd1
  | .score => s.result.score
  | .result => flagBit s.result.combed 0
  | .fmt => s.regs.fmt.word
  | .ttype => s.regs.ttype.setWidth 32
  | .mtql => s.regs.mtql
  | .mthl => s.regs.mthl
  | .mtqc => s.regs.mtqc
  | .mthc => s.regs.mthc
  | .nt => s.regs.nt
  | .minThresh => s.regs.minThresh
  | .maxThresh => s.regs.maxThresh
  | .cstr => s.regs.cstr
  | .length => s.regs.length
  | .mtype => s.regs.mtype.setWidth 32
  | .cthresh => s.regs.cthresh
  | .mi => s.regs.mi
  | .icfg => s.regs.icfg.word
  | .cap0 => cap0Word s.params
  | .cap1 => cap1Word s.params
  | .dBase n => s.regs.descs[n].base
  | .dStride n => s.regs.descs[n].stride
  | .dDim n => s.regs.descs[n].height ++ s.regs.descs[n].width
  | .dFlags n => flagBit s.regs.descs[n].zero 0

/-- What a host read at an offset returns: an offset not listed reads as 0 (R32). -/
def readOffset (s : State) (offset : Nat) : Word :=
  match regAt offset with
  | some r => readReg s r
  | none => 0

/-- Rewriting one descriptor. -/
def CmdRegs.updateDesc (l : CmdRegs) (n : Fin 64) (f : Desc → Desc) : CmdRegs :=
  { l with descs := l.descs.set n (f l.descs[n]) }

/-- The command, configuration and descriptor registers after a write to one of them, `none` for any
other register (R37). -/
def writeCmdReg (l : CmdRegs) (v : Word) : Reg → Option CmdRegs
  | .cmd0 => some { l with cmd0 := v }
  | .cmd1 => some { l with cmd1 := v }
  | .fmt => some { l with fmt := Fmt.ofWord v }
  | .ttype => some { l with ttype := v.setWidth 3 }
  | .mtql => some { l with mtql := v }
  | .mthl => some { l with mthl := v }
  | .mtqc => some { l with mtqc := v }
  | .mthc => some { l with mthc := v }
  | .nt => some { l with nt := v }
  | .minThresh => some { l with minThresh := v }
  | .maxThresh => some { l with maxThresh := v }
  | .cstr => some { l with cstr := v }
  | .length => some { l with length := v }
  | .mtype => some { l with mtype := v.setWidth 2 }
  | .cthresh => some { l with cthresh := v }
  | .mi => some { l with mi := v }
  | .icfg => some { l with icfg := Icfg.ofWord v }
  | .dBase n => some (l.updateDesc n fun d => { d with base := v })
  | .dStride n => some (l.updateDesc n fun d => { d with stride := v })
  | .dDim n => some (l.updateDesc n fun d =>
      { d with width := v.extractLsb' 0 16, height := v.extractLsb' 16 16 })
  | .dFlags n => some (l.updateDesc n fun d => { d with zero := v.getLsbD 0 })
  | .id | .ctrl | .status | .errinfo | .score | .result | .cap0 | .cap1 => none

/-- Setting WBUSY for a dropped write (R37). -/
def dropWrite (s : State) : State := { s with status := s.status.dropped }

/-- A host write to CTRL (R34): the enables always; START when idle, dropped when busy. -/
def writeCtrl (s : State) (v : Word) : State :=
  let s1 := { s with ctrl := { ieDone := v.getLsbD 1, ieErr := v.getLsbD 2 } }
  if v.getLsbD 0 then (if s.status.busy then dropWrite s1 else startCommand s1) else s1

/-- A host write to a register (R33 to R37, R55): a write to a read-only register is ignored; a write
to a command, configuration or descriptor register is dropped while busy. -/
def writeReg (s : State) (v : Word) (r : Reg) : State :=
  match r with
  | .ctrl => writeCtrl s v
  | .status => { s with status := s.status.clear v }
  | r =>
    match writeCmdReg s.regs v r with
    | some l => if s.status.busy then dropWrite s else { s with regs := l }
    | none => s

/-- A host write at an offset: one not listed ignores writes (R32). -/
def writeOffset (s : State) (v : Word) (offset : Nat) : State :=
  match regAt offset with
  | some r => writeReg s v r
  | none => s

/-- An access R31 allows: one whole register at a multiple of 4. -/
abbrev accessLegal (offset : BitVec 12) (size : Nat) : Prop := size = 4 ∧ offset.toNat % 4 = 0

end Sys2Proof.Machine
end

