-- ==== Sys2Proof/Machine/HostBus.lean ====
section
/-! DEFINITION. The host's accesses and the reset input (10_state.md R31, 20_memory.md R80, R94, R96;
70_reset_and_hazards.md R270 to R279). -/

namespace Sys2Proof.Machine

/-- The command running, if its word is one. -/
def State.running (s : State) : Option Instr :=
  if s.status.busy then (decode s.latch.word).toOption else none

/-- The address is in the extent of a slot of the latch (R91). -/
def State.slotCovers (s : State) (a slot : Nat) : Bool :=
  decide ((s.latch.desc slot).covers s.latch.fmt.bps a)

/-- The address is in the destination extent of the running command (R96). -/
def State.inDest (s : State) (a : Nat) : Bool :=
  match s.running with
  | some i => (destSlot i).any (s.slotCovers a)
  | none => false

/-- The address is in a source or destination extent of the running command (R96). -/
def State.inOperand (s : State) (a : Nat) : Bool :=
  s.inDest a ||
    match s.running with
    | some i => (sourceSlots s.latch i).any (s.slotCovers a)
    | none => false

/-- A host register read (R31, R37). -/
def hostRegRead (offset : BitVec 12) (size : Nat) (s : State) : Host.Outcome State Fault Refusal :=
  if accessLegal offset size then .next { s with busData := readOffset s offset.toNat }
  else .refused (.badAccess offset size)

/-- A host register write (R31). -/
def hostRegWrite (offset : BitVec 12) (size : Nat) (v : Word) (s : State) :
    Host.Outcome State Fault Refusal :=
  if accessLegal offset size then .next (writeOffset s v offset.toNat)
  else .refused (.badAccess offset size)

/-- A host read of a byte of data memory (R80): any value from the destination extent of the running
command (R96, R278; log 12). -/
def hostMemRead (addr : Word) (s : State) : Host.Outcome State Fault Refusal :=
  if s.params.memSize ≤ addr.toNat then .fault (.noSuchAddress addr)
  else if s.inDest addr.toNat then
    .next { s with
      busData := (Config.freeByte s.freeCtr).setWidth 32
      freeCtr := s.freeCtr + 1 }
  else .next { s with busData := (Memory.read s.mem addr.toNat).setWidth 32 }

/-- A host write of a byte of data memory (R80): one into an operand extent of the running command makes
its result unspecified (R96, R278; log 13). -/
def hostMemWrite (addr : Word) (v : Byte) (s : State) : Host.Outcome State Fault Refusal :=
  if s.params.memSize ≤ addr.toNat then .fault (.noSuchAddress addr)
  else
    .next { s with
      mem := Memory.write s.mem addr.toNat v
      hostTouched := s.hostTouched || s.inOperand addr.toNat }

/-- The bytes a reset leaves unspecified (R272): the destination extent of the running command, as far
as it lies in the data memory (log 14). -/
def State.abandonedBytes (s : State) : List Nat :=
  match s.running.bind destSlot with
  | some slot =>
    let d := s.latch.desc slot
    if d.hasExtent then
      (List.range' d.base.toNat (d.last s.latch.fmt.bps + 1 - d.base.toNat)).filter
        (fun a => decide (a < s.params.memSize))
    else []
  | none => []

/-- Reset (R270, R272): the registers and hidden state of `State.reset`; ROMs, parameters and every byte
outside the abandoned destination extent are kept. -/
def resetBlock (s : State) : State :=
  { s.scramble s.abandonedBytes with
    regs := State.reset.regs
    latch := State.reset.latch
    ctrl := State.reset.ctrl
    status := State.reset.status
    result := State.reset.result
    scratch := State.reset.scratch
    hostTouched := State.reset.hostTouched }

/-- One host access, reset or block turn (R274). -/
def act : HostAct → State → Host.Outcome State Fault Refusal
  | .regRead offset size, s => hostRegRead offset size s
  | .regWrite offset size v, s => hostRegWrite offset size v s
  | .memRead addr, s => hostMemRead addr s
  | .memWrite addr v, s => hostMemWrite addr v s
  | .reset, s => .next (resetBlock s)
  | .blockTurn, s => blockTurn s

/-- What happens next (log 1): the first entry of the host list, or, when it is empty, the block's turn
(logs 3, 4). -/
def nextAct (s : State) : HostAct :=
  match s.host with
  | a :: _ => a
  | [] => .blockTurn

/-- The state with that entry taken from the host list. -/
def State.popHost (s : State) : State := { s with host := s.host.tail }

/-- Placing a command word as an accepted START of the host would (R34, R38), the block's turn next
(log 2). -/
def placeCommand (s : State) (c : CmdWord) : State :=
  startCommand { s with
    regs := { s.regs with cmd0 := c.extractLsb' 0 32, cmd1 := c.extractLsb' 32 32 }
    host := .blockTurn :: s.host }

end Sys2Proof.Machine
end

