-- ==== Sys2Proof/Machine/Step.lean ====
section
/-! DEFINITION. One step of the machine: the next host access, reset or block turn (log 1). -/

namespace Sys2Proof.Machine

/-- One step (70_reset_and_hazards.md R274: each access is one atomic step; 20_memory.md R95: a command is one
atomic transition at completion). -/
def step (s : State) : Host.Outcome State Fault Refusal := act (nextAct s) s.popHost

/-- The state whose very next step runs the command word w: this machine fetches nothing, so the word is
placed in CMD0 and CMD1 and started, and the block has its turn (log 2). Bits from nbits on are 0. -/
def State.withFetchWord (s : State) (nbits w : Nat) : State :=
  placeCommand s (BitVec.ofNat 64 (w % 2 ^ nbits))

end Sys2Proof.Machine
end

