-- ==== Sys2Proof/Safety.lean ====
section
/-! DEFINITION. What a sound state and a well-behaved host are, in the terms the statements use. -/

namespace Sys2Proof.Machine

/-- What holds in every state the machine reaches from a sound one. -/
structure State.Inv (s : State) : Prop where
  /-- The parameters are ones R10 allows. -/
  params : s.params.legal
  /-- The data memory is in its canonical form. -/
  memWf : Memory.wf s.mem
  /-- The data memory lists no address at or above MEMSIZE (R80). -/
  memBound : ∀ c ∈ s.mem, c.1 < s.params.memSize
  /-- While BUSY the latch equals the registers (R57). -/
  latched : s.status.busy = true → s.latch = s.regs
  /-- While BUSY: DONE, ERR and ERRCODE are 0 (R279). -/
  busyClean : s.status.busy = true →
    s.status.done = false ∧ s.status.err = false ∧ s.status.errCode = none
  /-- DONE comes with ERRCODE 0 (R245). -/
  doneClean : s.status.done = true → s.status.errCode = none
  /-- ERR comes with a code (R244). -/
  errCoded : s.status.err = true → s.status.errCode ≠ none
  /-- ERRINFO is 0 while ERRCODE is 0 (R242). -/
  infoZero : s.status.errCode = none → s.status.errInfo = 0
  /-- The host touches operands only of a running command (R96). -/
  touchedBusy : s.hostTouched = true → s.status.busy = true

/-- The access is one the model has a step for (R31, R80). -/
def HostAct.legal (p : Params) : HostAct → Bool
  | .regRead offset size => decide (accessLegal offset size)
  | .regWrite offset size _ => decide (accessLegal offset size)
  | .memRead addr => decide (addr.toNat < p.memSize)
  | .memWrite addr _ => decide (addr.toNat < p.memSize)
  | .reset => true
  | .blockTurn => true

/-- The access keeps the host's duty (R96): no write to an operand extent and no read of the
destination extent of the running command. -/
def HostAct.dutiful (s : State) : HostAct → Bool
  | .memRead addr => !s.inDest addr.toNat
  | .memWrite addr _ => !s.inOperand addr.toNat
  | _ => true

/-! ### When a command is legal, in the spec's words (60_exceptions.md R246 to R250) -/

/-- Steps 3 to 6 (R246): FMT, the configuration registers the command reads, R148 and R190. -/
def configLegal (p : Params) (l : CmdRegs) : Instr → Prop
  | .tmask _ _ pclass =>
      l.fmt.legal ∧ l.ttype.toNat ≤ 5 ∧
      (let qo := (if pclass then l.mtqc else l.mtql).toInt
       let ho := (if pclass then l.mthc else l.mthl).toInt
       (qo = -1 ∨ 0 ≤ qo ∧ qo ≤ l.fmt.peak) ∧ (ho = -1 ∨ 0 ≤ ho ∧ ho ≤ l.fmt.peak))
  | .mmask _ _ _ _ _ => l.fmt.legal
  | .mand _ _ _ => l.fmt.legal
  | .mcomb _ _ => l.fmt.legal
  | .tbuild _ cbase ccnt obase ocnt _ _ _ cfirst _ =>
      l.fmt.legal ∧ 6 ≤ l.length.toNat ∧ l.length.toNat ≤ p.lmax ∧ l.mtype ≠ 3 ∧
      3 ≤ ccnt ∧
      (cfirst = true → ccnt = ocnt ∨ ccnt = ocnt + 1) ∧
      (cfirst = false → ocnt = ccnt ∨ ocnt = ccnt + 1) ∧
      2 * l.length.toNat - 5 ≤ ccnt + ocnt ∧ cbase + ccnt ≤ nslots ∧ obase + ocnt ≤ nslots
  | .iscombed _ _ _ =>
      l.fmt.legal ∧ 2 ≤ l.icfg.bxlog2.toNat ∧ l.icfg.bxlog2.toNat ≤ 11 ∧
      2 ≤ l.icfg.bylog2.toNat ∧ l.icfg.bylog2.toNat ≤ 11

/-- The operand slots in the order of step 7, with the minimum sizes of R247. -/
def operandsOf (l : CmdRegs) : Instr → List Operand
  | .tmask src dst _ => [{ slot := src, minW := 2, minH := 2 }, { slot := dst }]
  | .mmask src1 msk1 src2 msk2 dst =>
      [{ slot := src1 }, { slot := msk1 }, { slot := src2 }, { slot := msk2 }, { slot := dst }]
  | .mand a b dst => [{ slot := a }, { slot := b }, { slot := dst }]
  | .mcomb src dst => [{ slot := src, minW := 2, minH := 4 }, { slot := dst }]
  | .tbuild dst cbase ccnt obase ocnt _ _ _ _ _ =>
      { slot := dst, minH := 2 } :: (maskSlots cbase ccnt obase ocnt).map fun m => { slot := m }
  | .iscombed ys us vs =>
      (if l.icfg.chroma then [ys, us, vs] else [ys]).map fun m =>
        { slot := m, minH := if l.icfg.metric then 2 else 4 }

/-- An operand passes the descriptor checks (R249, R247), `dst` the command's destination. -/
abbrev operandOk (p : Params) (l : CmdRegs) (dst : Option Nat) (o : Operand) : Prop :=
  (dst = some o.slot → (l.desc o.slot).zero = false) ∧
  1 ≤ l.w o.slot ∧ o.minW ≤ l.w o.slot ∧ 1 ≤ l.h o.slot ∧ o.minH ≤ l.h o.slot ∧
  ((l.desc o.slot).zero = false →
    l.w o.slot * l.fmt.bps ≤ (l.desc o.slot).stride.toNat ∧
    (l.fmt.bps = 2 →
      (l.desc o.slot).base.toNat % 2 = 0 ∧ (l.desc o.slot).stride.toNat % 2 = 0) ∧
    (l.desc o.slot).last l.fmt.bps ≤ p.memSize - 1)

/-- The shape requirements in the order of step 7 (R250): the slot ERRINFO names, and whether its
requirement holds. -/
def shapesOf (l : CmdRegs) : Instr → List (Nat × Bool)
  | .tmask src dst _ => [(dst, decide (l.isSize dst (l.w src) (2 * l.h src)))]
  | .mmask src1 msk1 src2 msk2 dst =>
      [(msk1, decide (l.isSize msk1 (l.w src1) (2 * l.h src1))),
       (src2, decide (l.isSize src2 (l.w src1) (l.h src1))),
       (msk2, decide (l.isSize msk2 (l.w src1) (2 * l.h src1))),
       (dst, decide (l.isSize dst (l.w src1) (2 * l.h src1)))]
  | .mand a b dst =>
      [(a, decide (l.h a % 2 = 0)), (b, decide (l.isSize b (l.w a) (l.h a))),
       (dst, decide (l.isSize dst (l.w a) (l.h a)))]
  | .mcomb src dst =>
      [(src, decide (l.h src % 2 = 0)), (dst, decide (l.isSize dst (l.w src) (l.h src / 2)))]
  | .tbuild dst cbase ccnt obase ocnt _ _ _ _ _ =>
      (maskSlots cbase ccnt obase ocnt).map fun m =>
        (m, decide (l.isSize m (l.w dst) (l.h dst)))
  | .iscombed ys us vs =>
      if l.icfg.chroma then
        let sw := l.fmt.ssw.toNat
        let sh := l.fmt.ssh.toNat
        [(ys, decide (l.w ys % 2 ^ sw = 0 ∧ l.h ys % 2 ^ sh = 0)),
         (us, decide (l.isSize us (l.w ys >>> sw) (l.h ys >>> sh))),
         (vs, decide (l.isSize vs (l.w ys >>> sw) (l.h ys >>> sh)))]
      else []

/-- MMASK and MAND accept a destination that is an exact alias of a source (R93). -/
def aliasAllowed : Instr → Bool
  | .mmask _ _ _ _ _ => true
  | .mand _ _ _ => true
  | .tmask _ _ _ => false
  | .mcomb _ _ => false
  | .tbuild _ _ _ _ _ _ _ _ _ _ => false
  | .iscombed _ _ _ => false

/-- The destination `dst` overlaps the source `src` and is no allowed exact alias of it (R93). -/
abbrev clashes (l : CmdRegs) (i : Instr) (dst src : Nat) : Prop :=
  (l.desc src).zero = false ∧
  ((l.desc dst).base.toNat ≤ (l.desc src).last l.fmt.bps ∧
    (l.desc src).base.toNat ≤ (l.desc dst).last l.fmt.bps) ∧
  ¬ (aliasAllowed i = true ∧ (l.desc dst).sameExtent (l.desc src))

/-- Step 10 (R211): the luma plane of ISCOMBED fits the scratch. -/
def sizeLegal (p : Params) (l : CmdRegs) : Instr → Prop
  | .iscombed ys _ _ => l.w ys ≤ p.wmax ∧ l.h ys ≤ p.hmax
  | .tmask _ _ _ => True
  | .mmask _ _ _ _ _ => True
  | .mand _ _ _ => True
  | .mcomb _ _ => True
  | .tbuild _ _ _ _ _ _ _ _ _ _ => True

/-- Every check of R246 on a decoded command passes. -/
structure CommandLegal (i : Instr) (s : State) : Prop where
  config : configLegal s.params s.latch i
  operands : ∀ o ∈ operandsOf s.latch i, operandOk s.params s.latch (destSlot i) o
  shapes : ∀ q ∈ shapesOf s.latch i, q.2 = true
  overlap : ∀ dst ∈ destSlot i, ∀ src ∈ sourceSlots s.latch i, ¬ clashes s.latch i dst src
  size : sizeLegal s.params s.latch i

end Sys2Proof.Machine
end

