-- ==== Sys2Proof/Certificates/Slice0/Obligations.lean ====
section
/-! DEFINITION. The statements for the provers, each about every state or operand it names; the rule of spec/ it
formalises stands in its docstring and in OBLIGATIONS.json. -/

open Sys2Proof Sys2Proof.Machine

namespace Sys2Proof.Machine.Claim

/-! ### Words the statements share -/

/-- A running command as every run has it: BUSY, and DONE, ERR, ERRCODE and ERRINFO 0 (R279). -/
abbrev clean (s : State) : Prop :=
  s.status.busy = true ∧ s.status.done = false ∧ s.status.err = false ∧
    s.status.errCode = none ∧ s.status.errInfo = 0

/-- The block has its turn and a command is running. -/
abbrev blockRuns (s : State) : Prop := nextAct s = .blockTurn ∧ s.status.busy = true

/-- The state after a failure (R244); `hostTouched` is the model's own note about the command just ended. -/
abbrev failedWith (s : State) (code : ErrCode) (info : Nat) : State :=
  { s with
    hostTouched := false
    status := { s.status with
      busy := false, err := true, errCode := some code, errInfo := BitVec.ofNat 32 info } }

/-- STATUS after a success (R245). -/
abbrev finished (s t : State) : Prop :=
  t.status = { s.status with busy := false, done := true }

/-- The host kept its duty (R96) and the memory is in its canonical form. -/
abbrev undisturbed (s : State) : Prop := s.hostTouched = false ∧ Memory.wf s.mem

/-- The address is a byte of no sample of the slot. -/
abbrev outsideSamples (s : State) (slot a : Nat) : Prop :=
  ∀ y < s.latch.h slot, ∀ x < s.latch.w slot, ∀ k < s.latch.fmt.bps,
    a ≠ (s.latch.desc slot).addr s.latch.fmt.bps y x + k

/-- A reserved bit of a format whose last field ends below bit `top` (R112). -/
abbrev reserved (top k : Nat) : Prop := 4 ≤ k ∧ k ≤ 7 ∨ top ≤ k

/-- Opcode and first bit above the last field (R116 to R121). -/
abbrev formats : List (Nat × Nat) := [(1, 21), (2, 38), (3, 26), (4, 20), (5, 43), (6, 26)]

/-- N(d, e): the border read at row offset d, column offset e (R141). -/
abbrev neighbour (s : State) (src y x : Nat) (d e : Int) : Nat :=
  s.sampleAt src (rrow y d (s.latch.h src)) (mirror (x + e) (s.latch.w src))

/-- The normalised deviation of v from the centre c by a shift k (R142, R144). -/
abbrev deviation (c v k : Nat) : Nat :=
  (((c : Int) - (v : Int)).natAbs + (if k = 0 then 0 else 2 ^ (k - 1))) / 2 ^ k

/-- The least of the 4 neighbours (R143). -/
abbrev least4 (n : Int → Int → Nat) : Nat := min (min (n (-1) 0) (n 1 0)) (min (n 0 (-1)) (n 0 1))

/-- The greatest of the 4 neighbours. -/
abbrev greatest4 (n : Int → Int → Nat) : Nat :=
  max (max (n (-1) 0) (n 1 0)) (max (n 0 (-1)) (n 0 1))

/-- The least of the 8 neighbours (R143). -/
abbrev least8 (n : Int → Int → Nat) : Nat :=
  min (least4 n) (min (min (n (-1) (-1)) (n (-1) 1)) (min (n 1 (-1)) (n 1 1)))

/-- The greatest of the 8 neighbours. -/
abbrev greatest8 (n : Int → Int → Nat) : Nat :=
  max (greatest4 n) (max (max (n (-1) (-1)) (n (-1) 1)) (max (n 1 (-1)) (n 1 1)))

/-- The eight neighbour offsets of MCOMB's pseudocode (R175). -/
abbrev eightOffsets : List (Int × Int) :=
  [(-1, -1), (-1, 0), (-1, 1), (0, -1), (0, 1), (1, -1), (1, 0), (1, 1)]

/-- GVLUT(m, L, i) as a number: entry i of the row for LENGTH L, the rows starting at LENGTH 6 (R187). -/
abbrev gvlutEntry (t : RomSet) (len i : Nat) : BitVec 6 :=
  let entry := t.gvlut[len - 6]?.bind fun row => row[i]?
  if entry = some .one then 1 else if entry = some .two then 2 else 4

/-- VLUT(m, val) (R186). -/
abbrev vlutEntry (t : RomSet) (val : BitVec 6) : BitVec 2 := t.vlut[val.toNat]'val.isLt

/-- val after steps 0 to n-1 of TBUILD's scan with no early exit (R185, R193). -/
abbrev valAfter (t : RomSet) (len : Nat) (p0 p1 : List Nat) (n : Nat) : BitVec 6 :=
  (List.range n).foldl (init := 0) fun v i =>
    v ||| (if ∀ k < len - 4, p0.getD (i + k) 0 ≠ 0 then gvlutEntry t len i <<< 3 else 0) |||
      (if ∀ k < len - 4, p1.getD (i + k) 0 ≠ 0 then gvlutEntry t len i else 0)

/-- The OR of (GVLUT << 3) | GVLUT over steps 0 to n-1 (R197). -/
abbrev allSetVal (t : RomSet) (len n : Nat) : BitVec 6 :=
  (List.range n).foldl (init := 0) fun v i => v ||| (gvlutEntry t len i <<< 3 ||| gvlutEntry t len i)

/-- The counts fit CFIRST (R190 constraint 2). -/
abbrev countsFit (cfirst : Bool) (ccnt ocnt : Nat) : Prop :=
  (cfirst = true → ccnt = ocnt ∨ ccnt = ocnt + 1) ∧
    (cfirst = false → ocnt = ccnt ∨ ocnt = ccnt + 1)

/-- COMBED(P, y, x) of a slot of the running ISCOMBED (R212 to R214). -/
abbrev slotCombed (s : State) (slot y x : Nat) : Prop :=
  combedAt (s.sampleAt slot) (s.latch.h slot) s.latch.icfg.metric s.latch.cthresh.toInt y x = true

/-- hit(P) of R216 at chroma row y, column x: combed, with a combed neighbour. -/
abbrev slotChromaHit (s : State) (slot y x : Nat) : Prop :=
  slotCombed s slot y x ∧
    ∃ y' x', y - 1 ≤ y' ∧ y' ≤ y + 1 ∧ x - 1 ≤ x' ∧ x' ≤ x + 1 ∧ ¬ (y' = y ∧ x' = x) ∧
      slotCombed s slot y' x'

/-- The pixel is a hit of bitmap b (R217). -/
abbrev pixelHit (b : Bitmap) (h y x : Nat) : Prop :=
  1 ≤ y ∧ y ≤ h - 2 ∧ b.bit (y - 1) x = true ∧ b.bit y x = true ∧ b.bit (y + 1) x = true

/-- How many hits of a w x h bitmap fall into cell (column c, row r) of grid k (R218). -/
abbrev cellHits (b : Bitmap) (w h bxl byl k r c : Nat) : Nat :=
  let ox := if k = 1 ∨ k = 3 then 2 ^ bxl / 2 else 0
  let oy := if k = 2 ∨ k = 3 then 2 ^ byl / 2 else 0
  ((List.range h).flatMap fun y => (List.range w).map fun x => (y, x)).countP fun p =>
    decide (pixelHit b h p.1 p.2 ∧ (p.1 + oy) >>> byl = r ∧ (p.2 + ox) >>> bxl = c)

/-- The column x of a slot is non-decreasing or non-increasing in y. -/
abbrev columnMonotone (s : State) (slot x : Nat) : Prop :=
  (∀ y, y + 1 < s.latch.h slot → s.sampleAt slot y x ≤ s.sampleAt slot (y + 1) x) ∨
    (∀ y, y + 1 < s.latch.h slot → s.sampleAt slot (y + 1) x ≤ s.sampleAt slot y x)

/-- The bits a host write sets at an offset other than STATUS (R59); START reads 0. -/
def writableMask (offset : Nat) : Word :=
  if offset = 0x004 then 0x6
  else if offset = 0x010 ∨ offset = 0x014 then 0xFFFFFFFF
  else if offset = 0x020 then 0x331F
  else if offset = 0x024 then 0x7
  else if offset = 0x04C then 0x3
  else if offset = 0x058 then 0xFF03
  else if 0x028 ≤ offset ∧ offset ≤ 0x054 then 0xFFFFFFFF
  else if 0x100 ≤ offset ∧ offset ≤ 0x4FF then (if offset % 16 = 12 then 0x1 else 0xFFFFFFFF)
  else 0

/-- Every value of the last failure, and the number STATUS.ERRCODE shows for it (R241). -/
abbrev codeNumbers : List (Option ErrCode × Byte) :=
  [(none, 0x00), (some .eOpc, 0x01), (some .eRsvd, 0x02), (some .eFmt, 0x03), (some .eCfg, 0x04),
    (some .ePlaneOff, 0x05), (some .eDesc, 0x06), (some .eShape, 0x07), (some .eOverlap, 0x08),
    (some .eCount, 0x09), (some .eSize, 0x0A)]

/-- Each register outside the descriptor table but STATUS, and what a read of it returns, the highest field
first (R59). -/
abbrev fixedReads (s : State) : List (BitVec 12 × Word) :=
  [(0x000, 0x544D4431),
    (0x004, 0#29 ++ BitVec.ofBool s.ctrl.ieErr ++ BitVec.ofBool s.ctrl.ieDone ++ 0#1),
    (0x00C, s.status.errInfo), (0x010, s.regs.cmd0), (0x014, s.regs.cmd1), (0x018, s.result.score),
    (0x01C, 0#31 ++ BitVec.ofBool s.result.combed),
    (0x020, 0#18 ++ s.regs.fmt.ssh ++ 0#2 ++ s.regs.fmt.ssw ++ 0#3 ++ s.regs.fmt.bitdepth),
    (0x024, 0#29 ++ s.regs.ttype), (0x028, s.regs.mtql), (0x02C, s.regs.mthl), (0x030, s.regs.mtqc),
    (0x034, s.regs.mthc), (0x038, s.regs.nt), (0x03C, s.regs.minThresh), (0x040, s.regs.maxThresh),
    (0x044, s.regs.cstr), (0x048, s.regs.length), (0x04C, 0#30 ++ s.regs.mtype),
    (0x050, s.regs.cthresh), (0x054, s.regs.mi),
    (0x058, 0#16 ++ s.regs.icfg.bylog2 ++ s.regs.icfg.bxlog2 ++ 0#6 ++
      BitVec.ofBool s.regs.icfg.chroma ++ BitVec.ofBool s.regs.icfg.metric),
    (0x05C, 0#16 ++ 64#8 ++ BitVec.ofNat 8 s.params.lmax),
    (0x060, BitVec.ofNat 16 s.params.hmax ++ BitVec.ofNat 16 s.params.wmax)]

/-- The four registers of a descriptor slot and what a read of each returns (R50 to R53). -/
abbrev slotReads (s : State) (n : Fin 64) : List (BitVec 12 × Word) :=
  let d := s.regs.descs[n]
  let at16 := 0x100 + 16 * n.val
  [(BitVec.ofNat 12 at16, d.base), (BitVec.ofNat 12 (at16 + 4), d.stride),
    (BitVec.ofNat 12 (at16 + 8), d.height ++ d.width),
    (BitVec.ofNat 12 (at16 + 12), 0#31 ++ BitVec.ofBool d.zero)]

/-- The address is in an operand extent of the running command (R96). -/
abbrev inRunningOperand (s : State) (a : Nat) : Prop :=
  s.status.busy = true ∧ ∃ i slot, decode s.latch.word = .ok i ∧
    (destSlot i = some slot ∨ slot ∈ sourceSlots s.latch i) ∧
    (s.latch.desc slot).covers s.latch.fmt.bps a

/-- The offset is in the register map (R59). -/
abbrev listed (offset : Nat) : Prop := offset ≤ 0x060 ∨ 0x100 ≤ offset ∧ offset ≤ 0x4FF

/-- The reset value of the register at an offset, 0 for an offset not listed (R270, R32), CAP0 and CAP1
from the parameters. -/
def resetWord (p : Params) (offset : Nat) : Word :=
  if offset = 0x000 then 0x544D4431
  else if offset = 0x020 then 0x00000008
  else if offset = 0x028 ∨ offset = 0x02C ∨ offset = 0x030 ∨ offset = 0x034 then 0xFFFFFFFF
  else if offset = 0x058 then 0x00004400
  else if offset = 0x05C then BitVec.ofNat 32 (0x40 * 2 ^ 8 + p.lmax)
  else if offset = 0x060 then BitVec.ofNat 32 (p.hmax * 2 ^ 16 + p.wmax)
  else 0

end Sys2Proof.Machine.Claim

open Sys2Proof.Machine.Claim

/-! ### Encoding (30_encoding.md) -/

/-- Every well-formed command is what its word decodes to (R110 to R121). -/
def Obligations.EncodeThenDecode : Prop :=
  ∀ i : Instr, i.wellFormed = true → decode (encode i) = .ok i

/-- A word that decodes is the one word of its command, and the command is well-formed (R112, R123). -/
def Obligations.DecodeThenEncode : Prop :=
  ∀ (c : CmdWord) (i : Instr), decode c = .ok i → i.wellFormed = true ∧ encode i = c

/-- Words written out in 95_test_vectors.md decode to their commands. -/
def Obligations.SpecWordsDecode : Prop :=
  decode 0x0000000000104001 = .ok (.tmask 0 1 true) ∧
  decode 0x000000010C204002 = .ok (.mmask 0 1 2 3 1) ∧
  decode 0x0000000000204003 = .ok (.mand 0 1 2) ∧
  decode 0x0000000000024804 = .ok (.mcomb 8 9) ∧
  decode 0x0000070328401405 = .ok (.tbuild 20 0 4 10 3 false false true true true) ∧
  decode 0x0000000000204006 = .ok (.iscombed 0 1 2)

/-- The block's turn runs the command the latched word decodes to, its list entry taken (R30, R110). -/
def Obligations.StepRunsDecodedCommand : Prop :=
  ∀ (s : State) (i : Instr), blockRuns s → decode (s.latch.cmd1 ++ s.latch.cmd0) = .ok i →
    step s = exec i { s with host := s.host.tail }

/-- OPC 0x0 and 0x7 to 0xF fail with E_OPC and ERRINFO = OPC, whatever else holds (R122). -/
def Obligations.IllegalOpcodeFails : Prop :=
  ∀ s : State, blockRuns s →
    let opc := bitsAt (s.latch.cmd1 ++ s.latch.cmd0) 0 4
    (opc = 0 ∨ 7 ≤ opc) → step s = .next (failedWith s.popHost .eOpc opc)

/-- A legal opcode with a reserved bit set fails with E_RSVD, ERRINFO the lowest such bit (R112, R241). -/
def Obligations.ReservedBitFails : Prop :=
  ∀ (s : State) (opc top k : Nat), blockRuns s → (opc, top) ∈ formats →
    bitsAt (s.latch.cmd1 ++ s.latch.cmd0) 0 4 = opc →
    k < 64 → reserved top k → (s.latch.cmd1 ++ s.latch.cmd0).getLsbD k = true →
    (∀ j < k, reserved top j → (s.latch.cmd1 ++ s.latch.cmd0).getLsbD j = false) →
    step s = .next (failedWith s.popHost .eRsvd k)

/-! ### Completion and failure (60_exceptions.md) -/

/-- Every command completes: BUSY 0 and exactly one of DONE, with no code, or ERR, with one (R30, R240, R242). -/
def Obligations.CommandEndsDoneOrErr : Prop :=
  ∀ (i : Instr) (s : State), clean s → ∃ t, exec i s = .next t ∧ t.status.busy = false ∧
    (t.status.done = true ∧ t.status.err = false ∧ t.status.errCode = none ∧
        t.status.errInfo = 0 ∨
      t.status.done = false ∧ t.status.err = true ∧ t.status.errCode ≠ none)

/-- A command succeeds exactly when every check of R246 passes (R240, R246, R247, R249, R250, R93, R211). -/
def Obligations.CommandSucceedsIffLegal : Prop :=
  ∀ (i : Instr) (s : State), clean s →
    ((∃ t, exec i s = .next t ∧ t.status.done = true) ↔ CommandLegal i s)

/-- An illegal FMT fails every command with E_FMT before any other check of a decoded command (R39, R246). -/
def Obligations.IllegalFmtFails : Prop :=
  ∀ (i : Instr) (s : State),
    ¬ (8 ≤ s.latch.fmt.bitdepth.toNat ∧ s.latch.fmt.bitdepth.toNat ≤ 16 ∧
        s.latch.fmt.ssw ≠ 3 ∧ s.latch.fmt.ssh ≠ 3) →
    exec i s = .next (failedWith s .eFmt 0x20)

/-- TMASK: an illegal TTYPE, then the first illegal override register, then the first register holding -2
(R40, R148). -/
def Obligations.TmaskConfigFailures : Prop :=
  ∀ (src dst : Nat) (pclass : Bool) (s : State), s.latch.fmt.legal →
    let q := (if pclass then s.latch.mtqc else s.latch.mtql).toInt
    let h := (if pclass then s.latch.mthc else s.latch.mthl).toInt
    let qOff := if pclass then 0x30 else 0x28
    let hOff := if pclass then 0x34 else 0x2C
    let ok := fun v : Int =>
      v = -2 ∨ v = -1 ∨ 0 ≤ v ∧ v ≤ ((2 ^ s.latch.fmt.bitdepth.toNat - 1 : Nat) : Int)
    let run := exec (.tmask src dst pclass) s
    (5 < s.latch.ttype.toNat → run = .next (failedWith s .eCfg 0x24)) ∧
    (s.latch.ttype.toNat ≤ 5 → ¬ ok q → run = .next (failedWith s .eCfg qOff)) ∧
    (s.latch.ttype.toNat ≤ 5 → ok q → ¬ ok h → run = .next (failedWith s .eCfg hOff)) ∧
    (s.latch.ttype.toNat ≤ 5 → ok q → ok h → q = -2 →
      run = .next (failedWith s .ePlaneOff qOff)) ∧
    (s.latch.ttype.toNat ≤ 5 → ok q → ok h → q ≠ -2 → h = -2 →
      run = .next (failedWith s .ePlaneOff hOff))

/-- TBUILD: LENGTH, then MTYPE, then the first violated count constraint (R45, R47, R190). -/
def Obligations.TbuildConfigFailures : Prop :=
  ∀ (dst cbase ccnt obase ocnt : Nat) (order field rowpar cfirst wother : Bool) (s : State),
    s.latch.fmt.legal →
    let run := exec (.tbuild dst cbase ccnt obase ocnt order field rowpar cfirst wother) s
    let len := s.latch.length.toNat
    let lenOk := 6 ≤ len ∧ len ≤ s.params.lmax
    (¬ lenOk → run = .next (failedWith s .eCfg 0x48)) ∧
    (lenOk → s.latch.mtype = 3 → run = .next (failedWith s .eCfg 0x4C)) ∧
    (lenOk → s.latch.mtype ≠ 3 →
      (ccnt < 3 → run = .next (failedWith s .eCount 1)) ∧
      (3 ≤ ccnt → ¬ countsFit cfirst ccnt ocnt → run = .next (failedWith s .eCount 2)) ∧
      (3 ≤ ccnt → countsFit cfirst ccnt ocnt → ccnt + ocnt < 2 * len - 5 →
        run = .next (failedWith s .eCount 3)) ∧
      (3 ≤ ccnt → countsFit cfirst ccnt ocnt → 2 * len - 5 ≤ ccnt + ocnt → 64 < cbase + ccnt →
        run = .next (failedWith s .eCount 4)) ∧
      (3 ≤ ccnt → countsFit cfirst ccnt ocnt → 2 * len - 5 ≤ ccnt + ocnt → cbase + ccnt ≤ 64 →
        64 < obase + ocnt → run = .next (failedWith s .eCount 5)))

/-- ISCOMBED: an illegal block size fails with E_CFG right after FMT; a luma plane over the scratch fails
with E_SIZE when every other check passes (R48, R211, R246). -/
def Obligations.IscombedBlockAndSizeFailures : Prop :=
  ∀ (ys us vs : Nat) (s : State), s.latch.fmt.legal →
    let i := Instr.iscombed ys us vs
    let blockOk := 2 ≤ s.latch.icfg.bxlog2.toNat ∧ s.latch.icfg.bxlog2.toNat ≤ 11 ∧
      2 ≤ s.latch.icfg.bylog2.toNat ∧ s.latch.icfg.bylog2.toNat ≤ 11
    (¬ blockOk → exec i s = .next (failedWith s .eCfg 0x58)) ∧
    (blockOk →
      (∀ o ∈ operandsOf s.latch i, operandOk s.params s.latch none o) →
      (∀ q ∈ shapesOf s.latch i, q.2 = true) →
      (s.params.wmax < s.latch.w ys ∨ s.params.hmax < s.latch.h ys) →
      exec i s = .next (failedWith s .eSize ys))

/-- With a legal configuration, the first operand that fails a descriptor check or its minimum size decides:
E_DESC, ERRINFO its slot (R246 step 7, R247, R249). -/
def Obligations.DescriptorFailureNamesFirstSlot : Prop :=
  ∀ (i : Instr) (s : State) (pre post : List Operand) (o : Operand),
    configLegal s.params s.latch i → operandsOf s.latch i = pre ++ o :: post →
    (∀ p ∈ pre, operandOk s.params s.latch (destSlot i) p) →
    ¬ operandOk s.params s.latch (destSlot i) o →
    exec i s = .next (failedWith s .eDesc o.slot)

/-- With legal operands, the first shape that disagrees decides: E_SHAPE, ERRINFO its slot (R246 step 8, R250). -/
def Obligations.ShapeFailureNamesFirstSlot : Prop :=
  ∀ (i : Instr) (s : State) (pre post : List (Nat × Bool)) (slot : Nat),
    configLegal s.params s.latch i →
    (∀ o ∈ operandsOf s.latch i, operandOk s.params s.latch (destSlot i) o) →
    shapesOf s.latch i = pre ++ (slot, false) :: post → (∀ q ∈ pre, q.2 = true) →
    exec i s = .next (failedWith s .eShape slot)

/-- With legal operands and shapes, the first source the destination overlaps decides: E_OVERLAP, ERRINFO
(destination << 8) or source (R246 step 9, R93). -/
def Obligations.OverlapFailureNamesFirstSource : Prop :=
  ∀ (i : Instr) (s : State) (dst src : Nat) (pre post : List Nat),
    configLegal s.params s.latch i →
    (∀ o ∈ operandsOf s.latch i, operandOk s.params s.latch (destSlot i) o) →
    (∀ q ∈ shapesOf s.latch i, q.2 = true) →
    destSlot i = some dst → sourceSlots s.latch i = pre ++ src :: post →
    (∀ p ∈ pre, ¬ clashes s.latch i dst p) → clashes s.latch i dst src →
    exec i s = .next (failedWith s .eOverlap (dst <<< 8 ||| src))

/-- A failed command changes STATUS and ERRINFO only: ERR 1, DONE as it was, BUSY 0, its code and information
(R243, R244, R248). -/
def Obligations.FailureChangesOnlyStatus : Prop :=
  ∀ (i : Instr) (s t : State), clean s → exec i s = .next t → t.status.done = false →
    ∃ (code : ErrCode) (info : Word), t =
      { s with
        hostTouched := false
        status := { s.status with
          busy := false, err := true, errCode := some code, errInfo := info } }

/-! ### Frames -/

/-- TMASK, MMASK, MAND, MCOMB and TBUILD change STATUS, ERRINFO and bytes of destination samples, and of the
spec's state nothing else (R92, R244, R245; `freeCtr` and `hostTouched` are the model's own). -/
def Obligations.PlaneCommandFrame : Prop :=
  ∀ (i : Instr) (s t : State) (dst : Nat), destSlot i = some dst → exec i s = .next t →
    t.regs = s.regs ∧ t.latch = s.latch ∧ t.ctrl = s.ctrl ∧ t.result = s.result ∧
    t.scratch = s.scratch ∧ t.rom = s.rom ∧ t.params = s.params ∧ t.host = s.host ∧
    t.busData = s.busData ∧ t.status.wbusy = s.status.wbusy ∧
    ∀ a, outsideSamples s dst a → Memory.read t.mem a = Memory.read s.mem a

/-- ISCOMBED changes STATUS, ERRINFO, SCORE, RESULT and the hidden scratch, and of the spec's state nothing
else: no byte of memory (R210, R58). -/
def Obligations.IscombedFrame : Prop :=
  ∀ (ys us vs : Nat) (s t : State), exec (.iscombed ys us vs) s = .next t →
    t.regs = s.regs ∧ t.latch = s.latch ∧ t.ctrl = s.ctrl ∧ t.mem = s.mem ∧ t.rom = s.rom ∧
    t.params = s.params ∧ t.host = s.host ∧ t.busData = s.busData ∧
    t.status.wbusy = s.status.wbusy ∧
    (t.status.done = false → t.result = s.result ∧ t.scratch = s.scratch)

/-! ### Samples (20_memory.md) -/

/-- A sample is the little-endian number in the BPS bytes at D_BASE + y * D_STRIDE + x * BPS, 0 for a ZERO slot;
and the slot's dimensions, BPS and LAST (R83, R85, R87; R9, R91). -/
def Obligations.SampleReadsStoredBytes : Prop :=
  ∀ (s : State) (slot : Fin 64) (y x : Nat),
    let d := s.latch.descs[slot]
    let bps := if s.latch.fmt.bitdepth = 8 then 1 else 2
    let a := d.base.toNat + y * d.stride.toNat + x * bps
    let byte := fun k => (Memory.read s.mem k).toNat
    (d.zero = true → s.sampleAt slot y x = 0) ∧
    (d.zero = false →
      s.sampleAt slot y x = if bps = 1 then byte a else byte a + 256 * byte (a + 1)) ∧
    s.latch.desc slot = d ∧ s.latch.w slot = d.width.toNat ∧ s.latch.h slot = d.height.toNat ∧
    s.latch.fmt.bps = bps ∧ d.addr bps y x = a ∧
    d.last bps = d.base.toNat + (d.height.toNat - 1) * d.stride.toNat + d.width.toNat * bps - 1

/-- A border read reflects: the columns -1 to W of a plane with W >= 2, and the rows at offsets that its minimum
height allows, land inside the plane as R88 and R89 say (R88, R89, R247). -/
def Obligations.BorderReadsReflect : Prop :=
  (∀ (c : Int) (w : Nat), 2 ≤ w → -1 ≤ c → c ≤ w →
    mirror c w < w ∧
    (mirror c w : Int) = if c < 0 then -c else if c > w - 1 then 2 * (w - 1) - c else c) ∧
  (∀ (y h : Nat) (d : Int), y < h → d.natAbs ≤ 1 ∧ 2 ≤ h ∨ d.natAbs ≤ 2 ∧ 4 ≤ h →
    rrow y d h < h ∧ (rrow y d h : Int) = if 0 ≤ y + d ∧ y + d < h then y + d else y - d) ∧
  ∀ (s : State) (slot y x : Nat) (d e : Int),
    borderRead (s.sampleAt slot) (s.latch.w slot) (s.latch.h slot) y x d e =
      s.sampleAt slot (rrow y d (s.latch.h slot)) (mirror (x + e) (s.latch.w slot))

/-! ### TMASK (40_threshold_mask.md) -/

/-- A legal TMASK completes and writes the quarter and half thresholds (R140, R147, R149). -/
def Obligations.TmaskWritesThresholds : Prop :=
  ∀ (src dst : Nat) (pclass : Bool) (s : State), CommandLegal (.tmask src dst pclass) s →
    undisturbed s →
    let qo := (if pclass then s.latch.mtqc else s.latch.mtql).toInt
    let ho := (if pclass then s.latch.mthc else s.latch.mthl).toInt
    ∃ t, exec (.tmask src dst pclass) s = .next t ∧ finished s t ∧
      ∀ y < s.latch.h src, ∀ x < s.latch.w src,
        let a := tmaskAtmax s src pclass y x
        t.sampleAt dst y x = (if 0 ≤ qo then qo.toNat else (a + 2) / 4) ∧
        t.sampleAt dst (s.latch.h src + y) x = (if 0 ≤ ho then ho.toNat else (a + 1) / 2)

/-- TTYPE 0 and 1 with the default shifts: vertical and horizontal groups, each normalised by its shift
(R141, R142, R144). -/
def Obligations.TmaskCompensatedModes : Prop :=
  ∀ (src : Nat) (pclass : Bool) (s : State) (y x : Nat),
    s.params.tmHShift = ⟨none, none⟩ → s.params.tmVShift = ⟨none, none⟩ →
    let n := neighbour s src y x
    let hs := if pclass then s.latch.fmt.ssw.toNat else 0
    let vs := if pclass then 1 + s.latch.fmt.ssh.toNat else 1
    let dev := deviation (n 0 0)
    let horizontal := max (dev (min (n 0 (-1)) (n 0 1)) hs) (dev (max (n 0 (-1)) (n 0 1)) hs)
    let lo6 := min (min (min (n (-1) (-1)) (n (-1) 0)) (n (-1) 1))
      (min (min (n 1 (-1)) (n 1 0)) (n 1 1))
    let hi6 := max (max (max (n (-1) (-1)) (n (-1) 0)) (n (-1) 1))
      (max (max (n 1 (-1)) (n 1 0)) (n 1 1))
    (s.latch.ttype = 0 → tmaskAtmax s src pclass y x =
      max (max (dev (min (n (-1) 0) (n 1 0)) vs) (dev (max (n (-1) 0) (n 1 0)) vs)) horizontal) ∧
    (s.latch.ttype = 1 → tmaskAtmax s src pclass y x =
      max (max (dev lo6 vs) (dev hi6 vs)) horizontal)

/-- TTYPE 2 and 3 with the default shift: the deviation from the least and the greatest of the 4 or 8 neighbours
(R143, R145). -/
def Obligations.TmaskPlainModes : Prop :=
  ∀ (src : Nat) (pclass : Bool) (s : State) (y x : Nat),
    s.params.tmHShift = ⟨none, none⟩ → s.params.tmPlainShift = ⟨none, none⟩ →
    let n := neighbour s src y x
    let hs := if pclass then s.latch.fmt.ssw.toNat else 0
    let dev := deviation (n 0 0)
    (s.latch.ttype = 2 → tmaskAtmax s src pclass y x = max (dev (least4 n) hs) (dev (greatest4 n) hs)) ∧
    (s.latch.ttype = 3 → tmaskAtmax s src pclass y x = max (dev (least8 n) hs) (dev (greatest8 n) hs))

/-- TTYPE 4 and 5: the range of the 4 or 8 neighbours, with the centre in it when TM_RANGE_CENTER is 1, unshifted
(R143, R146). -/
def Obligations.TmaskRangeModes : Prop :=
  ∀ (src : Nat) (pclass : Bool) (s : State) (y x : Nat),
    let n := neighbour s src y x
    let range := fun lo hi : Nat =>
      if s.params.tmRangeCenter then max (n 0 0) hi - min (n 0 0) lo else hi - lo
    (s.latch.ttype = 4 → tmaskAtmax s src pclass y x = range (least4 n) (greatest4 n)) ∧
    (s.latch.ttype = 5 → tmaskAtmax s src pclass y x = range (least8 n) (greatest8 n))

/-- With both overrides set, the destination is the constant fill whatever the source holds (R150). -/
def Obligations.TmaskConstantFill : Prop :=
  ∀ (src dst : Nat) (pclass : Bool) (s : State), CommandLegal (.tmask src dst pclass) s →
    undisturbed s →
    let qo := (if pclass then s.latch.mtqc else s.latch.mtql).toInt
    let ho := (if pclass then s.latch.mthc else s.latch.mthl).toInt
    0 ≤ qo → 0 ≤ ho →
    ∃ t, exec (.tmask src dst pclass) s = .next t ∧ finished s t ∧
      ∀ r < s.latch.h dst, ∀ x < s.latch.w dst,
        (t.sampleAt dst r x : Int) = if r < s.latch.h src then qo else ho

/-- For samples in range ATMAX is at most PEAK, whatever the shift parameters (R140). -/
def Obligations.TmaskAtmaxAtMostPeak : Prop :=
  ∀ (src : Nat) (pclass : Bool) (s : State), 2 ≤ s.latch.w src → 2 ≤ s.latch.h src →
    (∀ y < s.latch.h src, ∀ x < s.latch.w src, s.sampleAt src y x ≤ s.latch.fmt.peak) →
    ∀ y < s.latch.h src, ∀ x < s.latch.w src,
      tmaskAtmax s src pclass y x ≤ s.latch.fmt.peak

/-! ### MMASK (41_motion_mask.md) -/

/-- A legal MMASK completes and writes, per layer, PEAK where diff <= threshold and 0 elsewhere
(R161, R162). -/
def Obligations.MmaskWritesMatchFlags : Prop :=
  ∀ (src1 msk1 src2 msk2 dst : Nat) (s : State),
    CommandLegal (.mmask src1 msk1 src2 msk2 dst) s → undisturbed s →
    ∃ t, exec (.mmask src1 msk1 src2 msk2 dst) s = .next t ∧ finished s t ∧
      ∀ y < s.latch.h src1, ∀ x < s.latch.w src1, ∀ r ∈ [y, s.latch.h src1 + y],
        let diff := ((s.sampleAt src1 y x : Int) - (s.sampleAt src2 y x : Int)).natAbs
        let base := ((min (s.sampleAt msk1 r x) (s.sampleAt msk2 r x) : Nat) : Int)
        let threshold := min (max (base + s.latch.nt.toInt) s.latch.minThresh.toInt)
          s.latch.maxThresh.toInt
        t.sampleAt dst r x =
          if (diff : Int) ≤ threshold then 2 ^ s.latch.fmt.bitdepth.toNat - 1 else 0

/-- Swapping (SRC1, MSK1) with (SRC2, MSK2) leaves the outcome unchanged (R163). -/
def Obligations.MmaskSymmetric : Prop :=
  ∀ (src1 msk1 src2 msk2 dst : Nat) (s : State),
    CommandLegal (.mmask src1 msk1 src2 msk2 dst) s →
    exec (.mmask src1 msk1 src2 msk2 dst) s = exec (.mmask src2 msk2 src1 msk1 dst) s

/-! ### MAND and MCOMB (42_mask_fusion.md) -/

/-- A legal MAND completes and writes the bitwise AND of the stored values over both layers (R171). -/
def Obligations.MandWritesBitwiseAnd : Prop :=
  ∀ (a b dst : Nat) (s : State), CommandLegal (.mand a b dst) s → undisturbed s →
    ∃ t, exec (.mand a b dst) s = .next t ∧ finished s t ∧
      ∀ r < s.latch.h dst, ∀ x < s.latch.w dst,
        t.sampleAt dst r x = s.sampleAt a r x &&& s.sampleAt b r x

/-- MAND of two masks with equal contents writes that mask (R172). -/
def Obligations.MandIdempotent : Prop :=
  ∀ (a b dst : Nat) (s : State), CommandLegal (.mand a b dst) s → undisturbed s →
    (∀ r < s.latch.h a, ∀ x < s.latch.w a, s.sampleAt a r x = s.sampleAt b r x) →
    ∃ t, exec (.mand a b dst) s = .next t ∧
      ∀ r < s.latch.h a, ∀ x < s.latch.w a, t.sampleAt dst r x = s.sampleAt a r x

/-- A legal MCOMB completes; a pixel with quarter clear, half set and at least CSTR set neighbours gets PEAK,
every other its quarter sample (R176, R177, R178). -/
def Obligations.McombCopiesOrUpgrades : Prop :=
  ∀ (src dst : Nat) (s : State), CommandLegal (.mcomb src dst) s → undisturbed s →
    let h := s.latch.h src / 2
    let w := s.latch.w src
    ∃ t, exec (.mcomb src dst) s = .next t ∧ finished s t ∧
      ∀ y < h, ∀ x < w,
        let count := eightOffsets.countP fun o =>
          s.sampleAt src (rrow y o.1 h) (mirror (x + o.2) w) ≠ 0
        t.sampleAt dst y x =
          if s.sampleAt src y x = 0 ∧ s.sampleAt src (h + y) x ≠ 0 ∧ count ≥ s.latch.cstr.toNat then
            2 ^ s.latch.fmt.bitdepth.toNat - 1
          else s.sampleAt src y x

/-! ### TBUILD (43_temporal_mask_builder.md) -/

/-- A legal TBUILD completes; a row of the parity ROWPAR gets, per pixel, 60 when the central three current
entries are 0 and otherwise the code for the scan's val in the tables MTYPE selects; another row gets 10 or stays
(R186, R188, R192, R194). -/
def Obligations.TbuildWritesCodes : Prop :=
  ∀ (dst cbase ccnt obase ocnt : Nat) (order field rowpar cfirst wother : Bool) (s : State),
    CommandLegal (.tbuild dst cbase ccnt obase ocnt order field rowpar cfirst wother) s →
    undisturbed s →
    ∃ tables t, s.rom[s.latch.mtype.toNat]? = some tables ∧
      exec (.tbuild dst cbase ccnt obase ocnt order field rowpar cfirst wother) s = .next t ∧
      finished s t ∧
      ∀ y < s.latch.h dst, ∀ x < s.latch.w dst,
        let cur := fun j => s.sampleAt (cbase + j) y x
        let current := (List.range ccnt).map cur
        let opp := fun row => (List.range ocnt).map fun j => s.sampleAt (obase + j) row x
        let above := opp (rrow y (-1) (s.latch.h dst))
        let below := opp (rrow y 1 (s.latch.h dst))
        let val := scanVal tables s.latch.length.toNat (phaseArray cfirst current above)
          (phaseArray cfirst current below)
        let k := order.toNat * 8 + field.toNat * 4 + (vlutEntry tables val).toNat
        t.sampleAt dst y x =
          if y % 2 = rowpar.toNat then
            if cur (ccnt / 2 - 1) = 0 ∧ cur (ccnt / 2) = 0 ∧ cur (ccnt / 2 + 1) = 0 then 60
            else (tables.tmmlut16[k]?.getD 0).toNat
          else if wother then 10 else s.sampleAt dst y x

/-- Position 2j + offc of a phase array holds current entry j and position 2j + offo opposite entry j, and
together they fill it (R190, R191). -/
def Obligations.PhaseArrayPositions : Prop :=
  ∀ (cfirst : Bool) (cur opp : List Nat), countsFit cfirst cur.length opp.length →
    let offc := if cfirst then 0 else 1
    (phaseArray cfirst cur opp).length = cur.length + opp.length ∧
    (∀ j < cur.length, (phaseArray cfirst cur opp)[2 * j + offc]? = cur[j]?) ∧
    (∀ j < opp.length, (phaseArray cfirst cur opp)[2 * j + (1 - offc)]? = opp[j]?)

/-- The scan ends after the first step whose val has VLUT 2, and after step L-1 when none has; step i adds entry i
of GVLUT's row for LENGTH L, L from 6 to 34, the largest LMAX (R193, R187, R10). -/
def Obligations.ScanStopsAtFirstDefinite : Prop :=
  ∀ (t : RomSet) (len : Nat) (p0 p1 : List Nat), 6 ≤ len → len ≤ 34 →
    ∃ n, 1 ≤ n ∧ n ≤ len ∧ scanVal t len p0 p1 = valAfter t len p0 p1 n ∧
      (n = len ∨ vlutEntry t (valAfter t len p0 p1 n) = 2) ∧
      ∀ m, 1 ≤ m → m < n → vlutEntry t (valAfter t len p0 p1 m) ≠ 2

/-- With every current and opposite sample set the code is the table's entry for the OR of all weights up to
the step at which the scan ends, and the fast path does not fire (R197). -/
def Obligations.StaticSequenceCode : Prop :=
  ∀ (t : RomSet) (len : Nat) (order field cfirst : Bool) (cur above below : List Nat),
    6 ≤ len → len ≤ 34 → 3 ≤ cur.length → above.length = below.length →
    countsFit cfirst cur.length above.length → 2 * len - 5 ≤ cur.length + above.length →
    (∀ v ∈ cur ++ above ++ below, v ≠ 0) →
    ∃ n code, 1 ≤ n ∧ n ≤ len ∧
      t.tmmlut16[order.toNat * 8 + field.toNat * 4 + (vlutEntry t (allSetVal t len n)).toNat]? =
        some code ∧
      pixelCode t len order field cfirst cur above below = code.toNat ∧
      (n = len ∨ vlutEntry t (allSetVal t len n) = 2) ∧
      ∀ m, 1 ≤ m → m < n → vlutEntry t (allSetVal t len m) ≠ 2

/-! ### ISCOMBED (44_combing_scorer.md) -/

/-- A legal ISCOMBED completes; SCORE is the largest count of hits in a cell of the four grids, 0 when there
is no hit, and COMBED is SCORE > s32(MI) (R217, R218, R219). -/
def Obligations.IscombedScoresLargestCell : Prop :=
  ∀ (ys us vs : Nat) (s : State), CommandLegal (.iscombed ys us vs) s → s.hostTouched = false →
    let b := lumaBitmap s ys us vs
    let count := cellHits b (s.latch.w ys) (s.latch.h ys) s.latch.icfg.bxlog2.toNat
      s.latch.icfg.bylog2.toNat
    ∃ t, exec (.iscombed ys us vs) s = .next t ∧ finished s t ∧
      (∀ k < 4, ∀ r c, count k r c ≤ t.result.score.toNat) ∧
      (t.result.score = 0 ∨ ∃ k < 4, ∃ r c, count k r c = t.result.score.toNat) ∧
      (t.result.combed = true ↔ (t.result.score.toNat : Int) > s.latch.mi.toInt)

/-- SCORE is at most the pixels of one block (R218). -/
def Obligations.ScoreAtMostBlock : Prop :=
  ∀ (ys us vs : Nat) (s t : State), CommandLegal (.iscombed ys us vs) s → s.hostTouched = false →
    exec (.iscombed ys us vs) s = .next t →
    t.result.score.toNat ≤ 2 ^ s.latch.icfg.bxlog2.toNat * 2 ^ s.latch.icfg.bylog2.toNat

/-- A frame whose planes are monotone down every column scores 0 for CTHRESH >= 0, under both metrics (R222). -/
def Obligations.ProgressiveFrameScoresZero : Prop :=
  ∀ (ys us vs : Nat) (s : State), CommandLegal (.iscombed ys us vs) s → s.hostTouched = false →
    0 ≤ s.latch.cthresh.toInt →
    (∀ slot ∈ sourceSlots s.latch (.iscombed ys us vs), ∀ x < s.latch.w slot,
      columnMonotone s slot x) →
    ∃ t, exec (.iscombed ys us vs) s = .next t ∧ finished s t ∧ t.result.score = 0

/-- The luma bitmap: a bit is set iff its pixel is combed or, with CHROMA on, it lies in the block of an interior
chroma position that is hit in U or in V (R216, R215; the model follows the spec's general-knowledge form, log 17). -/
def Obligations.LumaBitmapPropagation : Prop :=
  ∀ (ys us vs : Nat) (s : State), CommandLegal (.iscombed ys us vs) s →
    ∀ y < s.latch.h ys, ∀ x < s.latch.w ys,
      ((lumaBitmap s ys us vs).bit y x = true ↔
        slotCombed s ys y x ∨
        (s.latch.icfg.chroma = true ∧ ∃ cy cx,
          1 ≤ cy ∧ cy + 2 ≤ s.latch.h us ∧ 1 ≤ cx ∧ cx + 2 ≤ s.latch.w us ∧
          (slotChromaHit s us cy cx ∨ slotChromaHit s vs cy cx) ∧
          ∃ i < 2 ^ s.latch.fmt.ssh.toNat, ∃ j < 2 ^ s.latch.fmt.ssw.toNat,
            y = cy * 2 ^ s.latch.fmt.ssh.toNat + i ∧ x = cx * 2 ^ s.latch.fmt.ssw.toNat + j))

/-- The two metrics over the rows of R212 (R213, R214; the second-derivative expression is the spec's general
knowledge, log 16). -/
def Obligations.CombedMetrics : Prop :=
  ∀ (s : State) (slot y x : Nat),
    let row := fun d : Int => (s.sampleAt slot (rrow y d (s.latch.h slot)) x : Int)
    let c := (s.sampleAt slot y x : Int)
    let p := row (-1)
    let n := row 1
    let pp := row (-2)
    let nn := row 2
    let t := s.latch.cthresh.toInt
    y < s.latch.h slot →
    (s.latch.icfg.metric = false →
      (slotCombed s slot y x ↔
        ((c - p > t ∧ c - n > t) ∨ (c - p < -t ∧ c - n < -t)) ∧
          |pp + 4 * c + nn - 3 * (p + n)| > 6 * t)) ∧
    (s.latch.icfg.metric = true →
      (slotCombed s slot y x ↔ (c - p) * (c - n) > t * t))

/-! ### The register space (10_state.md) -/

/-- A read, busy or not, returns the register's current value, its fields in the places of R59 and its reserved bits
0 (R31, R32, R33, R36 to R55); STATUS has its own statement. -/
def Obligations.RegisterReadsCurrentValue : Prop :=
  ∀ s : State,
    (∀ r ∈ fixedReads s, hostRegRead r.1 4 s = .next { s with busData := r.2 }) ∧
    ∀ n : Fin 64, ∀ r ∈ slotReads s n, hostRegRead r.1 4 s = .next { s with busData := r.2 }

/-- A write to an idle block, read back, gives the written value on the register's writable bits and the old
one on the others; every other register reads as before, STATUS and ERRINFO too unless the write is an accepted
START, and then nothing but the register written changes (R32, R34, R35, R59). -/
def Obligations.RegisterWriteThenRead : Prop :=
  ∀ (s : State) (offset : BitVec 12) (v : Word), s.status.busy = false →
    offset.toNat % 4 = 0 → offset ≠ 0x008 →
    let start := offset = 0x004 ∧ v.getLsbD 0 = true
    ∃ t, hostRegWrite offset 4 v s = .next t ∧
      readOffset t offset.toNat =
        (readOffset s offset.toNat &&& ~~~ writableMask offset.toNat) |||
          (v &&& writableMask offset.toNat) ∧
      (∀ other : BitVec 12, other.toNat % 4 = 0 → other ≠ offset →
        (other = 0x008 ∨ other = 0x00C → ¬ start) →
        readOffset t other.toNat = readOffset s other.toNat) ∧
      (¬ start → t = { s with regs := t.regs, ctrl := t.ctrl })

/-- While BUSY a write to CMD0, CMD1, a configuration or a descriptor register is dropped and sets WBUSY, and a write
to CTRL is accepted but for START; at any time a write to STATUS is accepted and a read returns the current value
(R37, R34). -/
def Obligations.BusyWritesDropped : Prop :=
  ∀ (s : State) (offset : BitVec 12) (v : Word), offset.toNat % 4 = 0 →
    (s.status.busy = true →
      ((offset.toNat = 0x010 ∨ offset.toNat = 0x014 ∨
          (0x020 ≤ offset.toNat ∧ offset.toNat ≤ 0x058) ∨
          (0x100 ≤ offset.toNat ∧ offset.toNat ≤ 0x4FF)) →
        hostRegWrite offset 4 v s =
          .next { s with status := { s.status with wbusy := true } }) ∧
      hostRegWrite 0x004 4 v s =
        .next { s with
          ctrl := { ieDone := v.getLsbD 1, ieErr := v.getLsbD 2 }
          status := { s.status with wbusy := s.status.wbusy || v.getLsbD 0 } }) ∧
    hostRegWrite 0x008 4 v s =
      .next { s with
        status := { s.status with
          done := s.status.done && !v.getLsbD 1
          err := s.status.err && !v.getLsbD 2
          wbusy := s.status.wbusy && !v.getLsbD 3 } } ∧
    hostRegRead offset 4 s = .next { s with busData := readOffset s offset.toNat }

/-- An accepted START: enables, DONE, ERR, ERRCODE and ERRINFO cleared, the latch taken, BUSY set, and nothing
else of the spec's state (R34, R57). -/
def Obligations.StartLatches : Prop :=
  ∀ (s : State) (v : Word), s.status.busy = false → v.getLsbD 0 = true →
    hostRegWrite 0x004 4 v s =
      .next { s with
        ctrl := { ieDone := v.getLsbD 1, ieErr := v.getLsbD 2 }
        latch := s.regs
        status := { busy := true, done := false, err := false, wbusy := s.status.wbusy,
                    errCode := none, errInfo := 0 }
        hostTouched := false }

/-- STATUS reads its fields in their places, ERRCODE as the numbers of R241, reserved bits 0; a write clears DONE, ERR and WBUSY where it has a 1,
busy or not, and changes nothing else (R35, R37, R241). -/
def Obligations.StatusReadsAndClears : Prop :=
  ∀ (s : State) (v : Word),
    let w := readOffset s 0x008
    (w.getLsbD 0 = s.status.busy ∧ w.getLsbD 1 = s.status.done ∧ w.getLsbD 2 = s.status.err ∧
      w.getLsbD 3 = s.status.wbusy ∧ w.extractLsb' 4 4 = 0 ∧
      (∃ p ∈ codeNumbers, s.status.errCode = p.1 ∧ w.extractLsb' 8 8 = p.2) ∧
      w.extractLsb' 16 16 = 0) ∧
    hostRegWrite 0x008 4 v s =
      .next { s with
        status := { s.status with
          done := s.status.done && !v.getLsbD 1
          err := s.status.err && !v.getLsbD 2
          wbusy := s.status.wbusy && !v.getLsbD 3 } }

/-- An offset not listed reads as 0 and ignores writes, and so do writes to the read-only registers
(R32, R33, R49, R55, R59). -/
def Obligations.UnlistedAndReadOnlyOffsets : Prop :=
  ∀ (s : State) (offset : BitVec 12) (v : Word), offset.toNat % 4 = 0 →
    (¬ listed offset.toNat →
      hostRegRead offset 4 s = .next { s with busData := 0 } ∧
      hostRegWrite offset 4 v s = .next s) ∧
    (offset.toNat ∈ [0x000, 0x00C, 0x018, 0x01C, 0x05C, 0x060] →
      hostRegWrite offset 4 v s = .next s) ∧
    readOffset s 0x000 = 0x544D4431

/-- IRQ is the level output of the two enabled outcome bits (R252). -/
def Obligations.InterruptLevel : Prop :=
  ∀ s : State, s.irq = true ↔
    (s.status.done = true ∧ s.ctrl.ieDone = true) ∨ (s.status.err = true ∧ s.ctrl.ieErr = true)

/-! ### Reset and the host's memory (70_reset_and_hazards.md, 20_memory.md) -/

/-- Every register reads its reset value after reset (R270). -/
def Obligations.ResetRegisterValues : Prop :=
  ∀ offset : BitVec 12, offset.toNat % 4 = 0 →
    readOffset State.reset offset.toNat = resetWord State.reset.params offset.toNat

/-- Reset at any moment: every register reads its reset value, IRQ is 0, ROMs and parameters stay, and every
byte outside the destination extent of the running command stays (R270, R272). -/
def Obligations.ResetAbandonsCommand : Prop :=
  ∀ s : State, nextAct s = .reset → s.params.legal →
    ∃ t, step s = .next t ∧ t.rom = s.rom ∧ t.params = s.params ∧ t.status.busy = false ∧
      t.irq = false ∧
      (∀ offset : BitVec 12, offset.toNat % 4 = 0 →
        readOffset t offset.toNat = resetWord s.params offset.toNat) ∧
      ∀ a, (∀ i dst, s.status.busy = true → decode s.latch.word = .ok i → destSlot i = some dst →
          ¬ (s.latch.desc dst).covers s.latch.fmt.bps a) →
        Memory.read t.mem a = Memory.read s.mem a

/-- A host write of a byte of data memory stores it and leaves every other byte, and reading it from an idle block
gives it back; beside the memory only the model's note of R96 may change (R80; logs 10, 13). -/
def Obligations.HostWriteStoresByte : Prop :=
  ∀ (s : State) (addr : Word) (v : Byte), Memory.wf s.mem → addr.toNat < s.params.memSize →
    ∃ t, hostMemWrite addr v s = .next t ∧ Memory.wf t.mem ∧
      Memory.read t.mem addr.toNat = v ∧
      (∀ a, a ≠ addr.toNat → Memory.read t.mem a = Memory.read s.mem a) ∧
      t = { s with mem := t.mem, hostTouched := t.hostTouched } ∧
      (t.hostTouched = true ↔ s.hostTouched = true ∨ inRunningOperand s addr.toNat) ∧
      (s.status.busy = false →
        hostMemRead addr t = .next { t with busData := v.setWidth 32 })

/-- A host write outside every operand extent of the running command and the command's completion commute
(R278: "Host accesses to memory outside every operand extent are unaffected by the running command"). -/
def Obligations.HostWriteOutsideOperandsCommutes : Prop :=
  ∀ (i : Instr) (s : State) (addr : Word) (v : Byte), Memory.wf s.mem →
    s.status.busy = true → decode s.latch.word = .ok i → CommandLegal i s →
    addr.toNat < s.params.memSize →
    (∀ dst ∈ destSlot i, ¬ (s.latch.desc dst).covers s.latch.fmt.bps addr.toNat) →
    (∀ src ∈ sourceSlots s.latch i, ¬ (s.latch.desc src).covers s.latch.fmt.bps addr.toNat) →
    ∃ s1 t1 t2 t3, hostMemWrite addr v s = .next s1 ∧ exec i s1 = .next t1 ∧
      exec i s = .next t2 ∧ hostMemWrite addr v t2 = .next t3 ∧
      t1.status = t3.status ∧ t1.result = t3.result ∧
      ∀ a, Memory.read t1.mem a = Memory.read t3.mem a

/-- A host read of data memory outside the destination extent of the running command, so of a source extent too,
returns the stored byte (R278). -/
def Obligations.HostReadOutsideDestination : Prop :=
  ∀ (s : State) (addr : Word), addr.toNat < s.params.memSize →
    (∀ i dst, s.status.busy = true → decode s.latch.word = .ok i → destSlot i = some dst →
      ¬ (s.latch.desc dst).covers s.latch.fmt.bps addr.toNat) →
    hostMemRead addr s =
      .next { s with busData := (Memory.read s.mem addr.toNat).setWidth 32 }

/-! ### The whole machine -/

/-- The invariant holds after reset. -/
def Obligations.ResetIsSound : Prop := State.reset.Inv

/-- Every step keeps the invariant: the memory's canonical form and bound, the latch equal to the registers while
BUSY, and the agreement of the STATUS fields (R30, R57, R80, R242, R279). -/
def Obligations.StepKeepsInvariant : Prop :=
  ∀ s t : State, s.Inv → step s = .next t → t.Inv

/-- A step takes the first entry of the host list, the block's turn when the list is empty (log 1), and is that access
on the state with the entry taken; an idle block's turn does nothing. It answers a next state exactly when the access
is one the spec has: a command, reset and the block's turn always; a register access of one aligned word; a
data-memory access below MEMSIZE (R31, R80, R240, R253, R274). -/
def Obligations.StepAnswersLegalAccess : Prop :=
  ∀ s : State,
    (∀ a rest, s.host = a :: rest → nextAct s = a ∧ s.popHost = { s with host := rest }) ∧
    (s.host = [] → nextAct s = .blockTurn ∧ s.popHost = s) ∧
    (∀ offset size, nextAct s = .regRead offset size → step s = hostRegRead offset size s.popHost) ∧
    (∀ offset size v,
      nextAct s = .regWrite offset size v → step s = hostRegWrite offset size v s.popHost) ∧
    (∀ addr, nextAct s = .memRead addr → step s = hostMemRead addr s.popHost) ∧
    (∀ addr v, nextAct s = .memWrite addr v → step s = hostMemWrite addr v s.popHost) ∧
    (nextAct s = .blockTurn → s.status.busy = false → step s = .next s.popHost) ∧
    ((∃ t, step s = .next t) ↔ (nextAct s).legal s.params = true) ∧
    (∀ offset size v,
      nextAct s = .regRead offset size ∨ nextAct s = .regWrite offset size v →
      (nextAct s).legal s.params = false → step s = .refused (.badAccess offset size)) ∧
    (∀ addr v, nextAct s = .memRead addr ∨ nextAct s = .memWrite addr v →
      (nextAct s).legal s.params = false → step s = .fault (.noSuchAddress addr))

/-- No step changes the ROMs or the parameters (R55, R56). -/
def Obligations.ConstantsNeverChange : Prop :=
  ∀ s t : State, step s = .next t → t.rom = s.rom ∧ t.params = s.params

/-- SCORE and RESULT change only at reset and at the successful end of an ISCOMBED (R49, R62). -/
def Obligations.ResultWrittenOnlyByIscombed : Prop :=
  ∀ s t : State, step s = .next t → t.result ≠ s.result →
    nextAct s = .reset ∨
      (blockRuns s ∧ t.status.done = true ∧
        ∃ ys us vs, decode s.latch.word = .ok (.iscombed ys us vs))

/-- BUSY rises only at an accepted START and falls only at the block's turn or at reset (R30, R62). -/
def Obligations.BusyChangesOnlyByStartAndCompletion : Prop :=
  ∀ s t : State, step s = .next t → t.status.busy ≠ s.status.busy →
    (s.status.busy = false ∧ ∃ v, nextAct s = .regWrite 0x004 4 v ∧ v.getLsbD 0 = true) ∨
    (s.status.busy = true ∧ (nextAct s = .blockTurn ∨ nextAct s = .reset))

/-- Data memory changes only by a host write, a command's completion or a reset while BUSY (R94, R272). -/
def Obligations.MemoryChangesOnlyByHostOrBusyBlock : Prop :=
  ∀ s t : State, step s = .next t → t.mem ≠ s.mem →
    (∃ addr v, nextAct s = .memWrite addr v) ∨
    (s.status.busy = true ∧ (nextAct s = .blockTurn ∨ nextAct s = .reset))

/-- A command is a function of the latch, the constants and its source samples: two states that agree on these get
the same results, the same STATUS and ERRINFO but for WBUSY, and each byte is equal in both or kept in both
(R16, R95). -/
def Obligations.CommandDependsOnlyOnOperands : Prop :=
  ∀ (i : Instr) (s1 s2 : State), undisturbed s1 → undisturbed s2 →
    s1.latch = s2.latch → s1.params = s2.params → s1.rom = s2.rom →
    (∀ slot ∈ sourceSlots s1.latch i, ∀ y < s1.latch.h slot, ∀ x < s1.latch.w slot,
      s1.sampleAt slot y x = s2.sampleAt slot y x) →
    ∃ t1 t2, exec i s1 = .next t1 ∧ exec i s2 = .next t2 ∧
      (t1.result = t2.result ∨ t1.result = s1.result ∧ t2.result = s2.result) ∧
      (clean s1 → clean s2 → t1.status = { t2.status with wbusy := s1.status.wbusy }) ∧
      ∀ a, Memory.read t1.mem a = Memory.read t2.mem a ∨
        Memory.read t1.mem a = Memory.read s1.mem a ∧ Memory.read t2.mem a = Memory.read s2.mem a
end

