-- ==== Sys2Proof/Laws/State.lean ====
section
/-! SUPPORT. One lemma per field and per named update of the state, so that no proof unfolds a record update. -/

namespace Sys2Proof.Machine

/-! ### failCommand -/

@[simp] theorem failCommand_regs (f : Failure) (s : State) : (failCommand f s).regs = s.regs := rfl
@[simp] theorem failCommand_latch (f : Failure) (s : State) :
    (failCommand f s).latch = s.latch := rfl
@[simp] theorem failCommand_ctrl (f : Failure) (s : State) : (failCommand f s).ctrl = s.ctrl := rfl
@[simp] theorem failCommand_status (f : Failure) (s : State) :
    (failCommand f s).status = s.status.failed f.code f.info := rfl
@[simp] theorem failCommand_result (f : Failure) (s : State) :
    (failCommand f s).result = s.result := rfl
@[simp] theorem failCommand_scratch (f : Failure) (s : State) :
    (failCommand f s).scratch = s.scratch := rfl
@[simp] theorem failCommand_mem (f : Failure) (s : State) : (failCommand f s).mem = s.mem := rfl
@[simp] theorem failCommand_rom (f : Failure) (s : State) : (failCommand f s).rom = s.rom := rfl
@[simp] theorem failCommand_params (f : Failure) (s : State) :
    (failCommand f s).params = s.params := rfl
@[simp] theorem failCommand_host (f : Failure) (s : State) : (failCommand f s).host = s.host := rfl
@[simp] theorem failCommand_busData (f : Failure) (s : State) :
    (failCommand f s).busData = s.busData := rfl
@[simp] theorem failCommand_hostTouched (f : Failure) (s : State) :
    (failCommand f s).hostTouched = false := rfl
@[simp] theorem failCommand_freeCtr (f : Failure) (s : State) :
    (failCommand f s).freeCtr = s.freeCtr := rfl

/-! ### succeedCommand -/

@[simp] theorem succeedCommand_regs (s : State) : (succeedCommand s).regs = s.regs := rfl
@[simp] theorem succeedCommand_latch (s : State) : (succeedCommand s).latch = s.latch := rfl
@[simp] theorem succeedCommand_ctrl (s : State) : (succeedCommand s).ctrl = s.ctrl := rfl
@[simp] theorem succeedCommand_status (s : State) :
    (succeedCommand s).status = s.status.succeeded := rfl
@[simp] theorem succeedCommand_result (s : State) : (succeedCommand s).result = s.result := rfl
@[simp] theorem succeedCommand_scratch (s : State) : (succeedCommand s).scratch = s.scratch := rfl
@[simp] theorem succeedCommand_mem (s : State) : (succeedCommand s).mem = s.mem := rfl
@[simp] theorem succeedCommand_rom (s : State) : (succeedCommand s).rom = s.rom := rfl
@[simp] theorem succeedCommand_params (s : State) : (succeedCommand s).params = s.params := rfl
@[simp] theorem succeedCommand_host (s : State) : (succeedCommand s).host = s.host := rfl
@[simp] theorem succeedCommand_busData (s : State) : (succeedCommand s).busData = s.busData := rfl
@[simp] theorem succeedCommand_hostTouched (s : State) :
    (succeedCommand s).hostTouched = false := rfl
@[simp] theorem succeedCommand_freeCtr (s : State) : (succeedCommand s).freeCtr = s.freeCtr := rfl

/-! ### startCommand -/

@[simp] theorem startCommand_regs (s : State) : (startCommand s).regs = s.regs := rfl
@[simp] theorem startCommand_latch (s : State) : (startCommand s).latch = s.regs := rfl
@[simp] theorem startCommand_ctrl (s : State) : (startCommand s).ctrl = s.ctrl := rfl
@[simp] theorem startCommand_status (s : State) : (startCommand s).status = s.status.started := rfl
@[simp] theorem startCommand_result (s : State) : (startCommand s).result = s.result := rfl
@[simp] theorem startCommand_scratch (s : State) : (startCommand s).scratch = s.scratch := rfl
@[simp] theorem startCommand_mem (s : State) : (startCommand s).mem = s.mem := rfl
@[simp] theorem startCommand_rom (s : State) : (startCommand s).rom = s.rom := rfl
@[simp] theorem startCommand_params (s : State) : (startCommand s).params = s.params := rfl
@[simp] theorem startCommand_host (s : State) : (startCommand s).host = s.host := rfl
@[simp] theorem startCommand_busData (s : State) : (startCommand s).busData = s.busData := rfl
@[simp] theorem startCommand_hostTouched (s : State) : (startCommand s).hostTouched = false := rfl
@[simp] theorem startCommand_freeCtr (s : State) : (startCommand s).freeCtr = s.freeCtr := rfl

/-! ### scramble -/

@[simp] theorem scramble_regs (s : State) (addrs : List Nat) :
    (s.scramble addrs).regs = s.regs := rfl
@[simp] theorem scramble_latch (s : State) (addrs : List Nat) :
    (s.scramble addrs).latch = s.latch := rfl
@[simp] theorem scramble_ctrl (s : State) (addrs : List Nat) :
    (s.scramble addrs).ctrl = s.ctrl := rfl
@[simp] theorem scramble_status (s : State) (addrs : List Nat) :
    (s.scramble addrs).status = s.status := rfl
@[simp] theorem scramble_result (s : State) (addrs : List Nat) :
    (s.scramble addrs).result = s.result := rfl
@[simp] theorem scramble_scratch (s : State) (addrs : List Nat) :
    (s.scramble addrs).scratch = s.scratch := rfl
@[simp] theorem scramble_mem (s : State) (addrs : List Nat) :
    (s.scramble addrs).mem = s.mem.writeAll (freeCells addrs s.freeCtr) := rfl
@[simp] theorem scramble_rom (s : State) (addrs : List Nat) : (s.scramble addrs).rom = s.rom := rfl
@[simp] theorem scramble_params (s : State) (addrs : List Nat) :
    (s.scramble addrs).params = s.params := rfl
@[simp] theorem scramble_host (s : State) (addrs : List Nat) :
    (s.scramble addrs).host = s.host := rfl
@[simp] theorem scramble_busData (s : State) (addrs : List Nat) :
    (s.scramble addrs).busData = s.busData := rfl
@[simp] theorem scramble_hostTouched (s : State) (addrs : List Nat) :
    (s.scramble addrs).hostTouched = s.hostTouched := rfl
@[simp] theorem scramble_freeCtr (s : State) (addrs : List Nat) :
    (s.scramble addrs).freeCtr = s.freeCtr + addrs.length := rfl

/-! ### withScore -/

@[simp] theorem withScore_regs (s : State) (w : Word) : (s.withScore w).regs = s.regs := rfl
@[simp] theorem withScore_latch (s : State) (w : Word) : (s.withScore w).latch = s.latch := rfl
@[simp] theorem withScore_ctrl (s : State) (w : Word) : (s.withScore w).ctrl = s.ctrl := rfl
@[simp] theorem withScore_status (s : State) (w : Word) : (s.withScore w).status = s.status := rfl
@[simp] theorem withScore_result (s : State) (w : Word) :
    (s.withScore w).result = { score := w, combed := combedFlag w s.latch.mi } := rfl
@[simp] theorem withScore_scratch (s : State) (w : Word) :
    (s.withScore w).scratch = s.scratch := rfl
@[simp] theorem withScore_mem (s : State) (w : Word) : (s.withScore w).mem = s.mem := rfl
@[simp] theorem withScore_rom (s : State) (w : Word) : (s.withScore w).rom = s.rom := rfl
@[simp] theorem withScore_params (s : State) (w : Word) : (s.withScore w).params = s.params := rfl
@[simp] theorem withScore_host (s : State) (w : Word) : (s.withScore w).host = s.host := rfl
@[simp] theorem withScore_busData (s : State) (w : Word) :
    (s.withScore w).busData = s.busData := rfl
@[simp] theorem withScore_hostTouched (s : State) (w : Word) :
    (s.withScore w).hostTouched = s.hostTouched := rfl
@[simp] theorem withScore_freeCtr (s : State) (w : Word) :
    (s.withScore w).freeCtr = s.freeCtr := rfl

/-! ### popHost -/

@[simp] theorem popHost_regs (s : State) : (s.popHost).regs = s.regs := rfl
@[simp] theorem popHost_latch (s : State) : (s.popHost).latch = s.latch := rfl
@[simp] theorem popHost_ctrl (s : State) : (s.popHost).ctrl = s.ctrl := rfl
@[simp] theorem popHost_status (s : State) : (s.popHost).status = s.status := rfl
@[simp] theorem popHost_result (s : State) : (s.popHost).result = s.result := rfl
@[simp] theorem popHost_scratch (s : State) : (s.popHost).scratch = s.scratch := rfl
@[simp] theorem popHost_mem (s : State) : (s.popHost).mem = s.mem := rfl
@[simp] theorem popHost_rom (s : State) : (s.popHost).rom = s.rom := rfl
@[simp] theorem popHost_params (s : State) : (s.popHost).params = s.params := rfl
@[simp] theorem popHost_host (s : State) : (s.popHost).host = s.host.tail := rfl
@[simp] theorem popHost_busData (s : State) : (s.popHost).busData = s.busData := rfl
@[simp] theorem popHost_hostTouched (s : State) : (s.popHost).hostTouched = s.hostTouched := rfl
@[simp] theorem popHost_freeCtr (s : State) : (s.popHost).freeCtr = s.freeCtr := rfl

/-! ### dropWrite -/

@[simp] theorem dropWrite_regs (s : State) : (dropWrite s).regs = s.regs := rfl
@[simp] theorem dropWrite_latch (s : State) : (dropWrite s).latch = s.latch := rfl
@[simp] theorem dropWrite_ctrl (s : State) : (dropWrite s).ctrl = s.ctrl := rfl
@[simp] theorem dropWrite_status (s : State) : (dropWrite s).status = s.status.dropped := rfl
@[simp] theorem dropWrite_result (s : State) : (dropWrite s).result = s.result := rfl
@[simp] theorem dropWrite_scratch (s : State) : (dropWrite s).scratch = s.scratch := rfl
@[simp] theorem dropWrite_mem (s : State) : (dropWrite s).mem = s.mem := rfl
@[simp] theorem dropWrite_rom (s : State) : (dropWrite s).rom = s.rom := rfl
@[simp] theorem dropWrite_params (s : State) : (dropWrite s).params = s.params := rfl
@[simp] theorem dropWrite_host (s : State) : (dropWrite s).host = s.host := rfl
@[simp] theorem dropWrite_busData (s : State) : (dropWrite s).busData = s.busData := rfl
@[simp] theorem dropWrite_hostTouched (s : State) : (dropWrite s).hostTouched = s.hostTouched := rfl
@[simp] theorem dropWrite_freeCtr (s : State) : (dropWrite s).freeCtr = s.freeCtr := rfl

/-! ### commitPlane: only the memory and the free-byte counter -/

@[simp] theorem commitPlane_regs (dst : Nat) (f : Nat → Nat → Option Nat) (s : State) :
    (commitPlane dst f s).regs = s.regs := by
  unfold commitPlane; split <;> rfl
@[simp] theorem commitPlane_latch (dst : Nat) (f : Nat → Nat → Option Nat) (s : State) :
    (commitPlane dst f s).latch = s.latch := by
  unfold commitPlane; split <;> rfl
@[simp] theorem commitPlane_ctrl (dst : Nat) (f : Nat → Nat → Option Nat) (s : State) :
    (commitPlane dst f s).ctrl = s.ctrl := by
  unfold commitPlane; split <;> rfl
@[simp] theorem commitPlane_status (dst : Nat) (f : Nat → Nat → Option Nat) (s : State) :
    (commitPlane dst f s).status = s.status := by
  unfold commitPlane; split <;> rfl
@[simp] theorem commitPlane_result (dst : Nat) (f : Nat → Nat → Option Nat) (s : State) :
    (commitPlane dst f s).result = s.result := by
  unfold commitPlane; split <;> rfl
@[simp] theorem commitPlane_scratch (dst : Nat) (f : Nat → Nat → Option Nat) (s : State) :
    (commitPlane dst f s).scratch = s.scratch := by
  unfold commitPlane; split <;> rfl
@[simp] theorem commitPlane_rom (dst : Nat) (f : Nat → Nat → Option Nat) (s : State) :
    (commitPlane dst f s).rom = s.rom := by
  unfold commitPlane; split <;> rfl
@[simp] theorem commitPlane_params (dst : Nat) (f : Nat → Nat → Option Nat) (s : State) :
    (commitPlane dst f s).params = s.params := by
  unfold commitPlane; split <;> rfl
@[simp] theorem commitPlane_host (dst : Nat) (f : Nat → Nat → Option Nat) (s : State) :
    (commitPlane dst f s).host = s.host := by
  unfold commitPlane; split <;> rfl
@[simp] theorem commitPlane_busData (dst : Nat) (f : Nat → Nat → Option Nat) (s : State) :
    (commitPlane dst f s).busData = s.busData := by
  unfold commitPlane; split <;> rfl
@[simp] theorem commitPlane_hostTouched (dst : Nat) (f : Nat → Nat → Option Nat) (s : State) :
    (commitPlane dst f s).hostTouched = s.hostTouched := by
  unfold commitPlane; split <;> rfl

/-! ### scoreFrame: only the scratch, the result and the free-byte counter -/

@[simp] theorem scoreFrame_regs (ys us vs : Nat) (s : State) :
    (scoreFrame ys us vs s).regs = s.regs := by
  unfold scoreFrame; split <;> rfl
@[simp] theorem scoreFrame_latch (ys us vs : Nat) (s : State) :
    (scoreFrame ys us vs s).latch = s.latch := by
  unfold scoreFrame; split <;> rfl
@[simp] theorem scoreFrame_ctrl (ys us vs : Nat) (s : State) :
    (scoreFrame ys us vs s).ctrl = s.ctrl := by
  unfold scoreFrame; split <;> rfl
@[simp] theorem scoreFrame_status (ys us vs : Nat) (s : State) :
    (scoreFrame ys us vs s).status = s.status := by
  unfold scoreFrame; split <;> rfl
@[simp] theorem scoreFrame_mem (ys us vs : Nat) (s : State) :
    (scoreFrame ys us vs s).mem = s.mem := by
  unfold scoreFrame; split <;> rfl
@[simp] theorem scoreFrame_rom (ys us vs : Nat) (s : State) :
    (scoreFrame ys us vs s).rom = s.rom := by
  unfold scoreFrame; split <;> rfl
@[simp] theorem scoreFrame_params (ys us vs : Nat) (s : State) :
    (scoreFrame ys us vs s).params = s.params := by
  unfold scoreFrame; split <;> rfl
@[simp] theorem scoreFrame_host (ys us vs : Nat) (s : State) :
    (scoreFrame ys us vs s).host = s.host := by
  unfold scoreFrame; split <;> rfl
@[simp] theorem scoreFrame_busData (ys us vs : Nat) (s : State) :
    (scoreFrame ys us vs s).busData = s.busData := by
  unfold scoreFrame; split <;> rfl
@[simp] theorem scoreFrame_hostTouched (ys us vs : Nat) (s : State) :
    (scoreFrame ys us vs s).hostTouched = s.hostTouched := by
  unfold scoreFrame; split <;> rfl

@[simp] theorem scoreFrame_scratch (ys us vs : Nat) (s : State) :
    (scoreFrame ys us vs s).scratch = iscombedScratch s ys us vs := by
  unfold scoreFrame; split <;> rfl

/-! ### STATUS -/

@[simp] theorem Status.failed_busy (t : Status) (c : ErrCode) (i : Word) : (t.failed c i).busy = false := rfl
@[simp] theorem Status.failed_done (t : Status) (c : ErrCode) (i : Word) : (t.failed c i).done = t.done := rfl
@[simp] theorem Status.failed_err (t : Status) (c : ErrCode) (i : Word) : (t.failed c i).err = true := rfl
@[simp] theorem Status.failed_wbusy (t : Status) (c : ErrCode) (i : Word) : (t.failed c i).wbusy = t.wbusy := rfl
@[simp] theorem Status.failed_errCode (t : Status) (c : ErrCode) (i : Word) : (t.failed c i).errCode = some c := rfl
@[simp] theorem Status.failed_errInfo (t : Status) (c : ErrCode) (i : Word) : (t.failed c i).errInfo = i := rfl
@[simp] theorem Status.succeeded_busy (t : Status) : t.succeeded.busy = false := rfl
@[simp] theorem Status.succeeded_done (t : Status) : t.succeeded.done = true := rfl
@[simp] theorem Status.succeeded_err (t : Status) : t.succeeded.err = t.err := rfl
@[simp] theorem Status.succeeded_wbusy (t : Status) : t.succeeded.wbusy = t.wbusy := rfl
@[simp] theorem Status.succeeded_errCode (t : Status) : t.succeeded.errCode = t.errCode := rfl
@[simp] theorem Status.succeeded_errInfo (t : Status) : t.succeeded.errInfo = t.errInfo := rfl
@[simp] theorem Status.started_busy (t : Status) : t.started.busy = true := rfl
@[simp] theorem Status.started_done (t : Status) : t.started.done = false := rfl
@[simp] theorem Status.started_err (t : Status) : t.started.err = false := rfl
@[simp] theorem Status.started_wbusy (t : Status) : t.started.wbusy = t.wbusy := rfl
@[simp] theorem Status.started_errCode (t : Status) : t.started.errCode = none := rfl
@[simp] theorem Status.started_errInfo (t : Status) : t.started.errInfo = 0 := rfl
@[simp] theorem Status.dropped_busy (t : Status) : t.dropped.busy = t.busy := rfl
@[simp] theorem Status.dropped_done (t : Status) : t.dropped.done = t.done := rfl
@[simp] theorem Status.dropped_err (t : Status) : t.dropped.err = t.err := rfl
@[simp] theorem Status.dropped_wbusy (t : Status) : t.dropped.wbusy = true := rfl
@[simp] theorem Status.dropped_errCode (t : Status) : t.dropped.errCode = t.errCode := rfl
@[simp] theorem Status.dropped_errInfo (t : Status) : t.dropped.errInfo = t.errInfo := rfl
@[simp] theorem Status.clear_busy (t : Status) (v : Word) : (t.clear v).busy = t.busy := rfl
@[simp] theorem Status.clear_errCode (t : Status) (v : Word) : (t.clear v).errCode = t.errCode := rfl
@[simp] theorem Status.clear_errInfo (t : Status) (v : Word) : (t.clear v).errInfo = t.errInfo := rfl

/-! ### Reading operands -/

@[simp] theorem sampleAt_popHost (s : State) (slot y x : Nat) :
    s.popHost.sampleAt slot y x = s.sampleAt slot y x := rfl

@[simp] theorem sampleAt_succeedCommand (s : State) (slot y x : Nat) :
    (succeedCommand s).sampleAt slot y x = s.sampleAt slot y x := rfl

end Sys2Proof.Machine
end

