-- ==== Sys2Proof/Laws/Checks.lean ====
section
/-! SUPPORT. What the checks and a command's completion can do, said once (60_exceptions.md R240 to R246). -/

namespace Sys2Proof.Machine

theorem failIf_eq_none {bad : Prop} [Decidable bad] {c : ErrCode} {n : Nat} :
    failIf bad c n = none ↔ ¬ bad := by
  unfold failIf; split <;> simp_all

theorem failIf_of {bad : Prop} [Decidable bad] {c : ErrCode} {n : Nat} (h : bad) :
    failIf bad c n = some ⟨c, BitVec.ofNat 32 n⟩ := if_pos h

theorem failIf_of_not {bad : Prop} [Decidable bad] {c : ErrCode} {n : Nat} (h : ¬ bad) :
    failIf bad c n = none := if_neg h

theorem failIf_eq_some {bad : Prop} [Decidable bad] {c : ErrCode} {n : Nat} {f : Failure} :
    failIf bad c n = some f ↔ bad ∧ f = ⟨c, BitVec.ofNat 32 n⟩ := by
  unfold failIf; split <;> simp_all [eq_comm]

@[simp] theorem firstFailure_nil : firstFailure [] = none := rfl

@[simp] theorem firstFailure_some_cons (f : Failure) (l : List (Option Failure)) :
    firstFailure (some f :: l) = some f := rfl

@[simp] theorem firstFailure_none_cons (l : List (Option Failure)) :
    firstFailure (none :: l) = firstFailure l := rfl

/-- A command passes iff every check passes (R240). -/
theorem firstFailure_eq_none {l : List (Option Failure)} :
    firstFailure l = none ↔ ∀ c ∈ l, c = none := by
  induction l with
  | nil => simp
  | cons c l ih => cases c <;> simp [ih]

/-- Checks that pass are passed over (R246). -/
theorem firstFailure_append {l r : List (Option Failure)} (h : ∀ c ∈ l, c = none) :
    firstFailure (l ++ r) = firstFailure r := by
  induction l with
  | nil => rfl
  | cons c l ih =>
    have hc : c = none := h c (by simp)
    subst hc
    simpa using ih fun d hd => h d (by simp [hd])

/-- The failure of a list of checks is one of theirs. -/
theorem firstFailure_mem {l : List (Option Failure)} {f : Failure} (h : firstFailure l = some f) :
    some f ∈ l := by
  induction l with
  | nil => simp at h
  | cons c l ih =>
    cases c with
    | none => exact List.mem_cons_of_mem _ (ih h)
    | some g => simp_all

/-- The only two ways a command completes (R240, R244, R245). -/
theorem completeCommand_cases {check : Option Failure} {effect : State → State} {s t : State}
    (h : completeCommand check effect s = .next t) :
    (∃ f, check = some f ∧ t = failCommand f s) ∨
      (check = none ∧ t = succeedCommand (effect s)) := by
  unfold completeCommand at h
  split at h
  · exact .inl ⟨_, rfl, by injection h with h; exact h.symm⟩
  · exact .inr ⟨rfl, by injection h with h; exact h.symm⟩

@[simp] theorem completeCommand_none (effect : State → State) (s : State) :
    completeCommand none effect s = .next (succeedCommand (effect s)) := rfl

@[simp] theorem completeCommand_some (f : Failure) (effect : State → State) (s : State) :
    completeCommand (some f) effect s = .next (failCommand f s) := rfl

/-- The checks of each command (R246). -/
def checkOf (i : Instr) (s : State) : Option Failure :=
  match i with
  | .tmask src dst pclass => tmaskCheck s.params s.latch src dst pclass
  | .mmask src1 msk1 src2 msk2 dst => mmaskCheck s.params s.latch src1 msk1 src2 msk2 dst
  | .mand a b dst => mandCheck s.params s.latch a b dst
  | .mcomb src dst => mcombCheck s.params s.latch src dst
  | .tbuild dst cbase ccnt obase ocnt _ _ _ cfirst _ =>
      tbuildCheck s.params s.latch dst cbase ccnt obase ocnt cfirst
  | .iscombed ys us vs => iscombedCheck s.params s.latch ys us vs

/-- The effect of each command on success, its samples read from `s0`. -/
def effectFrom (i : Instr) (s0 : State) : State → State :=
  match i with
  | .tmask src dst pclass => commitPlane dst fun r x => some (tmaskSample s0 src pclass r x)
  | .mmask src1 msk1 src2 msk2 dst =>
      commitPlane dst fun r x => some (mmaskSample s0 src1 msk1 src2 msk2 r x)
  | .mand a b dst => commitPlane dst fun r x => some (mandSample s0 a b r x)
  | .mcomb src dst => commitPlane dst fun y x => some (mcombSample s0 src y x)
  | .tbuild dst cbase ccnt obase ocnt order field rowpar cfirst wother =>
      commitPlane dst fun y x =>
        tbuildSample s0 dst cbase ccnt obase ocnt order field rowpar cfirst wother y x
  | .iscombed ys us vs => scoreFrame ys us vs

/-- The effect of each command on success. -/
def effectOf (i : Instr) (s : State) : State := effectFrom i s s

/-- Every command is its checks and its effect. -/
theorem exec_eq (i : Instr) (s : State) :
    exec i s = completeCommand (checkOf i s) (effectFrom i s) s := by
  cases i <;> rfl

/-- A command whose checks pass succeeds with its effect (R245). -/
theorem exec_of_check_none {i : Instr} {s : State} (h : checkOf i s = none) :
    exec i s = .next (succeedCommand (effectOf i s)) := by
  rw [exec_eq, h, completeCommand_none, effectOf]

/-- A command with a failing check fails (R244). -/
theorem exec_of_check_some {i : Instr} {s : State} {f : Failure} (h : checkOf i s = some f) :
    exec i s = .next (failCommand f s) := by
  rw [exec_eq, h, completeCommand_some]

/-- The only two ways a command ends. -/
theorem exec_cases {i : Instr} {s t : State} (h : exec i s = .next t) :
    (∃ f, checkOf i s = some f ∧ t = failCommand f s) ∨
      (checkOf i s = none ∧ t = succeedCommand (effectOf i s)) := by
  rw [exec_eq] at h
  simpa only [effectOf] using completeCommand_cases h

/-- A command never stops the machine (R240). -/
theorem exec_next (i : Instr) (s : State) : ∃ t, exec i s = .next t := by
  cases h : checkOf i s with
  | none => exact ⟨_, exec_of_check_none h⟩
  | some f => exact ⟨_, exec_of_check_some h⟩

end Sys2Proof.Machine
end

