-- ==== Sys2Proof/Laws/Memory.lean ====
section
/-! SUPPORT. The laws of the data memory: read after write, and the canonical form every operation keeps. -/

namespace Sys2Proof.Machine

@[simp] theorem Memory.read_nil (a : Nat) : Memory.read [] a = unlistedByte := rfl

theorem Memory.read_cons (b : Nat) (v : Byte) (m : Memory) (a : Nat) :
    Memory.read ((b, v) :: m) a = if a = b then v else Memory.read m a := rfl

theorem Memory.read_of_not_mem {m : Memory} {a : Nat} (h : ∀ c ∈ m, c.1 ≠ a) :
    Memory.read m a = unlistedByte := by
  induction m with
  | nil => rfl
  | cons c m ih =>
    obtain ⟨b, v⟩ := c
    have hb : a ≠ b := fun e => h (b, v) (by simp) e.symm
    rw [Memory.read_cons, if_neg hb]
    exact ih fun c hc => h c (by simp [hc])

theorem Memory.wf_nil : Memory.wf [] := by simp [Memory.wf]

theorem Memory.wf_tail {c : Host.Cell} {m : Memory} (h : Memory.wf (c :: m)) : Memory.wf m :=
  ⟨(List.pairwise_cons.1 h.1).2, fun d hd => h.2 d (by simp [hd])⟩

theorem Memory.wf_head_lt {c : Host.Cell} {m : Memory} (h : Memory.wf (c :: m)) :
    ∀ d ∈ m, c.1 < d.1 := (List.pairwise_cons.1 h.1).1

theorem Memory.wf_cons {c : Host.Cell} {m : Memory} (hlt : ∀ d ∈ m, c.1 < d.1)
    (hv : c.2 ≠ unlistedByte) (h : Memory.wf m) : Memory.wf (c :: m) :=
  ⟨List.pairwise_cons.2 ⟨hlt, h.1⟩, fun d hd => by
    rcases List.mem_cons.1 hd with rfl | hd
    · exact hv
    · exact h.2 d hd⟩

/-- A listed cell after a write is the written one or was listed before. -/
theorem Memory.mem_write {m : Memory} {a : Nat} {v : Byte} {c : Host.Cell}
    (h : c ∈ Memory.write m a v) : c = (a, v) ∧ v ≠ unlistedByte ∨ c ∈ m := by
  induction m with
  | nil =>
    simp only [Memory.write] at h
    split at h <;> simp_all
  | cons d m ih =>
    obtain ⟨b, w⟩ := d
    simp only [Memory.write] at h
    split at h
    · split at h
      · exact .inr h
      · rcases List.mem_cons.1 h with h | h
        · exact .inl ⟨h, by assumption⟩
        · exact .inr h
    · split at h
      · split at h
        · exact .inr (by simp [h])
        · rcases List.mem_cons.1 h with h | h
          · exact .inl ⟨h, by assumption⟩
          · exact .inr (by simp [h])
      · rcases List.mem_cons.1 h with h | h
        · exact .inr (by simp [h])
        · rcases ih h with h | h
          · exact .inl h
          · exact .inr (by simp [h])

/-- A write keeps the canonical form. -/
theorem Memory.write_wf {m : Memory} (a : Nat) (v : Byte) (h : Memory.wf m) :
    Memory.wf (Memory.write m a v) := by
  induction m with
  | nil =>
    simp only [Memory.write]
    split
    · exact Memory.wf_nil
    · exact Memory.wf_cons (by simp) (by assumption) Memory.wf_nil
  | cons d m ih =>
    obtain ⟨b, w⟩ := d
    have hlt := Memory.wf_head_lt h
    simp only [Memory.write]
    split
    · split
      · exact h
      · refine Memory.wf_cons (fun d hd => ?_) (by assumption) h
        rcases List.mem_cons.1 hd with rfl | hd
        · assumption
        · exact Nat.lt_trans (by assumption) (hlt d hd)
    · split
      · subst_vars
        split
        · exact Memory.wf_tail h
        · exact Memory.wf_cons hlt (by assumption) (Memory.wf_tail h)
      · refine Memory.wf_cons (fun d hd => ?_) (h.2 (b, w) (by simp)) (ih (Memory.wf_tail h))
        rcases Memory.mem_write hd with ⟨rfl, _⟩ | hd
        · simp only; omega
        · exact hlt d hd

/-- A write leaves every other address alone. -/
theorem Memory.read_write_other {m : Memory} {a x : Nat} (v : Byte) (hx : x ≠ a) :
    Memory.read (Memory.write m a v) x = Memory.read m x := by
  induction m with
  | nil => simp only [Memory.write]; split <;> simp [Memory.read, hx]
  | cons d m ih =>
    obtain ⟨b, w⟩ := d
    simp only [Memory.write]
    split
    · split <;> simp [Memory.read, hx]
    · split
      · subst_vars
        split <;> simp [Memory.read, hx]
      · simp [Memory.read, ih]

/-- A read after a write to the same address gives the byte written. -/
theorem Memory.read_write_same {m : Memory} (a : Nat) (v : Byte) (h : Memory.wf m) :
    Memory.read (Memory.write m a v) a = v := by
  induction m with
  | nil => simp only [Memory.write]; split <;> simp_all [Memory.read]
  | cons d m ih =>
    obtain ⟨b, w⟩ := d
    have hlt := Memory.wf_head_lt h
    simp only [Memory.write]
    split
    · split
      · subst_vars
        refine Memory.read_of_not_mem fun c hc => ?_
        rcases List.mem_cons.1 hc with rfl | hc
        · simp only; omega
        · have := hlt c hc; simp only at this; omega
      · simp [Memory.read]
    · split
      · subst_vars
        split
        · subst_vars
          exact Memory.read_of_not_mem fun c hc => by have := hlt c hc; simp only at this; omega
        · simp [Memory.read]
      · rename_i hne
        simp [Memory.read, hne, ih (Memory.wf_tail h)]

@[simp] theorem Memory.writeAll_nil (m : Memory) : Memory.writeAll m [] = m := rfl

@[simp] theorem Memory.writeAll_cons (m : Memory) (c : Host.Cell) (cs : List Host.Cell) :
    Memory.writeAll m (c :: cs) = Memory.writeAll (Memory.write m c.1 c.2) cs := rfl

/-- Writing any list of cells keeps the canonical form. -/
theorem Memory.writeAll_wf {m : Memory} (cs : List Host.Cell) (h : Memory.wf m) :
    Memory.wf (Memory.writeAll m cs) := by
  induction cs generalizing m with
  | nil => exact h
  | cons c cs ih => exact ih (Memory.write_wf _ _ h)

/-- A cell listed after writing a list was listed before or has an address of the list. -/
theorem Memory.mem_writeAll {m : Memory} {cs : List Host.Cell} {c : Host.Cell}
    (h : c ∈ Memory.writeAll m cs) : c.1 ∈ cs.map Prod.fst ∨ c ∈ m := by
  induction cs generalizing m with
  | nil => exact .inr h
  | cons d cs ih =>
    rcases ih h with h | h
    · exact .inl (by simp [h])
    · rcases Memory.mem_write h with ⟨rfl, _⟩ | h
      · exact .inl (by simp)
      · exact .inr h

/-- Writing a list leaves every address outside it alone. -/
theorem Memory.read_writeAll_other {m : Memory} {cs : List Host.Cell} {x : Nat}
    (h : x ∉ cs.map Prod.fst) : Memory.read (Memory.writeAll m cs) x = Memory.read m x := by
  induction cs generalizing m with
  | nil => rfl
  | cons d cs ih =>
    simp only [List.map_cons, List.mem_cons, not_or] at h
    rw [Memory.writeAll_cons, ih h.2, Memory.read_write_other _ h.1]

/-- Writing a list with no address twice: each of its addresses reads its byte. -/
theorem Memory.read_writeAll_mem {m : Memory} {cs : List Host.Cell} {c : Host.Cell}
    (hm : Memory.wf m) (hn : (cs.map Prod.fst).Nodup) (hc : c ∈ cs) :
    Memory.read (Memory.writeAll m cs) c.1 = c.2 := by
  induction cs generalizing m with
  | nil => simp at hc
  | cons d cs ih =>
    simp only [List.map_cons, List.nodup_cons] at hn
    rw [Memory.writeAll_cons]
    rcases List.mem_cons.1 hc with rfl | hc
    · rw [Memory.read_writeAll_other hn.1, Memory.read_write_same _ _ hm]
    · exact ih (Memory.write_wf _ _ hm) hn.2 hc

/-- Two memories that agree on n bytes from a on read the same number there (R83). -/
theorem Memory.readLE_congr {m m' : Memory} {a n : Nat}
    (h : ∀ k < n, Memory.read m (a + k) = Memory.read m' (a + k)) :
    Memory.readLE m a n = Memory.readLE m' a n := by
  induction n generalizing a with
  | zero => rfl
  | succ n ih =>
    have h0 := h 0 (by omega)
    rw [Nat.add_zero] at h0
    simp only [Memory.readLE, h0]
    rw [ih fun k hk => by have := h (k + 1) (by omega); rwa [Nat.add_assoc, Nat.add_comm 1 k]]

/-- Memory that holds the bytes of v reads v (R83, R92). -/
theorem Memory.readLE_of_cells {m : Memory} {a v n : Nat} (hv : v < 256 ^ n)
    (h : ∀ c ∈ cellsLE a v n, Memory.read m c.1 = c.2) : Memory.readLE m a n = v := by
  induction n generalizing a v with
  | zero => simp only [pow_zero] at hv; simp only [Memory.readLE]; omega
  | succ n ih =>
    have h0 : Memory.read m a = BitVec.ofNat 8 v := h (a, BitVec.ofNat 8 v) (by simp [cellsLE])
    have hr : Memory.readLE m (a + 1) n = v / 256 :=
      ih (Nat.div_lt_of_lt_mul (by rw [pow_succ] at hv; omega)) fun c hc => h c (by simp [cellsLE, hc])
    simp only [Memory.readLE, h0, hr, BitVec.toNat_ofNat]
    omega

/-- The addresses cellsLE writes are a, ..., a+n-1. -/
theorem map_fst_cellsLE (a v n : Nat) : (cellsLE a v n).map Prod.fst = List.range' a n := by
  induction n generalizing a v with
  | zero => rfl
  | succ n ih => simp [cellsLE, ih, List.range'_succ]

theorem map_fst_freeCells (addrs : List Nat) (ctr : Nat) :
    (freeCells addrs ctr).map Prod.fst = addrs := by
  simp [freeCells, List.map_map, Function.comp_def, List.zipIdx_map_fst]

/-- A number of n bytes is below 256^n (R83). -/
theorem Memory.readLE_lt (m : Memory) (a n : Nat) : Memory.readLE m a n < 256 ^ n := by
  induction n generalizing a with
  | zero => simp [Memory.readLE]
  | succ n ih =>
    have h1 := (Memory.read m a).isLt
    have h2 := ih (a + 1)
    simp only [Memory.readLE, pow_succ]
    omega

end Sys2Proof.Machine
end

