-- ==== Sys2Proof/Laws/Plane.lean ====
section
/-! SUPPORT. Planes in memory: where their samples are, and what writing one leaves (20_memory.md R85, R91,
R92, R95). -/

namespace Sys2Proof.Machine

theorem mem_planeCells {bps : Nat} {d : Desc} {f : Nat → Nat → Option Nat} {c : Host.Cell} :
    c ∈ planeCells bps d f ↔
      ∃ y < d.height.toNat, ∃ x < d.width.toNat, ∃ v, f y x = some v ∧
        c ∈ cellsLE (d.addr bps y x) v bps := by
  simp only [planeCells, List.mem_flatMap, List.mem_range]
  constructor
  · rintro ⟨y, hy, x, hx, h⟩
    cases hf : f y x with
    | none => simp [hf] at h
    | some v => exact ⟨y, hy, x, hx, v, hf, by simpa [hf] using h⟩
  · rintro ⟨y, hy, x, hx, v, hf, h⟩
    exact ⟨y, hy, x, hx, by simpa [hf] using h⟩

/-- The addresses a plane's cells have: the bytes of the samples that are written. -/
theorem mem_planeCells_addr {bps : Nat} {d : Desc} {f : Nat → Nat → Option Nat} {a : Nat} :
    a ∈ (planeCells bps d f).map Prod.fst ↔
      ∃ y < d.height.toNat, ∃ x < d.width.toNat, (f y x).isSome = true ∧
        ∃ k < bps, a = d.addr bps y x + k := by
  simp only [List.mem_map, mem_planeCells]
  constructor
  · rintro ⟨c, ⟨y, hy, x, hx, v, hf, hc⟩, rfl⟩
    have : c.1 ∈ (cellsLE (d.addr bps y x) v bps).map Prod.fst := List.mem_map_of_mem hc
    rw [map_fst_cellsLE, List.mem_range'_1] at this
    exact ⟨y, hy, x, hx, by simp [hf], c.1 - d.addr bps y x, by omega, by omega⟩
  · rintro ⟨y, hy, x, hx, hf, k, hk, rfl⟩
    obtain ⟨v, hv⟩ := Option.isSome_iff_exists.1 hf
    have : d.addr bps y x + k ∈ (cellsLE (d.addr bps y x) v bps).map Prod.fst := by
      rw [map_fst_cellsLE, List.mem_range'_1]; omega
    obtain ⟨c, hc, he⟩ := List.mem_map.1 this
    exact ⟨c, ⟨y, hy, x, hx, v, hv, hc⟩, he⟩

/-- Two samples of a plane with stride >= W * BPS share no byte. -/
theorem Desc.addr_inj {d : Desc} {bps y x y' x' k k' : Nat}
    (hs : d.width.toNat * bps ≤ d.stride.toNat) (hx : x < d.width.toNat) (hx' : x' < d.width.toNat)
    (hk : k < bps) (hk' : k' < bps) (h : d.addr bps y x + k = d.addr bps y' x' + k') :
    y = y' ∧ x = x' ∧ k = k' := by
  unfold Desc.addr at h
  have row : ∀ {x k : Nat}, x < d.width.toNat → k < bps → x * bps + k < d.stride.toNat := by
    intro x k hx hk
    have : (x + 1) * bps ≤ d.width.toNat * bps := Nat.mul_le_mul_right _ hx
    rw [Nat.add_mul, Nat.one_mul] at this
    omega
  have h1 := row hx hk
  have h2 := row hx' hk'
  have hmod : (y * d.stride.toNat + (x * bps + k)) % d.stride.toNat =
      (y' * d.stride.toNat + (x' * bps + k')) % d.stride.toNat := by
    congr 1; omega
  rw [Nat.mul_add_mod', Nat.mul_add_mod', Nat.mod_eq_of_lt h1, Nat.mod_eq_of_lt h2] at hmod
  have hy : y * d.stride.toNat = y' * d.stride.toNat := by omega
  have hyy : y = y' := Nat.eq_of_mul_eq_mul_right (by omega) hy
  have hcol : (x * bps + k) / bps = (x' * bps + k') / bps := by rw [hmod]
  have hb : 0 < bps := by omega
  rw [Nat.mul_comm x, Nat.mul_comm x', Nat.mul_add_div hb, Nat.mul_add_div hb,
    Nat.div_eq_of_lt hk, Nat.div_eq_of_lt hk'] at hcol
  have hxx : x = x' := by omega
  subst hxx
  exact ⟨hyy, rfl, by omega⟩

/-- Every sample byte of a plane lies in its extent (R91). -/
theorem Desc.addr_le_last {d : Desc} {bps y x k : Nat} (hy : y < d.height.toNat)
    (hx : x < d.width.toNat) (hk : k < bps) :
    d.base.toNat ≤ d.addr bps y x + k ∧ d.addr bps y x + k ≤ d.last bps := by
  unfold Desc.addr Desc.last
  have h1 : (x + 1) * bps ≤ d.width.toNat * bps := Nat.mul_le_mul_right _ hx
  have h2 : y * d.stride.toNat ≤ (d.height.toNat - 1) * d.stride.toNat :=
    Nat.mul_le_mul_right _ (by omega)
  rw [Nat.add_mul, Nat.one_mul] at h1
  omega

theorem nodup_flatMap_of_disjoint {α β : Type} {l : List α} {g : α → List β} (hl : l.Nodup)
    (hg : ∀ a ∈ l, (g a).Nodup) (hd : ∀ a ∈ l, ∀ b ∈ l, a ≠ b → ∀ z ∈ g a, z ∉ g b) :
    (l.flatMap g).Nodup := by
  induction l with
  | nil => simp
  | cons a l ih =>
    rw [List.flatMap_cons, List.nodup_append]
    refine ⟨hg a (by simp), ih (List.nodup_cons.1 hl).2 (fun b hb => hg b (by simp [hb]))
      (fun b hb c hc => hd b (by simp [hb]) c (by simp [hc])), ?_⟩
    rintro z hz w hw rfl
    obtain ⟨b, hb, hzb⟩ := List.mem_flatMap.1 hw
    have hab : a ≠ b := fun e => (List.nodup_cons.1 hl).1 (e ▸ hb)
    exact hd a (by simp) b (by simp [hb]) hab z hz hzb

/-- A command writes no byte twice (R92). -/
theorem planeCells_nodup {bps : Nat} {d : Desc} (f : Nat → Nat → Option Nat)
    (hs : d.width.toNat * bps ≤ d.stride.toNat) :
    ((planeCells bps d f).map Prod.fst).Nodup := by
  simp only [planeCells, List.map_flatMap]
  have cell : ∀ y x z, z ∈ ((match f y x with
      | some v => cellsLE (d.addr bps y x) v bps
      | none => [] : List Host.Cell).map Prod.fst) → ∃ k < bps, z = d.addr bps y x + k := by
    intro y x z hz
    cases hf : f y x with
    | none => simp [hf] at hz
    | some v =>
      rw [hf] at hz
      simp only [map_fst_cellsLE, List.mem_range'_1] at hz
      exact ⟨z - d.addr bps y x, by omega, by omega⟩
  refine nodup_flatMap_of_disjoint List.nodup_range (fun y _ => ?_) ?_
  · refine nodup_flatMap_of_disjoint List.nodup_range (fun x _ => ?_) ?_
    · cases hf : f y x with
      | none => simp
      | some v => simpa [map_fst_cellsLE] using List.nodup_range'
    · intro x hx x' hx' hne z hz hz'
      rw [List.mem_range] at hx hx'
      obtain ⟨k, hk, rfl⟩ := cell y x z hz
      obtain ⟨k', hk', h⟩ := cell y x' _ hz'
      exact hne (Desc.addr_inj hs hx hx' hk hk' h).2.1
  · intro y _ y' _ hne z hz hz'
    simp only [List.mem_flatMap, List.mem_range] at hz hz'
    obtain ⟨x, hx, hz⟩ := hz
    obtain ⟨x', hx', hz'⟩ := hz'
    obtain ⟨k, hk, rfl⟩ := cell y x z hz
    obtain ⟨k', hk', h⟩ := cell y' x' _ hz'
    exact hne (Desc.addr_inj hs hx hx' hk hk' h).1

/-- A written sample reads as the value put (R92). -/
theorem sample_writeAll {m : Memory} {bps : Nat} {d : Desc} {f : Nat → Nat → Option Nat} {y x v : Nat}
    (hm : Memory.wf m) (hz : d.zero = false) (hs : d.width.toNat * bps ≤ d.stride.toNat)
    (hy : y < d.height.toNat) (hx : x < d.width.toNat) (hf : f y x = some v) (hv : v < 256 ^ bps) :
    sample (Memory.writeAll m (planeCells bps d f)) bps d y x = v := by
  simp only [sample, hz, Bool.false_eq_true, if_false]
  refine Memory.readLE_of_cells hv fun c hc => ?_
  exact Memory.read_writeAll_mem hm (planeCells_nodup f hs)
    (mem_planeCells.2 ⟨y, hy, x, hx, v, hf, hc⟩)

/-- A sample whose bytes are not written reads as before. -/
theorem sample_congr {m m' : Memory} {bps : Nat} {d : Desc} {y x : Nat}
    (h : d.zero = false → ∀ k < bps,
      Memory.read m (d.addr bps y x + k) = Memory.read m' (d.addr bps y x + k)) :
    sample m bps d y x = sample m' bps d y x := by
  unfold sample
  split
  · rfl
  · rename_i hz
    exact Memory.readLE_congr (h (Bool.eq_false_of_not_eq_true hz))

/-- The destination after a commit that no host write disturbed (R95). -/
theorem sampleAt_commitPlane {s : State} {dst : Nat} {f : Nat → Nat → Option Nat} {y x v : Nat}
    (ht : s.hostTouched = false) (hm : Memory.wf s.mem)
    (hz : (s.latch.desc dst).zero = false)
    (hs : s.latch.w dst * s.latch.fmt.bps ≤ (s.latch.desc dst).stride.toNat)
    (hy : y < s.latch.h dst) (hx : x < s.latch.w dst) (hf : f y x = some v)
    (hv : v < 256 ^ s.latch.fmt.bps) :
    (commitPlane dst f s).sampleAt dst y x = v := by
  unfold State.sampleAt commitPlane
  simp only [ht, Bool.false_eq_true, if_false]
  exact sample_writeAll hm hz hs hy hx hf hv

/-- Bytes outside the destination's samples are kept by a commit, disturbed or not (R92). -/
theorem read_commitPlane_other {s : State} {dst : Nat} {f : Nat → Nat → Option Nat} {a : Nat}
    (ha : ∀ y < s.latch.h dst, ∀ x < s.latch.w dst, ∀ k < s.latch.fmt.bps,
      a ≠ (s.latch.desc dst).addr s.latch.fmt.bps y x + k) :
    Memory.read (commitPlane dst f s).mem a = Memory.read s.mem a := by
  unfold commitPlane
  split
  · simp only [scramble_mem]
    refine Memory.read_writeAll_other ?_
    rw [map_fst_freeCells, planeAddrs, mem_planeCells_addr]
    rintro ⟨y, hy, x, hx, _, k, hk, rfl⟩
    exact ha y hy x hx k hk rfl
  · refine Memory.read_writeAll_other ?_
    rw [mem_planeCells_addr]
    rintro ⟨y, hy, x, hx, _, k, hk, rfl⟩
    exact ha y hy x hx k hk rfl

/-- A commit keeps the canonical form of the memory. -/
theorem commitPlane_mem_wf {s : State} {dst : Nat} {f : Nat → Nat → Option Nat}
    (h : Memory.wf s.mem) : Memory.wf (commitPlane dst f s).mem := by
  unfold commitPlane
  split
  · exact Memory.writeAll_wf _ h
  · exact Memory.writeAll_wf _ h

end Sys2Proof.Machine
end

