-- ==== Sys2Proof/Laws/Operands.lean ====
section
/-! SUPPORT. Operands: each check against the spec's condition for passing it (60_exceptions.md R246 to R250),
border reads inside the plane (R88, R89), and the bound of a sample. -/

namespace Sys2Proof.Machine

/-! ### Checks -/

theorem fmtFailure_eq_none {l : CmdRegs} : fmtFailure l = none ↔ l.fmt.legal := by
  rw [fmtFailure, failIf_eq_none, not_not]

/-- The descriptor check passes iff the operand is legal (R247, R249). -/
theorem descFailure_eq_none {p : Params} {l : CmdRegs} {dst : Option Nat} {o : Operand} :
    descFailure p l dst o = none ↔ operandOk p l dst o := by
  rw [descFailure, failIf_eq_none]
  simp only [Desc.violates, operandOk, CmdRegs.w, CmdRegs.h, decide_eq_true_eq]
  cases hz : (l.desc o.slot).zero <;>
    simp only [Bool.false_eq_true, and_false, and_true, false_or, true_and, false_and, or_false,
      imp_false, reduceCtorEq, false_implies, implies_true, forall_const]
  · constructor
    · intro h; push Not at h; refine ⟨by omega, by omega, by omega, by omega, by omega, fun hb => ?_, by omega⟩
      have := h.2.2.1 hb; omega
    · rintro ⟨h1, h2, h3, h4, h5, h6, h7⟩
      push Not
      refine ⟨by omega, by omega, fun hb => ?_, by omega⟩
      have := h6 hb; omega
  · constructor
    · intro h; push Not at h; exact ⟨h.1, by omega, by omega, by omega, by omega⟩
    · rintro ⟨h1, h2, h3, h4, h5⟩; push Not; exact ⟨h1, by omega⟩

theorem descFailure_of_not {p : Params} {l : CmdRegs} {dst : Option Nat} {o : Operand}
    (h : ¬ operandOk p l dst o) :
    descFailure p l dst o = some ⟨.eDesc, BitVec.ofNat 32 o.slot⟩ := by
  rw [← descFailure_eq_none, descFailure, failIf_eq_none, not_not] at h
  exact failIf_of h

theorem shapeFailure_eq_none {l : CmdRegs} {slot w h : Nat} :
    shapeFailure l slot w h = none ↔ l.isSize slot w h := by
  rw [shapeFailure, failIf_eq_none, not_not]

/-- The overlap check passes iff the source does not clash with the destination (R93). -/
theorem overlapFailure_eq_none {l : CmdRegs} {i : Instr} {dst src : Nat} :
    overlapFailure l (aliasAllowed i) dst src = none ↔ ¬ clashes l i dst src := by
  rw [overlapFailure, failIf_eq_none]

theorem overlapFailure_of {l : CmdRegs} {i : Instr} {dst src : Nat} (h : clashes l i dst src) :
    overlapFailure l (aliasAllowed i) dst src =
      some ⟨.eOverlap, BitVec.ofNat 32 (dst <<< 8 ||| src)⟩ := failIf_of h

/-! ### Border reads -/

/-- A reflected row lands inside a layer of at least d + 1 rows (R89, R247). -/
theorem rrow_lt {y h : Nat} {d : Int} (_hy : y < h) (hd : d.natAbs + d.natAbs ≤ h) : rrow y d h < h := by
  unfold rrow; split <;> omega

@[simp] theorem rrow_zero {y h : Nat} (_hy : y < h) : rrow y 0 h = y := by
  unfold rrow; split <;> omega

/-- A mirrored column lands inside a plane of at least 2 columns (R88, R247). -/
theorem mirror_lt {x w : Nat} {e : Int} (hx : x < w) (hw : 2 ≤ w) (he : e.natAbs ≤ 1) :
    mirror ((x : Int) + e) w < w := by
  unfold mirror; split
  · omega
  · split <;> omega

@[simp] theorem mirror_nat {x w : Nat} (hx : x < w) : mirror (x : Int) w = x := by
  unfold mirror; split
  · omega
  · split <;> omega

/-! ### Samples -/

theorem Fmt.bps_eq (f : Fmt) : f.bps = 1 ∨ f.bps = 2 := by unfold Fmt.bps; split <;> simp

/-- A sample fits its container (R83). -/
theorem sample_lt (m : Memory) (bps : Nat) (d : Desc) (y x : Nat) : sample m bps d y x < 256 ^ bps := by
  unfold sample; split
  · exact Nat.pow_pos (by decide)
  · exact Memory.readLE_lt _ _ _

theorem sampleAt_lt (s : State) (slot y x : Nat) : s.sampleAt slot y x < 256 ^ s.latch.fmt.bps :=
  sample_lt _ _ _ _ _

/-- PEAK fits the container (R9). -/
theorem Fmt.peak_lt {f : Fmt} (h : f.legal) : f.peak < 256 ^ f.bps := by
  obtain ⟨h1, h2, _⟩ := h
  unfold Fmt.peak Fmt.bps
  split
  · simp_all
  · have : 2 ^ f.bitdepth.toNat ≤ 2 ^ 16 := Nat.pow_le_pow_right (by decide) h2
    have : 0 < 2 ^ f.bitdepth.toNat := Nat.pow_pos (by decide)
    omega

theorem minOf_le_of_mem {l : List Nat} {x : Nat} (h : x ∈ l) : minOf l ≤ x := by
  have key : ∀ (l : List Nat) (a x : Nat), x = a ∨ x ∈ l → l.foldl min a ≤ x := by
    intro l
    induction l with
    | nil => intro a x h; simp at h; simp [h]
    | cons b l ih =>
      intro a x h
      simp only [List.foldl_cons]
      rcases h with rfl | h
      · exact Nat.le_trans (ih _ _ (.inl rfl)) (Nat.min_le_left _ _)
      · rcases List.mem_cons.1 h with rfl | h
        · exact Nat.le_trans (ih _ _ (.inl rfl)) (Nat.min_le_right _ _)
        · exact ih _ _ (.inr h)
  cases l with
  | nil => simp at h
  | cons a l => exact key l a x (List.mem_cons.1 h)

theorem minOf_mem {l : List Nat} (h : l ≠ []) : minOf l ∈ l := by
  have key : ∀ (l : List Nat) (a : Nat), l.foldl min a = a ∨ l.foldl min a ∈ l := by
    intro l
    induction l with
    | nil => intro a; simp
    | cons b l ih =>
      intro a
      simp only [List.foldl_cons, List.mem_cons]
      rcases ih (min a b) with h | h
      · rw [h]; rcases Nat.le_total a b with hab | hab
        · exact .inl (Nat.min_eq_left hab)
        · exact .inr (.inl (Nat.min_eq_right hab))
      · exact .inr (.inr h)
  cases l with
  | nil => exact absurd rfl h
  | cons a l => exact List.mem_cons.2 (key l a)

theorem le_maxOf_of_mem {l : List Nat} {x : Nat} (h : x ∈ l) : x ≤ maxOf l := by
  have key : ∀ (l : List Nat) (a x : Nat), x ≤ a ∨ x ∈ l → x ≤ l.foldl max a := by
    intro l
    induction l with
    | nil => intro a x h; simp at h; simpa using h
    | cons b l ih =>
      intro a x h
      simp only [List.foldl_cons]
      rcases h with h | h
      · exact ih _ _ (.inl (Nat.le_trans h (Nat.le_max_left _ _)))
      · rcases List.mem_cons.1 h with rfl | h
        · exact ih _ _ (.inl (Nat.le_max_right _ _))
        · exact ih _ _ (.inr h)
  exact key l 0 x (.inr h)

theorem maxOf_mem {l : List Nat} : maxOf l = 0 ∨ maxOf l ∈ l := by
  have key : ∀ (l : List Nat) (a : Nat), l.foldl max a = a ∨ l.foldl max a ∈ l := by
    intro l
    induction l with
    | nil => intro a; simp
    | cons b l ih =>
      intro a
      simp only [List.foldl_cons, List.mem_cons]
      rcases ih (max a b) with h | h
      · rw [h]; rcases Nat.le_total a b with hab | hab
        · exact .inr (.inl (Nat.max_eq_right hab))
        · exact .inl (Nat.max_eq_left hab)
      · exact .inr (.inr h)
  exact key l 0

end Sys2Proof.Machine
end

