-- ==== Sys2Proof/Laws/Legal.lean ====
section
/-! SUPPORT. The checks of a command in five groups, configuration, operands, shapes, overlap and size, and when each
passes (60_exceptions.md R246). -/

namespace Sys2Proof.Machine

/-- Steps 3 to 6 of a command (R246). -/
def configFailures (p : Params) (l : CmdRegs) : Instr → List (Option Failure)
  | .tmask _ _ pclass =>
      [fmtFailure l, failIf (5 < l.ttype.toNat) .eCfg 0x024,
        overrideFailure l.fmt (quarterReg l pclass), overrideFailure l.fmt (halfReg l pclass),
        planeOffFailure (quarterReg l pclass), planeOffFailure (halfReg l pclass)]
  | .mmask _ _ _ _ _ => [fmtFailure l]
  | .mand _ _ _ => [fmtFailure l]
  | .mcomb _ _ => [fmtFailure l]
  | .tbuild _ cbase ccnt obase ocnt _ _ _ cfirst _ =>
      [fmtFailure l, failIf (¬ (6 ≤ l.length.toNat ∧ l.length.toNat ≤ p.lmax)) .eCfg 0x048,
        failIf (l.mtype.toNat = 3) .eCfg 0x04C] ++
      countFailures l.length.toNat cbase ccnt obase ocnt cfirst
  | .iscombed _ _ _ => [fmtFailure l, failIf (¬ l.icfg.legal) .eCfg 0x058]

/-- Step 7 (R246). -/
def operandFailures (p : Params) (l : CmdRegs) (i : Instr) : List (Option Failure) :=
  (operandsOf l i).map (descFailure p l (destSlot i))

/-- Step 8 (R246). -/
def shapeFailures (l : CmdRegs) (i : Instr) : List (Option Failure) :=
  (shapesOf l i).map fun q => failIf (q.2 = false) .eShape q.1

/-- Step 9 (R246). -/
def overlapFailures (l : CmdRegs) (i : Instr) : List (Option Failure) :=
  match destSlot i with
  | some dst => (sourceSlots l i).map (overlapFailure l (aliasAllowed i) dst)
  | none => []

/-- Step 10 (R246). -/
def sizeFailures (p : Params) (l : CmdRegs) : Instr → List (Option Failure)
  | .iscombed ys _ _ => [failIf (p.wmax < l.w ys ∨ p.hmax < l.h ys) .eSize ys]
  | .tmask _ _ _ => []
  | .mmask _ _ _ _ _ => []
  | .mand _ _ _ => []
  | .mcomb _ _ => []
  | .tbuild _ _ _ _ _ _ _ _ _ _ => []

theorem failIf_congr {a b : Prop} [Decidable a] [Decidable b] {c : ErrCode} {n : Nat} (h : a ↔ b) :
    failIf a c n = failIf b c n := by
  simp only [failIf, h]

/-- A shape check in the form of `shapesOf`. -/
theorem shapeFailure_eq {l : CmdRegs} {slot w h : Nat} :
    shapeFailure l slot w h = failIf (decide (l.isSize slot w h) = false) .eShape slot :=
  failIf_congr (by simp)

/-- Every command makes its checks group by group. -/
theorem checkOf_eq (i : Instr) (s : State) :
    checkOf i s = firstFailure (configFailures s.params s.latch i ++
      (operandFailures s.params s.latch i ++ (shapeFailures s.latch i ++
        (overlapFailures s.latch i ++ sizeFailures s.params s.latch i)))) := by
  cases i with
  | tmask src dst pclass =>
    simp only [checkOf, tmaskCheck, configFailures, operandFailures, operandsOf, destSlot,
      shapeFailures, shapesOf, shapeFailure_eq, overlapFailures, sourceSlots, sizeFailures,
      aliasAllowed, List.map_cons, List.map_nil, List.cons_append, List.nil_append]
  | mmask src1 msk1 src2 msk2 dst =>
    simp only [checkOf, mmaskCheck, mmaskOperands, configFailures, operandFailures, operandsOf, destSlot,
      shapeFailures, shapesOf, shapeFailure_eq, overlapFailures, sourceSlots, sizeFailures,
      aliasAllowed, List.map_cons, List.map_nil, List.cons_append, List.nil_append]
  | mand a b dst =>
    have h : failIf (s.latch.h a % 2 = 1) .eShape a =
        failIf (decide (s.latch.h a % 2 = 0) = false) .eShape a := failIf_congr (by simp)
    simp only [checkOf, mandCheck, configFailures, operandFailures, operandsOf, destSlot,
      shapeFailures, shapesOf, shapeFailure_eq, overlapFailures, sourceSlots, sizeFailures, h,
      aliasAllowed, List.map_cons, List.map_nil, List.cons_append, List.nil_append]
  | mcomb src dst =>
    have h : failIf (s.latch.h src % 2 = 1) .eShape src =
        failIf (decide (s.latch.h src % 2 = 0) = false) .eShape src := failIf_congr (by simp)
    simp only [checkOf, mcombCheck, configFailures, operandFailures, operandsOf, destSlot,
      shapeFailures, shapesOf, shapeFailure_eq, overlapFailures, sourceSlots, sizeFailures, h,
      aliasAllowed, List.map_cons, List.map_nil, List.cons_append, List.nil_append]
  | tbuild dst cbase ccnt obase ocnt order field rowpar cfirst wother =>
    simp only [checkOf, tbuildCheck, configFailures, operandFailures, operandsOf, destSlot,
      shapeFailures, shapesOf, shapeFailure_eq, overlapFailures, sourceSlots, sizeFailures,
      aliasAllowed, List.map_cons, List.map_map, Function.comp_def, List.cons_append, List.nil_append,
      List.append_assoc, List.append_nil]
  | iscombed ys us vs =>
    have h : failIf (s.latch.w ys % 2 ^ s.latch.fmt.ssw.toNat ≠ 0 ∨
          s.latch.h ys % 2 ^ s.latch.fmt.ssh.toNat ≠ 0) .eShape ys =
        failIf (decide (s.latch.w ys % 2 ^ s.latch.fmt.ssw.toNat = 0 ∧
          s.latch.h ys % 2 ^ s.latch.fmt.ssh.toNat = 0) = false) .eShape ys :=
      failIf_congr (by rw [decide_eq_false_iff_not, not_and_or])
    cases hc : s.latch.icfg.chroma <;>
      simp only [checkOf, iscombedCheck, configFailures, operandFailures, operandsOf, destSlot, hc,
        shapeFailures, shapesOf, shapeFailure_eq, overlapFailures, sourceSlots, sizeFailures, h,
        chromaShapeFailures, iscombedMinH, if_true, Bool.false_eq_true, if_false,
        List.map_cons, List.map_nil, List.cons_append, List.nil_append]

/-! ### When each group passes -/

theorem configFailures_eq_none {p : Params} {l : CmdRegs} {i : Instr} :
    (∀ c ∈ configFailures p l i, c = none) ↔ configLegal p l i := by
  cases i with
  | tmask src dst pclass =>
    simp only [configFailures, configLegal, List.forall_mem_cons, List.not_mem_nil, false_imp_iff, implies_true,
      and_true, fmtFailure_eq_none, overrideFailure, planeOffFailure, failIf_eq_none, not_not,
      overrideLegal, Nat.not_lt]
    cases pclass <;> simp only [quarterReg, halfReg, if_true, Bool.false_eq_true, if_false] <;>
      constructor <;> rintro ⟨h1, h2, h3⟩ <;> exact ⟨h1, h2, by omega⟩
  | mmask | mand | mcomb =>
    simp only [configFailures, configLegal, List.forall_mem_cons, List.not_mem_nil, false_imp_iff, implies_true,
      and_true, fmtFailure_eq_none]
  | tbuild dst cbase ccnt obase ocnt order field rowpar cfirst wother =>
    have hm : l.mtype.toNat = 3 ↔ l.mtype = 3 := by
      rw [← BitVec.toNat_inj]; rfl
    simp only [configFailures, configLegal, countFailures, List.cons_append, List.nil_append,
      List.forall_mem_cons, List.not_mem_nil, false_imp_iff, implies_true,
      and_true, fmtFailure_eq_none, failIf_eq_none, not_not, Nat.not_lt, hm, and_assoc, ne_eq]
    cases cfirst <;> simp
  | iscombed ys us vs =>
    simp only [configFailures, configLegal, List.forall_mem_cons, List.not_mem_nil, false_imp_iff, implies_true,
      and_true, fmtFailure_eq_none, failIf_eq_none, not_not]

theorem operandFailures_eq_none {p : Params} {l : CmdRegs} {i : Instr} :
    (∀ c ∈ operandFailures p l i, c = none) ↔
      ∀ o ∈ operandsOf l i, operandOk p l (destSlot i) o := by
  simp only [operandFailures, List.forall_mem_map, descFailure_eq_none]

theorem shapeFailures_eq_none {l : CmdRegs} {i : Instr} :
    (∀ c ∈ shapeFailures l i, c = none) ↔ ∀ q ∈ shapesOf l i, q.2 = true := by
  simp only [shapeFailures, List.forall_mem_map, failIf_eq_none, Bool.not_eq_false]

theorem overlapFailures_eq_none {l : CmdRegs} {i : Instr} :
    (∀ c ∈ overlapFailures l i, c = none) ↔
      ∀ dst ∈ destSlot i, ∀ src ∈ sourceSlots l i, ¬ clashes l i dst src := by
  rw [overlapFailures]
  cases destSlot i <;> simp [overlapFailure_eq_none]

theorem sizeFailures_eq_none {p : Params} {l : CmdRegs} {i : Instr} :
    (∀ c ∈ sizeFailures p l i, c = none) ↔ sizeLegal p l i := by
  cases i <;> simp [sizeFailures, sizeLegal, failIf_eq_none]

/-- Every check passes iff the command is legal. -/
theorem checkOf_eq_none {i : Instr} {s : State} : checkOf i s = none ↔ CommandLegal i s := by
  rw [checkOf_eq, firstFailure_eq_none]
  simp only [List.forall_mem_append, configFailures_eq_none, operandFailures_eq_none,
    shapeFailures_eq_none, overlapFailures_eq_none, sizeFailures_eq_none]
  exact ⟨fun ⟨h1, h2, h3, h4, h5⟩ => ⟨h1, h2, h3, h4, h5⟩,
    fun h => ⟨h.config, h.operands, h.shapes, h.overlap, h.size⟩⟩

/-- A legal command succeeds with its effect (R245). -/
theorem exec_of_legal {i : Instr} {s : State} (h : CommandLegal i s) :
    exec i s = .next (succeedCommand (effectOf i s)) := exec_of_check_none (checkOf_eq_none.2 h)

/-- The destination is one of the operands. -/
theorem dest_operand {l : CmdRegs} {i : Instr} {dst : Nat} (h : destSlot i = some dst) :
    ∃ o ∈ operandsOf l i, o.slot = dst := by
  cases i <;> simp_all [destSlot, operandsOf]

/-- Every source is one of the operands. -/
theorem source_operand {l : CmdRegs} {i : Instr} {src : Nat} (h : src ∈ sourceSlots l i) :
    ∃ o ∈ operandsOf l i, o.slot = src := by
  cases i with
  | iscombed ys us vs =>
    simp only [sourceSlots] at h
    exact ⟨_, List.mem_map_of_mem h, rfl⟩
  | tbuild =>
    simp only [sourceSlots] at h
    exact ⟨_, List.mem_cons_of_mem _ (List.mem_map_of_mem h), rfl⟩
  | tmask | mmask | mand | mcomb =>
    simp only [sourceSlots, List.mem_cons, List.not_mem_nil, or_false] at h
    simp only [operandsOf, List.mem_cons, List.not_mem_nil, or_false, exists_eq_or_imp, exists_eq_left]
    omega

/-- The destination of a legal command: no ZERO slot, rows that do not overlap, an extent inside the memory
(R247, R249). -/
theorem CommandLegal.dest {i : Instr} {s : State} {dst : Nat} (h : CommandLegal i s)
    (hd : destSlot i = some dst) :
    (s.latch.desc dst).zero = false ∧
      s.latch.w dst * s.latch.fmt.bps ≤ (s.latch.desc dst).stride.toNat ∧
      1 ≤ s.latch.w dst ∧ 1 ≤ s.latch.h dst ∧
      (s.latch.desc dst).last s.latch.fmt.bps ≤ s.params.memSize - 1 := by
  obtain ⟨o, ho, rfl⟩ := dest_operand (l := s.latch) hd
  obtain ⟨h1, h2, _, h4, _, h6⟩ := h.operands o ho
  have hz := h1 hd
  exact ⟨hz, (h6 hz).1, h2, h4, (h6 hz).2.2⟩

/-- Every legal command has a legal format (R39). -/
theorem CommandLegal.fmt {i : Instr} {s : State} (h : CommandLegal i s) : s.latch.fmt.legal := by
  have := h.config
  cases i <;> simp only [configLegal] at this <;> first | exact this | exact this.1

/-- STATUS after a success of an effect that keeps it. -/
theorem status_effectOf (i : Instr) (s : State) : (effectOf i s).status = s.status := by
  cases i <;> simp [effectOf, effectFrom]

/-- A check group before the failing one changes nothing. -/
theorem firstFailure_append_some {l r : List (Option Failure)} {f : Failure}
    (h : ∀ c ∈ l, c = none) : firstFailure (l ++ some f :: r) = some f := by
  rw [firstFailure_append h, firstFailure_some_cons]

/-- The first failure of a prefix of the checks is the failure of all. -/
theorem firstFailure_append_left {l r : List (Option Failure)} {f : Failure}
    (h : firstFailure l = some f) : firstFailure (l ++ r) = some f := by
  induction l with
  | nil => simp at h
  | cons c l ih => cases c <;> simp_all

end Sys2Proof.Machine
end

