-- ==== Sys2Proof/Laws/HostBus.lean ====
section
/-! SUPPORT. What a host access, a reset or a block turn can do (70_reset_and_hazards.md R274), and the register map
(10_state.md R59). -/

namespace Sys2Proof.Machine

/-- Everything one step's act can do when it answers a next state. -/
theorem act_cases {a : HostAct} {s t : State} (h : act a s = .next t) :
  (∃ o n, a = .regRead o n ∧ accessLegal o n ∧ t = { s with busData := readOffset s o.toNat }) ∨
  (∃ o n v, a = .regWrite o n v ∧ accessLegal o n ∧ t = writeOffset s v o.toNat) ∨
  (∃ ad, a = .memRead ad ∧ ad.toNat < s.params.memSize ∧
    ∃ d c, t = { s with busData := d, freeCtr := c }) ∨
  (∃ ad v, a = .memWrite ad v ∧ ad.toNat < s.params.memSize ∧ t = { s with
      mem := Memory.write s.mem ad.toNat v
      hostTouched := s.hostTouched || s.inOperand ad.toNat }) ∨
  (a = .reset ∧ t = resetBlock s) ∨
  (a = .blockTurn ∧ s.status.busy = false ∧ t = s) ∨
  (a = .blockTurn ∧ s.status.busy = true ∧ 
    ((∃ f, t = failCommand f s) ∨
      ∃ i, decode s.latch.word = .ok i ∧ checkOf i s = none ∧ t = succeedCommand (effectOf i s))) := by
  cases a with
  | regRead o n =>
    simp only [act, hostRegRead] at h
    split at h
    · injection h with h; exact .inl ⟨o, n, rfl, by assumption, h.symm⟩
    · cases h
  | regWrite o n v =>
    simp only [act, hostRegWrite] at h
    split at h
    · injection h with h; exact .inr (.inl ⟨o, n, v, rfl, by assumption, h.symm⟩)
    · cases h
  | memRead ad =>
    simp only [act, hostMemRead] at h
    split at h
    · cases h
    · split at h <;> (injection h with h; subst h; exact .inr (.inr (.inl ⟨ad, rfl, by omega, _, _, rfl⟩)))
  | memWrite ad v =>
    simp only [act, hostMemWrite] at h
    split at h
    · cases h
    · injection h with h; exact .inr (.inr (.inr (.inl ⟨ad, v, rfl, by omega, h.symm⟩)))
  | reset => simp only [act] at h; injection h with h; exact .inr (.inr (.inr (.inr (.inl ⟨rfl, h.symm⟩))))
  | blockTurn =>
    simp only [act, blockTurn] at h
    split at h
    · rename_i hb
      refine .inr (.inr (.inr (.inr (.inr (.inr ⟨rfl, hb, ?_⟩)))))
      unfold runCommand at h
      split at h
      · injection h with h; exact .inl ⟨_, h.symm⟩
      · rename_i i hd
        rcases exec_cases h with ⟨f, _, h⟩ | ⟨hc, h⟩
        · exact .inl ⟨f, h⟩
        · exact .inr ⟨i, hd, hc, h⟩
    · rename_i hb
      injection h with h
      exact .inr (.inr (.inr (.inr (.inr (.inl ⟨rfl, by simpa using hb, h.symm⟩)))))

/-- Everything a register write can do (R32 to R37). -/
theorem writeOffset_cases (s : State) (v : Word) (o : Nat) :
   writeOffset s v o = s ∨ writeOffset s v o = dropWrite s ∧ s.status.busy = true ∨
   (s.status.busy = false ∧ ∃ l, writeOffset s v o = { s with regs := l }) ∨
   writeOffset s v o = { s with status := s.status.clear v } ∨
   (regAt o = some .ctrl ∧ writeOffset s v o = writeCtrl s v) := by
  unfold writeOffset
  cases hr : regAt o with
  | none => exact .inl rfl
  | some r =>
    dsimp only
    by_cases h1 : r = .ctrl
    · subst h1; exact .inr (.inr (.inr (.inr ⟨rfl, rfl⟩)))
    by_cases h2 : r = .status
    · subst h2; exact .inr (.inr (.inr (.inl rfl)))
    have : writeReg s v r = match writeCmdReg s.regs v r with
    | some l => if s.status.busy then dropWrite s else { s with regs := l }
    | none => s := by
      cases r <;> first | exact absurd rfl h1 | exact absurd rfl h2 | rfl
    rw [this]
    split
    · rename_i l _
      cases hb : s.status.busy
      · exact .inr (.inr (.inl ⟨rfl, l, by simp⟩))
      · exact .inr (.inl ⟨by simp, rfl⟩)
    · exact .inl rfl

/-- Everything a write to CTRL can do (R34). -/
theorem writeCtrl_cases (s : State) (v : Word) :
   let s1 := { s with ctrl := { ieDone := v.getLsbD 1, ieErr := v.getLsbD 2 } }
   (v.getLsbD 0 = false ∧ writeCtrl s v = s1) ∨
   (v.getLsbD 0 = true ∧ s.status.busy = true ∧ writeCtrl s v = dropWrite s1) ∨
   (v.getLsbD 0 = true ∧ s.status.busy = false ∧ writeCtrl s v = startCommand s1) := by
  unfold writeCtrl
  cases h : v.getLsbD 0
  · left; simp
  · cases hb : s.status.busy
    · right; right; simp
    · right; left; simp

/-- A reset scrambles bytes of the data memory only (R272). -/
theorem abandoned_lt (s : State) : ∀ a ∈ s.abandonedBytes, a < s.params.memSize := by
  intro a ha
  unfold State.abandonedBytes at ha
  split at ha
  · dsimp only at ha; split at ha
    · simp at ha; exact ha.2
    · simp at ha
  · simp at ha

/-- The register map by ranges (R59). -/
theorem regAt_cases (o : Nat) (h : o % 4 = 0) (hlt : o < 4096) : 
    (o ≤ 0x60 ∧ regAt o ≠ none) ∨
      (0x100 ≤ o ∧ o < 0x500 ∧ ∃ n : Fin 64,
        (o = 0x100 + 16 * n.1 ∧ regAt o = some (.dBase n)) ∨
        (o = 0x100 + 16 * n.1 + 4 ∧ regAt o = some (.dStride n)) ∨
        (o = 0x100 + 16 * n.1 + 8 ∧ regAt o = some (.dDim n)) ∨
        (o = 0x100 + 16 * n.1 + 12 ∧ regAt o = some (.dFlags n))) ∨
   (¬ (o ≤ 0x060 ∨ 0x100 ≤ o ∧ o ≤ 0x4FF) ∧ regAt o = none) := by
  by_cases h1 : o ≤ 0x60
  · left; refine ⟨h1, ?_⟩
    obtain ⟨k, rfl⟩ : ∃ k, o = 4 * k := ⟨o/4, by omega⟩
    have : ∀ k < 25, regAt (4*k) ≠ none := by decide
    exact this k (by omega)
  · right
    have hr : regAt o = if 0x100 ≤ o ∧ o < 0x500 then
        descReg (Fin.ofNat 64 ((o - 0x100) / 16)) ((o - 0x100) % 16) else none := by
      unfold regAt; split <;> first | omega | rfl
    by_cases h2 : 0x100 ≤ o ∧ o < 0x500
    · left
      rw [if_pos h2] at hr
      refine ⟨h2.1, h2.2, Fin.ofNat 64 ((o - 0x100) / 16), ?_⟩
      have hv : (Fin.ofNat 64 ((o - 0x100) / 16)).1 = (o - 0x100)/16 := by simp only [Fin.ofNat]; omega
      rw [hv]
      have : (o - 0x100) % 16 = 0 ∨ (o - 0x100) % 16 = 4 ∨ (o - 0x100) % 16 = 8 ∨ (o - 0x100) % 16 = 12 := by omega
      rcases this with h | h | h | h
      · left; exact ⟨by omega, by rw [hr, h]; rfl⟩
      · right; left; exact ⟨by omega, by rw [hr, h]; rfl⟩
      · right; right; left; exact ⟨by omega, by rw [hr, h]; rfl⟩
      · right; right; right; exact ⟨by omega, by rw [hr, h]; rfl⟩
    · right; rw [if_neg h2] at hr; exact ⟨by omega, hr⟩

/-- The four registers of a descriptor slot (R50). -/
theorem regAt_slot (n : Fin 64) :
    regAt (0x100 + 16 * n.1) = some (.dBase n) ∧ regAt (0x100 + 16 * n.1 + 4) = some (.dStride n) ∧
      regAt (0x100 + 16 * n.1 + 8) = some (.dDim n) ∧
      regAt (0x100 + 16 * n.1 + 12) = some (.dFlags n) := by
  revert n; decide +kernel

/-- Rewriting one descriptor leaves the others. -/
theorem updateDesc_descs (l : CmdRegs) (n m : Fin 64) (f : Desc → Desc) :
    (l.updateDesc n f).descs[m] = if n = m then f l.descs[n] else l.descs[m] := by
  simp [CmdRegs.updateDesc, Vector.getElem_set, Fin.ext_iff]

/-- Everything a write to an idle block can do that is neither to STATUS nor an accepted START. -/
theorem writeReg_idle (s : State) (v : Word) (r : Reg) (hb : s.status.busy = false)
    (hs : r ≠ .status) (hc : ¬ (r = .ctrl ∧ v.getLsbD 0 = true)) :
    writeReg s v r =
      { s with
        regs := (writeCmdReg s.regs v r).getD s.regs
        ctrl := if r = .ctrl then ⟨v.getLsbD 1, v.getLsbD 2⟩ else s.ctrl } := by
  cases r <;> simp [writeReg, writeCtrl, writeCmdReg, hb] at hc hs ⊢
  rw [hc]; simp

/-- A host write below MEMSIZE (R80, R96). -/
theorem hostMemWrite_next {addr : Word} {s : State} (v : Byte) (h : addr.toNat < s.params.memSize) :
    hostMemWrite addr v s = .next { s with
      mem := Memory.write s.mem addr.toNat v
      hostTouched := s.hostTouched || s.inOperand addr.toNat } := by
  rw [hostMemWrite, if_neg (by omega)]

end Sys2Proof.Machine
end

