-- ==== Sys2Proof/Laws/PerInstr.lean ====
section
/-! SUPPORT. Facts about every command as syntax, one lemma per constructor. Family MatchMask: the word of a
well-formed command has the match bits of its format under the format's mask (30_encoding.md R116 to R121). -/

namespace Sys2Proof.Laws.MatchMask

/-- The format's mask (R116 to R121). -/
def maskOf : Instr → CmdWord
  | .tmask _ _ _ => 0xFFFFFFFFFFE000FF
  | .mmask _ _ _ _ _ => 0xFFFFFFC0000000FF
  | .mand _ _ _ => 0xFFFFFFFFFC0000FF
  | .mcomb _ _ => 0xFFFFFFFFFFF000FF
  | .tbuild _ _ _ _ _ _ _ _ _ _ => 0xFFFFF800000000FF
  | .iscombed _ _ _ => 0xFFFFFFFFFC0000FF

/-- The format's match (R116 to R121). -/
def matchOf : Instr → CmdWord
  | .tmask _ _ _ => 1
  | .mmask _ _ _ _ _ => 2
  | .mand _ _ _ => 3
  | .mcomb _ _ => 4
  | .tbuild _ _ _ _ _ _ _ _ _ _ => 5
  | .iscombed _ _ _ => 6

/-- The word of a well-formed command matches its row of the opcode table. -/
def Statement (i : Instr) : Prop := i.wellFormed = true → encode i &&& maskOf i = matchOf i

/-- A word below 2^hi whose low byte is the opcode matches under a mask of that byte and every bit from hi on. -/
theorem masked_eq {n hi opc mask : Nat} (hn : n < 2 ^ hi) (hlo : n % 256 = opc) (h64 : hi ≤ 64)
    (hmask : mask = 255 + (2 ^ 64 - 2 ^ hi)) (h8 : 8 ≤ hi) :
    BitVec.ofNat 64 n &&& BitVec.ofNat 64 mask = BitVec.ofNat 64 opc := by
  subst hlo hmask
  apply BitVec.eq_of_getLsbD_eq
  intro k hk
  have hsum : 255 + (2 ^ 64 - 2 ^ hi) = 2 ^ hi * (2 ^ (64 - hi) - 1) + 255 := by
    rw [Nat.mul_sub, ← Nat.pow_add, Nat.add_sub_cancel' h64]; omega
  have h255 : 255 < 2 ^ hi :=
    Nat.lt_of_lt_of_le (by decide : 255 < 2 ^ 8) (Nat.pow_le_pow_right (by decide) h8)
  rw [BitVec.getLsbD_and]
  simp only [BitVec.getLsbD_ofNat, hk, decide_true, Bool.true_and]
  rw [hsum, Nat.testBit_two_pow_mul_add _ h255, show 256 = 2 ^ 8 from rfl, Nat.testBit_mod_two_pow]
  by_cases hk8 : k < 8
  · have : k < hi := by omega
    have h1 : Nat.testBit 255 k = true := by
      rw [show 255 = 2 ^ 8 - 1 from rfl, Nat.testBit_two_pow_sub_one]; simpa using hk8
    simp [this, hk8, h1]
  · by_cases hkh : k < hi
    · have h1 : Nat.testBit 255 k = false := by
        rw [show 255 = 2 ^ 8 - 1 from rfl, Nat.testBit_two_pow_sub_one]; simpa using hk8
      simp [hkh, hk8, h1]
    · have h1 : n.testBit k = false :=
        Nat.testBit_lt_two_pow (Nat.lt_of_lt_of_le hn (Nat.pow_le_pow_right (by decide) (by omega)))
      simp [h1, hk8]

theorem tmask (src dst : Nat) (pclass : Bool) : Statement (.tmask src dst pclass) := by
  intro h
  simp only [Instr.wellFormed, sixBits, Bool.and_eq_true, decide_eq_true_eq] at h
  have := Bool.toNat_le pclass
  exact masked_eq (hi := 21) (by simp only [encodeNat]; omega) (by simp only [encodeNat]; omega)
    (by decide) (by decide) (by decide)

theorem mmask (src1 msk1 src2 msk2 dst : Nat) : Statement (.mmask src1 msk1 src2 msk2 dst) := by
  intro h
  simp only [Instr.wellFormed, sixBits, Bool.and_eq_true, decide_eq_true_eq] at h
  exact masked_eq (hi := 38) (by simp only [encodeNat]; omega) (by simp only [encodeNat]; omega)
    (by decide) (by decide) (by decide)

theorem mand (a b dst : Nat) : Statement (.mand a b dst) := by
  intro h
  simp only [Instr.wellFormed, sixBits, Bool.and_eq_true, decide_eq_true_eq] at h
  exact masked_eq (hi := 26) (by simp only [encodeNat]; omega) (by simp only [encodeNat]; omega)
    (by decide) (by decide) (by decide)

theorem mcomb (src dst : Nat) : Statement (.mcomb src dst) := by
  intro h
  simp only [Instr.wellFormed, sixBits, Bool.and_eq_true, decide_eq_true_eq] at h
  exact masked_eq (hi := 20) (by simp only [encodeNat]; omega) (by simp only [encodeNat]; omega)
    (by decide) (by decide) (by decide)

theorem tbuild (dst cbase ccnt obase ocnt : Nat) (order field rowpar cfirst wother : Bool) :
    Statement (.tbuild dst cbase ccnt obase ocnt order field rowpar cfirst wother) := by
  intro h
  simp only [Instr.wellFormed, sixBits, Bool.and_eq_true, decide_eq_true_eq] at h
  have h1 := Bool.toNat_le order
  have h2 := Bool.toNat_le field
  have h3 := Bool.toNat_le rowpar
  have h4 := Bool.toNat_le cfirst
  have h5 := Bool.toNat_le wother
  exact masked_eq (hi := 43) (by simp only [encodeNat]; omega) (by simp only [encodeNat]; omega)
    (by decide) (by decide) (by decide)

theorem iscombed (ys us vs : Nat) : Statement (.iscombed ys us vs) := by
  intro h
  simp only [Instr.wellFormed, sixBits, Bool.and_eq_true, decide_eq_true_eq] at h
  exact masked_eq (hi := 26) (by simp only [encodeNat]; omega) (by simp only [encodeNat]; omega)
    (by decide) (by decide) (by decide)

end Sys2Proof.Laws.MatchMask
end

