-- ==== Sys2Proof/Laws/PlaneCommand.lean ====
section
/-! SUPPORT. A legal command that writes a plane: what its next state holds (60_exceptions.md R245, 20_memory.md R92,
R95), and neighbour counts over a plane (42_mask_fusion.md R177). -/

namespace Sys2Proof.Machine

/-- A legal command with a destination, undisturbed by the host, completes with every sample it names written. -/
theorem exec_plane_of_legal {i : Instr} {s : State} {dst : Nat} {f : Nat → Nat → Option Nat}
    (h : CommandLegal i s) (ht : s.hostTouched = false) (hm : Memory.wf s.mem)
    (hd : destSlot i = some dst) (he : effectOf i s = commitPlane dst f s) :
    ∃ t, exec i s = .next t ∧ t.status = { s.status with busy := false, done := true } ∧
      ∀ y < s.latch.h dst, ∀ x < s.latch.w dst, ∀ v, f y x = some v →
        v < 256 ^ s.latch.fmt.bps → t.sampleAt dst y x = v := by
  refine ⟨_, exec_of_legal h, ?_, ?_⟩
  · simp [succeedCommand, status_effectOf, Status.succeeded]
  · intro y hy x hx v hf hv
    obtain ⟨hz, hst, _⟩ := h.dest hd
    rw [sampleAt_succeedCommand, he]
    exact sampleAt_commitPlane ht hm hz hst hy hx hf hv

/-- A flag sample fits its container (R12). -/
theorem Fmt.flag_lt {f : Fmt} (h : f.legal) (b : Bool) : f.flag b < 256 ^ f.bps := by
  unfold Fmt.flag; split
  · exact Fmt.peak_lt h
  · exact Nat.pow_pos (by decide)

/-- A byte fits every container. -/
theorem byte_lt_container (f : Fmt) (n : BitVec 8) : n.toNat < 256 ^ f.bps := by
  have h1 : 256 ^ 1 ≤ 256 ^ f.bps :=
    Nat.pow_le_pow_right (by decide) (by rcases f.bps_eq with h | h <;> omega)
  have h2 := n.isLt
  omega

/-- The effect of a command with a destination is a commit of it. -/
theorem effectOf_plane {i : Instr} {dst : Nat} (s : State) (hd : destSlot i = some dst) :
    ∃ f, effectOf i s = commitPlane dst f s := by
  cases i <;> simp only [destSlot, Option.some.injEq, reduceCtorEq] at hd <;> subst hd <;>
    exact ⟨_, rfl⟩

/-- The cells of a plane depend on the samples inside it. -/
theorem planeCells_congr {bps : Nat} {d : Desc} {f g : Nat → Nat → Option Nat}
    (h : ∀ y < d.height.toNat, ∀ x < d.width.toNat, f y x = g y x) :
  planeCells bps d f = planeCells bps d g := by
  unfold planeCells
  have e : ∀ {α β : Type} (l : List α) (a b : α → List β), (∀ x ∈ l, a x = b x) →
      l.flatMap a = l.flatMap b := by
    intro α β l a b hh; induction l with
    | nil => rfl
    | cons c l ih => simp only [List.flatMap_cons]; rw [hh c (by simp), ih fun x hx => hh x (by simp [hx])]
  apply e; intro y hy
  apply e; intro x hx
  rw [h y (List.mem_range.1 hy) x (List.mem_range.1 hx)]

/-- The neighbour count reads only samples of the layer (R177). -/
theorem neighbourCount_congr {rd1 rd2 : Nat → Nat → Nat} {w h y x : Nat} (hw : 2 ≤ w) (hh : 2 ≤ h)
    (hy : y < h) (hx : x < w) (he : ∀ y < h, ∀ x < w, rd1 y x = rd2 y x) : neighbourCount rd1 w h y x = neighbourCount rd2 w h y x := by
  unfold neighbourCount
  apply List.countP_congr
  intro o ho
  have : o.1.natAbs ≤ 1 ∧ o.2.natAbs ≤ 1 := by revert o; decide
  rw [show borderRead rd1 w h y x o.1 o.2 = borderRead rd2 w h y x o.1 o.2 from
    he _ (rrow_lt hy (by omega)) _ (mirror_lt hx hw this.2)]

/-- The cells of a commit, disturbed or not, lie in the destination extent. -/
theorem planeCells_in_extent {bps : Nat} {d : Desc} {g : Nat → Nat → Option Nat} {a : Nat}
    (h : a ∈ (planeCells bps d g).map Prod.fst) : d.base.toNat ≤ a ∧ a ≤ d.last bps := by
  rw [mem_planeCells_addr] at h
  obtain ⟨y, hy, x, hx, _, k, hk, rfl⟩ := h
  exact Desc.addr_le_last hy hx hk

theorem params_effectOf (i : Instr) (s : State) : (effectOf i s).params = s.params := by
  cases i <;> simp [effectOf, effectFrom]

theorem rom_effectOf (i : Instr) (s : State) : (effectOf i s).rom = s.rom := by
  cases i <;> simp [effectOf, effectFrom]

/-- Every command keeps the memory's canonical form. -/
theorem wf_effectOf {i : Instr} {s : State} (h : Memory.wf s.mem) : Memory.wf (effectOf i s).mem := by
  cases i <;> simp only [effectOf, effectFrom, scoreFrame_mem] <;>
    first | exact commitPlane_mem_wf h | exact h

end Sys2Proof.Machine
end

