-- ==== Sys2Proof/Laws/Scorer.lean ====
section
/-! SUPPORT. Bitmaps, hits and the block histogram of ISCOMBED (44_combing_scorer.md R210 to R219). -/

namespace Sys2Proof.Machine

/-- A bit of a bitmap is the predicate inside it and 0 outside. -/
theorem bit_bitmapOf (w h : Nat) (f : Nat → Nat → Bool) (y x : Nat) :
    (bitmapOf w h f).bit y x = (decide (y < h ∧ x < w) && f y x) := by
  unfold Bitmap.bit bitmapOf
  by_cases hy : y < h
  · by_cases hx : x < w
    · simp [List.getD_eq_getElem?_getD, hy, hx]
    · simp [List.getD_eq_getElem?_getD, hy, hx]
  · simp [List.getD_eq_getElem?_getD, hy]

/-- A bitmap depends on the predicate inside it. -/
theorem bitmapOf_congr {w h : Nat} {f g : Nat → Nat → Bool} (hf : ∀ y < h, ∀ x < w, f y x = g y x) :
    bitmapOf w h f = bitmapOf w h g := by
  unfold bitmapOf
  apply List.map_congr_left; intro y hy
  apply List.map_congr_left; intro x hx
  exact hf y (List.mem_range.1 hy) x (List.mem_range.1 hx)

@[simp] theorem Hist.count_nil (k : CellKey) : Hist.count [] k = 0 := rfl

/-- Adding 1 to a counter changes that counter alone. -/
theorem Hist.count_bump (h : Hist) (k k' : CellKey) :
    Hist.count (Hist.bump h k) k' = Hist.count h k' + if k = k' then 1 else 0 := by
  induction h with
  | nil => simp only [Hist.bump, Hist.count]; split <;> simp_all
  | cons c h ih =>
    obtain ⟨b, n⟩ := c
    simp only [Hist.bump]
    split
    · rename_i e; subst e; simp only [Hist.count]; split <;> simp_all
    · rename_i e; simp only [Hist.count]; split
      · rename_i e2; subst e2; rw [if_neg (fun h => e h.symm)]; rfl
      · exact ih

/-- A counter after a list of bumps. -/
theorem Hist.count_foldl (ks : List CellKey) (h : Hist) (k : CellKey) :
    Hist.count (ks.foldl Hist.bump h) k = Hist.count h k + ks.count k := by
  induction ks generalizing h with
  | nil => simp
  | cons c ks ih => rw [List.foldl_cons, ih, Hist.count_bump, List.count_cons]; simp only [beq_iff_eq]; omega

/-- The keys of a histogram are listed once. -/
def Hist.wf (h : Hist) : Prop := (h.map Prod.fst).Nodup

theorem Hist.bump_keys (h : Hist) (k : CellKey) :
    ∀ c ∈ (Hist.bump h k).map Prod.fst, c = k ∨ c ∈ h.map Prod.fst := by
  induction h with
  | nil => simp [Hist.bump]
  | cons c h ih =>
    obtain ⟨b, n⟩ := c
    simp only [Hist.bump]
    split
    · intro c hc; exact .inr hc
    · intro c hc
      simp only [List.map_cons, List.mem_cons] at hc ⊢
      rcases hc with h | h
      · exact .inr (.inl h)
      · rcases ih c h with h | h
        · exact .inl h
        · exact .inr (.inr h)

theorem Hist.bump_wf {h : Hist} (k : CellKey) (hw : h.wf) : (Hist.bump h k).wf := by
  induction h with
  | nil => simp [Hist.bump, Hist.wf]
  | cons c h ih =>
    obtain ⟨b, n⟩ := c
    simp only [Hist.wf, List.map_cons, List.nodup_cons] at hw
    simp only [Hist.bump]
    split
    · simpa [Hist.wf] using hw
    · rename_i hbk
      simp only [Hist.wf, List.map_cons, List.nodup_cons]
      refine ⟨fun hm => ?_, ih hw.2⟩
      rcases Hist.bump_keys h k b hm with h | h
      · exact hbk h
      · exact hw.1 h

theorem Hist.foldl_wf (ks : List CellKey) {h : Hist} (hw : h.wf) : Hist.wf (ks.foldl Hist.bump h) := by
  induction ks generalizing h with
  | nil => exact hw
  | cons k ks ih => exact ih (Hist.bump_wf k hw)

theorem Hist.count_of_mem {h : Hist} (hw : h.wf) {k n} (hm : (k, n) ∈ h) : Hist.count h k = n := by
  induction h with
  | nil => simp at hm
  | cons c h ih =>
    obtain ⟨b, m⟩ := c
    simp only [Hist.wf, List.map_cons, List.nodup_cons] at hw
    rcases List.mem_cons.1 hm with e | e
    · injection e with e1 e2; subst e1 e2; simp [Hist.count]
    · have : b ≠ k := fun e' => hw.1 (e' ▸ List.mem_map_of_mem (f := Prod.fst) e)
      rw [Hist.count, if_neg this]; exact ih hw.2 e

/-- No counter exceeds the score (R219). -/
theorem Hist.count_le_score (h : Hist) (k : CellKey) : Hist.count h k ≤ h.score := by
  have : Hist.count h k = 0 ∨ Hist.count h k ∈ h.map Prod.snd := by
    induction h with
    | nil => simp
    | cons c h ih =>
      obtain ⟨b, m⟩ := c
      rw [Hist.count]; split
      · simp
      · rcases ih with h | h
        · exact .inl h
        · exact .inr (List.mem_cons_of_mem _ h)
  rcases this with h | h
  · omega
  · exact le_maxOf_of_mem h

/-- The score is 0 or some counter (R219). -/
theorem Hist.score_attained {h : Hist} (hw : h.wf) : h.score = 0 ∨ ∃ k, Hist.count h k = h.score := by
  rcases maxOf_mem (l := h.map Prod.snd) with e | e
  · exact .inl e
  · obtain ⟨⟨k, n⟩, hm, e2⟩ := List.mem_map.1 e
    right; exact ⟨k, by rw [Hist.count_of_mem hw hm]; exact e2⟩

/-- A hit adds to one cell of each grid (R218). -/
theorem count_hitCells (bxl byl y x : Nat) (key : CellKey) :
    (hitCells bxl byl y x).count key =
      if key.grid < 4 ∧
          (y + (if key.grid = 2 ∨ key.grid = 3 then 2 ^ byl / 2 else 0)) >>> byl = key.row ∧
          (x + (if key.grid = 1 ∨ key.grid = 3 then 2 ^ bxl / 2 else 0)) >>> bxl = key.col then 1 else 0 := by
  obtain ⟨g, r, c⟩ := key
  simp only [hitCells, List.count_cons, List.count_nil, beq_iff_eq, CellKey.mk.injEq]
  by_cases h0 : g = 0
  · subst h0; simp
  by_cases h1 : g = 1
  · subst h1; simp
  by_cases h2 : g = 2
  · subst h2; simp
  by_cases h3 : g = 3
  · subst h3; simp
  · have : ¬ g < 4 := by omega
    simp [this, Ne.symm h0, Ne.symm h1, Ne.symm h2, Ne.symm h3]

/-- A counter is the number of the hits of its cell (R218). -/
theorem count_histOf (bxl byl : Nat) (hs : List (Nat × Nat)) (key : CellKey) :
    Hist.count (histOf bxl byl hs) key = hs.countP fun p => decide (key.grid < 4 ∧
      (p.1 + (if key.grid = 2 ∨ key.grid = 3 then 2 ^ byl / 2 else 0)) >>> byl = key.row ∧
      (p.2 + (if key.grid = 1 ∨ key.grid = 3 then 2 ^ bxl / 2 else 0)) >>> bxl = key.col) := by
  rw [histOf, Hist.count_foldl, Hist.count_nil, Nat.zero_add]
  induction hs with
  | nil => rfl
  | cons p hs ih =>
    rw [List.flatMap_cons, List.count_append, ih, count_hitCells, List.countP_cons]
    simp only [decide_eq_true_eq]; omega

theorem histOf_wf (bxl byl : Nat) (hs : List (Nat × Nat)) : (histOf bxl byl hs).wf :=
  Hist.foldl_wf _ (by simp [Hist.wf])

/-- The hits are the pixels that are hits (R217). -/
theorem hits_eq (b : Bitmap) (w h : Nat) : hits b w h =
    (((List.range h).flatMap fun y => (List.range w).map fun x => (y, x)).filter
      fun p => isHit b h p.1 p.2) := by
  rw [hits, List.filter_flatMap]
  congr 1
  funext y
  rw [List.filter_map]; rfl

end Sys2Proof.Machine
end

