-- ==== Sys2Proof/Laws/Temporal.lean ====
section
/-! SUPPORT. TBUILD's table accesses and its windows (43_temporal_mask_builder.md R186 to R188, R193). -/

namespace Sys2Proof.Machine

/-- Each legal MTYPE selects a table set of the ROMs. -/
theorem romSet_getElem? (r : Rom) {mtype : BitVec 2} (h : mtype.toNat < 3) :
    r[mtype.toNat]? = some (romSet r mtype) := by
  rw [romSet, Vector.getElem?_eq_getElem h]; rfl

/-- A weight is entry i of the row L - 6 of GVLUT. -/
theorem weightOf_of_entry {t : RomSet} {len i : Nat} {w : Weight}
    (h : (t.gvlut[len - 6]?.bind fun row => row[i]?) = some w) : weightOf t len i = Weight.bits w := by
  rw [weightOf, h]; rfl

/-- Every LENGTH from 6 to 34 has a weight for each step of its scan. -/
theorem gvlut_entry (t : RomSet) {len i : Nat} (hlen : len ≤ 34) (hi : i < len) :
    ∃ w, (t.gvlut[len - 6]?.bind fun row => row[i]?) = some w := by
  rw [Vector.getElem?_eq_getElem (show len - 6 < 29 by omega), Option.bind_some,
    Vector.getElem?_eq_getElem (show i < 34 by omega)]
  exact ⟨_, rfl⟩

/-- Every ORDER, FIELD and VLUT value names an entry of TMMLUT16. -/
theorem tableIndex_lt (order field : Bool) (cls : BitVec 2) :
    order.toNat * 8 + field.toNat * 4 + cls.toNat < 16 := by
  have := cls.isLt
  cases order <;> cases field <;> simp <;> omega

theorem windowPasses_iff {p : List Nat} {len i : Nat} :
    windowPasses p len i = true ↔ ∀ k < len - 4, p.getD (i + k) 0 ≠ 0 := by
  simp [windowPasses]

end Sys2Proof.Machine
end

