-- ==== Sys2Proof/Laws/Threshold.lean ====
section
/-! SUPPORT. TMASK's ATMAX by TTYPE, its shifts and its bound (40_threshold_mask.md R140 to R146). -/

namespace Sys2Proof.Machine

theorem atmax_compensated4 (p : Params) (f : Fmt) (pclass : Bool) (n : Window) :
    atmax p f 0 pclass n = compensated n [n.u, n.d] (hShift p f pclass) (vShift p f pclass) := rfl

theorem atmax_compensated8 (p : Params) (f : Fmt) (pclass : Bool) (n : Window) :
    atmax p f 1 pclass n = compensated n [n.ul, n.u, n.ur, n.dl, n.d, n.dr] (hShift p f pclass)
      (vShift p f pclass) := rfl

theorem atmax_plain4 (p : Params) (f : Fmt) (pclass : Bool) (n : Window) :
    atmax p f 2 pclass n = groupDev n.c n.four (plainShift p f pclass) := rfl

theorem atmax_plain8 (p : Params) (f : Fmt) (pclass : Bool) (n : Window) :
    atmax p f 3 pclass n = groupDev n.c n.eight (plainShift p f pclass) := rfl

theorem atmax_range4 (p : Params) (f : Fmt) (pclass : Bool) (n : Window) :
    atmax p f 4 pclass n = rangeOf n n.four p.tmRangeCenter := rfl

theorem atmax_range8 (p : Params) (f : Fmt) (pclass : Bool) (n : Window) :
    atmax p f 5 pclass n = rangeOf n n.eight p.tmRangeCenter := rfl

/-- The default horizontal shift (R142). -/
theorem hShift_default {p : Params} (h : p.tmHShift = ⟨none, none⟩) (f : Fmt) (pclass : Bool) :
    hShift p f pclass = if pclass then f.ssw.toNat else 0 := by
  simp only [hShift, ClassShift.pick, h]; cases pclass <;> rfl

/-- The default vertical shift (R142). -/
theorem vShift_default {p : Params} (h : p.tmVShift = ⟨none, none⟩) (f : Fmt) (pclass : Bool) :
    vShift p f pclass = if pclass then 1 + f.ssh.toNat else 1 := by
  simp only [vShift, ClassShift.pick, h]; cases pclass <;> rfl

/-- The default plain shift (R145). -/
theorem plainShift_default {p : Params} (h : p.tmPlainShift = ⟨none, none⟩) (f : Fmt) (pclass : Bool) :
    plainShift p f pclass = hShift p f pclass := by
  simp only [plainShift, ClassShift.pick, h]; cases pclass <;> rfl

/-- The normalised deviation as a quotient (R142, R144). -/
theorem normDev_eq (c v s : Nat) :
    normDev c v s = (((c : Int) - (v : Int)).natAbs + (if s = 0 then 0 else 2 ^ (s - 1))) / 2 ^ s := by
  simp only [normDev, half, absDiff, Nat.shiftRight_eq_div_pow]

/-- A group deviation is at most any bound of the centre and of the group. -/
theorem groupDev_le {c s P : Nat} {g : List Nat} (hg : g ≠ []) (hc : c ≤ P)
    (h : ∀ v ∈ g, v ≤ P) : groupDev c g s ≤ P := by
  have key : ∀ v ≤ P, normDev c v s ≤ P := by
    intro v hv
    unfold normDev absDiff half
    have : ((c:Int) - (v:Int)).natAbs ≤ P := by omega
    generalize ((c:Int) - (v:Int)).natAbs = a at *
    rw [Nat.shiftRight_eq_div_pow]
    split
    · rename_i h; subst h; simpa using this
    · rename_i h
      obtain ⟨k, rfl⟩ := Nat.exists_eq_succ_of_ne_zero h
      simp only [Nat.succ_eq_add_one, Nat.add_sub_cancel, Nat.pow_succ]
      have hp : 0 < 2^k := Nat.pow_pos (by decide)
      rcases Nat.eq_zero_or_pos a with rfl | ha
      · rw [Nat.div_eq_of_lt (by omega)]; omega
      · have : (a + 2^k) / (2^k*2) ≤ a := by
          rw [Nat.div_le_iff_le_mul_add_pred (by omega)]
          have : 2^k * 1 ≤ 2^k * a := Nat.mul_le_mul_left _ ha
          have h2 : 1 * a ≤ 2^k * a := Nat.mul_le_mul_right _ hp
          have : 2^k*2*a = 2^k*a + 2^k*a := by ring
          omega
        omega
  unfold groupDev
  refine Nat.max_le.2 ⟨key _ (h _ (minOf_mem hg)), key _ ?_⟩
  rcases maxOf_mem (l := g) with h0 | h0
  · omega
  · exact h _ h0

/-- A bound of every entry bounds the maximum. -/
theorem maxOf_le {g : List Nat} {P : Nat} (h : ∀ v ∈ g, v ≤ P) : maxOf g ≤ P := by
  rcases maxOf_mem (l := g) with h0 | h0
  · omega
  · exact h _ h0

/-- ATMAX is at most any bound of the window's samples, whatever the shifts. -/
theorem atmax_le {p : Params} {f : Fmt} {ttype : BitVec 3} {pclass : Bool} {n : Window} {P : Nat}
    (hn : ∀ v ∈ n.c :: n.eight, v ≤ P) : atmax p f ttype pclass n ≤ P := by
  simp [Window.eight, Window.four] at hn
  unfold atmax
  split
  · unfold compensated; refine Nat.max_le.2 ⟨?_, ?_⟩ <;>
      refine groupDev_le (by simp) (by omega) ?_ <;> simp <;> omega
  · unfold compensated; refine Nat.max_le.2 ⟨?_, ?_⟩ <;>
      refine groupDev_le (by simp) (by omega) ?_ <;> simp <;> omega
  · exact groupDev_le (by simp [Window.four]) (by omega) (by simp [Window.four]; omega)
  · exact groupDev_le (by simp [Window.four, Window.eight]) (by omega) (by simp [Window.four, Window.eight]; omega)
  · unfold rangeOf; dsimp only; refine Nat.le_trans (Nat.sub_le _ _) (maxOf_le ?_); 
    split <;> simp [Window.four] <;> omega
  · unfold rangeOf; dsimp only; refine Nat.le_trans (Nat.sub_le _ _) (maxOf_le ?_); 
    split <;> simp [Window.eight, Window.four] <;> omega

/-- The window of a pixel reads only samples of the plane (R141, R247). -/
theorem window_congr {rd1 rd2 : Nat → Nat → Nat} {w h y x : Nat} (hw : 2 ≤ w) (hh : 2 ≤ h)
    (hy : y < h) (hx : x < w) (he : ∀ y < h, ∀ x < w, rd1 y x = rd2 y x) : windowAt rd1 w h y x = windowAt rd2 w h y x := by
  have b : ∀ d e : Int, d.natAbs ≤ 1 → e.natAbs ≤ 1 →
      borderRead rd1 w h y x d e = borderRead rd2 w h y x d e := by
    intro d e hd he'
    exact he _ (rrow_lt hy (by omega)) _ (mirror_lt hx hw he')
  unfold windowAt
  simp only [b 0 0 (by decide) (by decide), b (-1) 0 (by decide) (by decide),
    b 1 0 (by decide) (by decide), b 0 (-1) (by decide) (by decide), b 0 1 (by decide) (by decide),
    b (-1) (-1) (by decide) (by decide), b (-1) 1 (by decide) (by decide),
    b 1 (-1) (by decide) (by decide), b 1 1 (by decide) (by decide)]

end Sys2Proof.Machine
end

