-- ==== Sys2Proof/Tests/Slice0.lean ====
section
/-! SUPPORT. The model's own tests: well-formedness, decoding, registers and one step per command against the worked
examples of spec/95_test_vectors.md; then, for each obligation with hypotheses, a witness that meets them. -/

open Sys2Proof Sys2Proof.Machine Sys2Proof.Machine.Claim

namespace Sys2Proof.Tests

/-! ### Small states -/

/-- Next state of an outcome. -/
def nextOf (o : Host.Outcome State Fault Refusal) : Option State :=
  match o with
  | .next t => some t
  | .fault _ => none
  | .refused _ => none

/-- The test table VLUT_T of 95_test_vectors.md. -/
def vlutT (v : Nat) : BitVec 2 :=
  let a := v / 8
  let b := v % 8
  if a = 7 ∧ b = 7 then 3
  else if a = 7 then 1
  else if b = 7 then 0
  else if v ≠ 0 ∧ a % 2 = 0 ∧ b % 2 = 0 then 2
  else 0

/-- The test table TMM_T of 95_test_vectors.md. -/
def tmmT : List Nat := [30, 20, 60, 10, 30, 20, 60, 40, 20, 30, 60, 10, 20, 30, 60, 50]

/-- The test tables with the example GVLUT of 43_temporal_mask_builder.md R187. -/
def testRom : Rom :=
  Vector.replicate 3
    { vlut := Vector.ofFn fun k => vlutT k
      tmmlut16 := Vector.ofFn fun k => BitVec.ofNat 8 (tmmT.getD k 0)
      gvlut := Vector.ofFn fun l => Vector.ofFn fun i =>
        if i.val = 0 then .one else if i.val + 1 = l.val + 6 then .four else .two }

/-- A plane at a base, with a stride, w x h. -/
def plane (base stride w h : Nat) : Desc :=
  ⟨BitVec.ofNat 32 base, BitVec.ofNat 32 stride, BitVec.ofNat 16 w, BitVec.ofNat 16 h, false⟩

/-- A ZERO plane. -/
def zeroPlane (w h : Nat) : Desc := { plane 0 0 w h with zero := true }

/-- The reset registers with some descriptors. -/
def regsOf (ds : List (Nat × Desc)) : CmdRegs :=
  { CmdRegs.reset with descs := ds.foldl (fun v p => v.set! p.1 p.2) CmdRegs.reset.descs }

/-- Bytes from an address on. -/
def bytesAt (base : Nat) (l : List Nat) : List Host.Cell :=
  l.zipIdx.map fun p => (base + p.2, BitVec.ofNat 8 p.1)

/-- The idle block with registers and memory bytes. -/
def idle (l : CmdRegs) (cells : List Host.Cell) : State :=
  { State.reset with regs := l, rom := testRom, mem := Memory.writeAll [] cells }

/-- The block with the command word c started, its turn next. -/
def ready (c : CmdWord) (l : CmdRegs) (cells : List Host.Cell) : State := placeCommand (idle l cells) c

/-- n bytes from an address after a step. -/
def bytesAfter (s : State) (a n : Nat) : Option (List Nat) :=
  (nextOf (step s)).map fun t => (List.range n).map fun k => (Memory.read t.mem (a + k)).toNat

/-- STATUS and ERRINFO after a step. -/
def statusAfter (s : State) : Option (Nat × Nat) :=
  (nextOf (step s)).map fun t => ((readOffset t 0x008).toNat, (readOffset t 0x00C).toNat)

/-- SCORE and RESULT after a step. -/
def scoreAfter (s : State) : Option (Nat × Nat) :=
  (nextOf (step s)).map fun t => ((readOffset t 0x018).toNat, (readOffset t 0x01C).toNat)

/-- A register after a step that starts with the access a. -/
def regAfter (s : State) (a : HostAct) (offset : Nat) : Option Nat :=
  (nextOf (step { s with host := [a] })).map fun t => (readOffset t offset).toNat

/-! ### Well-formedness: each field out of range is refused (30_encoding.md R113) -/

theorem test_wf_tmask :
    (Instr.tmask 64 0 false).wellFormed = false ∧ (Instr.tmask 0 64 false).wellFormed = false := by
  decide

theorem test_wf_mmask :
    (Instr.mmask 64 0 0 0 0).wellFormed = false ∧ (Instr.mmask 0 64 0 0 0).wellFormed = false ∧
    (Instr.mmask 0 0 64 0 0).wellFormed = false ∧ (Instr.mmask 0 0 0 64 0).wellFormed = false ∧
    (Instr.mmask 0 0 0 0 64).wellFormed = false := by decide

theorem test_wf_mand :
    (Instr.mand 64 0 0).wellFormed = false ∧ (Instr.mand 0 64 0).wellFormed = false ∧
    (Instr.mand 0 0 64).wellFormed = false := by decide

theorem test_wf_mcomb :
    (Instr.mcomb 64 0).wellFormed = false ∧ (Instr.mcomb 0 64).wellFormed = false := by decide

theorem test_wf_tbuild :
    (Instr.tbuild 64 0 0 0 0 false false false false false).wellFormed = false ∧
    (Instr.tbuild 0 64 0 0 0 false false false false false).wellFormed = false ∧
    (Instr.tbuild 0 0 64 0 0 false false false false false).wellFormed = false ∧
    (Instr.tbuild 0 0 0 64 0 false false false false false).wellFormed = false ∧
    (Instr.tbuild 0 0 0 0 64 false false false false false).wellFormed = false := by decide

theorem test_wf_iscombed :
    (Instr.iscombed 64 0 0).wellFormed = false ∧ (Instr.iscombed 0 64 0).wellFormed = false ∧
    (Instr.iscombed 0 0 64).wellFormed = false := by decide

/-! ### Decoding: words written out from 30_encoding.md R111 to R121 -/

/-- SRC [13:8], DST [19:14], PCLASS [20]. -/
theorem test_decode_tmask :
    decode 0b101010_101101_00000001#64 = .ok (.tmask 45 42 false) ∧
    decode 0b1_000001_000000_00000001#64 = .ok (.tmask 0 1 true) := by decide

/-- SRC1 [13:8], MSK1 [19:14], SRC2 [25:20], MSK2 [31:26], DST [37:32]. -/
theorem test_decode_mmask :
    decode 0b000101_000100_000011_000010_000001_00000010#64 = .ok (.mmask 1 2 3 4 5) := by decide

/-- A [13:8], B [19:14], DST [25:20]. -/
theorem test_decode_mand :
    decode 0b000011_000010_000001_00000011#64 = .ok (.mand 1 2 3) := by decide

/-- SRC [13:8], DST [19:14]. -/
theorem test_decode_mcomb : decode 0b111111_000001_00000100#64 = .ok (.mcomb 1 63) := by decide

/-- DST, CBASE, CCNT, OBASE, OCNT from bit 8 on, then ORDER 38, FIELD 39, ROWPAR 40, CFIRST 41, WOTHER 42. -/
theorem test_decode_tbuild :
    decode 0b10101_000101_000100_000011_000010_000001_00000101#64 =
      .ok (.tbuild 1 2 3 4 5 true false true false true) := by decide

/-- YS [13:8], US [19:14], VS [25:20]. -/
theorem test_decode_iscombed :
    decode 0b000011_000010_000001_00000110#64 = .ok (.iscombed 1 2 3) := by decide

/-- OPC first (R111): a reserved bit beside an illegal OPC is not looked at; then the lowest reserved bit (R112). -/
theorem test_decode_rejects :
    decode 0x17 = .error (.illegalOpcode 7) ∧ decode 0xF0 = .error (.illegalOpcode 0) ∧
    decode 0x204001 = .error (.reservedBit 21) ∧
    decode 0x8000000000000001 = .error (.reservedBit 63) ∧
    decode 0x200081 = .error (.reservedBit 7) := by decide

theorem test_table_words :
    decodeTableWord 64 0x24804 = some (.mcomb 8 9) ∧ decodeTableWord 64 0x7 = none := by decide

/-! ### TMASK -/

/-- P4 of 95_test_vectors.md. -/
def p4 : List Host.Cell := bytesAt 0 [20, 20, 20, 20, 20, 100, 40, 20, 20, 20, 20, 20, 60, 20, 20, 20]

/-- TMASK of P4 with the registers l. -/
def tmaskOf (c : CmdWord) (l : CmdRegs) : State := ready c l p4

/-- P4's plane in slot 0, the stacked destination in slot 1. -/
def tmaskRegs : CmdRegs := regsOf [(0, plane 0 4 4 4), (1, plane 64 4 4 8)]

/-- V-TM-1: Q then H. -/
theorem test_tmask_compensated :
    bytesAfter (tmaskOf 0x4001 tmaskRegs) 64 32 =
      some [0, 10, 3, 0, 20, 20, 15, 5, 5, 10, 3, 0, 10, 10, 0, 0,
            0, 20, 5, 0, 40, 40, 30, 10, 10, 20, 5, 0, 20, 20, 0, 0] := by decide

/-- V-TM-8: the chroma class, 4:2:0. -/
theorem test_tmask_chroma :
    bytesAfter (tmaskOf 0x104001 { tmaskRegs with fmt := ⟨8, 1, 1⟩ }) 64 32 =
      some [0, 5, 1, 0, 10, 10, 8, 3, 3, 5, 1, 0, 5, 5, 0, 0,
            0, 10, 3, 0, 20, 20, 15, 5, 5, 10, 3, 0, 10, 10, 0, 0] := by decide

/-! ### MMASK -/

/-- The samples of V-MM-1, DST the slot of MSK1 (V-MM-7). -/
def mmaskRegs : CmdRegs :=
  { regsOf [(0, plane 0 1 1 1), (1, plane 16 1 1 2), (2, plane 32 1 1 1), (3, plane 48 1 1 2)] with
    nt := 2, maxThresh := 255 }

def mmaskCells : List Host.Cell :=
  bytesAt 0 [100] ++ bytesAt 16 [5, 10] ++ bytesAt 32 [108] ++ bytesAt 48 [9, 12]

/-- V-MM-1 and V-MM-7: the exact alias DST = MSK1 gets (0; 255). -/
theorem test_mmask_alias :
    bytesAfter (ready 0x10C204002 mmaskRegs mmaskCells) 16 2 = some [0, 255] := by decide

/-- V-MM-3: MINTHRESH 20 above MAXTHRESH 5 gives the threshold 5. -/
theorem test_mmask_crossed_band :
    bytesAfter (ready 0x40C204002
      { regsOf [(0, plane 0 2 2 1), (1, plane 16 2 2 2), (2, plane 32 2 2 1), (3, plane 48 2 2 2),
          (4, plane 64 2 2 2)] with minThresh := 20, maxThresh := 5 }
      (bytesAt 0 [10, 10] ++ bytesAt 32 [13, 17])) 64 4 = some [255, 0, 255, 0] := by decide

/-! ### MAND -/

/-- A, B and DST of V-MA-1. -/
def mandRegs : CmdRegs := regsOf [(0, plane 0 2 2 2), (1, plane 16 2 2 2), (2, plane 32 2 2 2)]

def mandCells : List Host.Cell := bytesAt 0 [255, 0x0F, 255, 0] ++ bytesAt 16 [255, 0x3C, 0, 255]

/-- V-MA-1. -/
theorem test_mand :
    bytesAfter (ready 0x204003 mandRegs mandCells) 32 4 = some [255, 0x0C, 0, 0] := by decide

/-- V-MA-4: an odd HEIGHT is E_SHAPE, ERRINFO A. -/
theorem test_mand_odd_height :
    statusAfter (ready 0x204003
      (regsOf [(0, plane 0 2 2 3), (1, plane 16 2 2 3), (2, plane 32 2 2 3)]) mandCells) =
      some (0x704, 0) := by decide

/-! ### MCOMB -/

/-- V-MC-2: quarter and half layers 3 x 3, DST at 64. -/
def mcombRegs (cstr : Nat) : CmdRegs :=
  { regsOf [(0, plane 0 3 3 6), (1, plane 64 3 3 3)] with cstr := BitVec.ofNat 32 cstr }

def mcombCells : List Host.Cell :=
  bytesAt 0 [0, 0, 0, 255, 255, 0, 0, 0, 0, 255, 0, 0, 0, 0, 0, 0, 0, 0]

/-- V-MC-2 with CSTR 6: the corner, whose count is 6, is upgraded. -/
theorem test_mcomb_corner :
    bytesAfter (ready 0x4004 (mcombRegs 6) mcombCells) 64 9 =
      some [255, 0, 0, 255, 255, 0, 0, 0, 0] := by decide

/-- V-MC-2 with CSTR 7: it is not. -/
theorem test_mcomb_corner_below :
    bytesAfter (ready 0x4004 (mcombRegs 7) mcombCells) 64 9 =
      some [0, 0, 0, 255, 255, 0, 0, 0, 0] := by decide

/-! ### TBUILD -/

/-- Slot s a 1 x h plane at byte 4*s, for slots 0 to 23; LENGTH 6. -/
def tbuildRegs (h : Nat) : CmdRegs :=
  { regsOf ((List.range 24).map fun k => (k, plane (4 * k) 1 1 h)) with length := 6 }

/-- Column c of slot k. -/
def mask (k : Nat) (c : List Nat) : List Host.Cell := bytesAt (4 * k) c

/-- V-TB-2, ORDER and FIELD 0: row 1 gets 20, rows 0 and 2 get 10. -/
theorem test_tbuild_scan :
    bytesAfter (ready 0x70328401405 (tbuildRegs 3)
      (mask 0 [255, 255, 255] ++ mask 1 [255, 255, 255] ++ mask 2 [255, 255, 255] ++
       mask 3 [255, 255, 255] ++ mask 10 [255, 255, 0] ++ mask 11 [255, 255, 0] ++
       mask 12 [255, 255, 0])) 80 3 = some [10, 20, 10] := by decide +kernel

/-- V-TB-6: the scan stops after i = 1 and the table gives 60. -/
theorem test_tbuild_early_exit :
    bytesAfter (ready 0x70328401405 (tbuildRegs 3)
      (mask 0 [255, 0, 255] ++ mask 1 [255, 255, 255] ++ mask 2 [255, 255, 255] ++
       mask 3 [255, 255, 255] ++ mask 10 [255, 255, 0] ++ mask 11 [255, 255, 0] ++
       mask 12 [255, 255, 0])) 80 3 = some [10, 60, 10] := by decide +kernel

/-! ### ISCOMBED -/

/-- Rows of one value each, w wide. -/
def rowsOf (w : Nat) (l : List Nat) : List Host.Cell := bytesAt 0 (l.flatMap fun v => List.replicate w v)

/-- The frame in slot 0, w x h, with an ICFG word. -/
def iscombedRegs (w h : Nat) (icfg : Word) : CmdRegs :=
  { regsOf [(0, plane 0 w w h)] with icfg := Icfg.ofWord icfg }

/-- V-IC-10 with CTHRESH 1: 4 x 4 blocks, the best cells are in the shifted grids. -/
theorem test_iscombed_grids :
    scoreAfter (ready 0x6 { iscombedRegs 8 8 0x2200 with cthresh := 1 }
      (rowsOf 8 [130, 128, 130, 128, 130, 128, 130, 128])) = some (16, 1) := by decide +kernel

/-- V-IC-11: a 4 x 3 frame under metric 1. -/
theorem test_iscombed_metric1 :
    scoreAfter (ready 0x6 (iscombedRegs 4 3 0x4401) (rowsOf 4 [0, 255, 0])) = some (4, 1) := by
  decide

/-! ### Registers -/

/-- Reset values the host reads: ID, FMT, MTQL, ICFG, CAP0 (70_reset_and_hazards.md R270). -/
theorem test_reset_registers :
    readOffset State.reset 0x000 = 0x544D4431 ∧ readOffset State.reset 0x020 = 8 ∧
    readOffset State.reset 0x028 = 0xFFFFFFFF ∧ readOffset State.reset 0x058 = 0x4400 ∧
    readOffset State.reset 0x05C = 0x401E := by decide

/-- Reserved bits of FMT ignore writes and read 0 (10_state.md R32, R39). -/
theorem test_fmt_reserved :
    regAfter State.reset (.regWrite 0x020 4 0xFFFFFFFF) 0x020 = some 0x331F := by decide

/-- A write to FMT while BUSY is dropped and sets WBUSY (10_state.md R37). -/
theorem test_busy_write :
    regAfter (ready 0x204003 mandRegs mandCells) (.regWrite 0x020 4 10) 0x020 = some 8 ∧
    regAfter (ready 0x204003 mandRegs mandCells) (.regWrite 0x020 4 10) 0x008 = some 9 := by decide

/-- An illegal opcode: ERRCODE 0x01, ERRINFO the OPC (30_encoding.md R122). -/
theorem test_illegal_opcode :
    statusAfter (ready 0x7 mandRegs mandCells) = some (0x104, 7) := by decide

/-- A register access of two bytes is refused, a data-memory access at MEMSIZE faults. -/
theorem test_stops :
    step { State.reset with host := [.regRead 0x008 2] } = .refused (.badAccess 0x008 2) ∧
    step { State.reset with host := [.memRead 4096] } = .fault (.noSuchAddress 4096) :=
  ⟨rfl, rfl⟩

/-! ### Witnesses: the hypotheses of each obligation can be met -/

/-- A command on given registers: busy, its checks still to come. -/
def mandState : State := ready 0x204003 mandRegs mandCells
def tmaskState : State := tmaskOf 0x4001 tmaskRegs
def mmaskState : State := ready 0x10C204002 mmaskRegs mmaskCells
def mcombState : State := ready 0x4004 (mcombRegs 6) mcombCells
def tbuildState : State :=
  ready 0x70328401405 (tbuildRegs 3) (mask 0 [255, 255, 255] ++ mask 10 [255, 255, 0])
def iscombedState : State :=
  ready 0x6 (iscombedRegs 4 4 0x2200) (rowsOf 4 [130, 128, 130, 128])

abbrev mandI : Instr := .mand 0 1 2
abbrev tmaskI : Instr := .tmask 0 1 false
abbrev mmaskI : Instr := .mmask 0 1 2 3 1
abbrev mcombI : Instr := .mcomb 0 1
abbrev tbuildI : Instr := .tbuild 20 0 4 10 3 false false true true true
abbrev iscombedI : Instr := .iscombed 0 0 0

/-- The same states with other registers latched. -/
def withLatch (s : State) (f : CmdRegs → CmdRegs) : State := { s with latch := f s.latch }

def fmtOf (bitdepth ssw ssh : Nat) : Fmt :=
  ⟨BitVec.ofNat 5 bitdepth, BitVec.ofNat 2 ssw, BitVec.ofNat 2 ssh⟩

theorem legal_tmask : CommandLegal tmaskI tmaskState := checkOf_eq_none.1 (by decide)
theorem legal_mmask : CommandLegal mmaskI mmaskState := checkOf_eq_none.1 (by decide)
theorem legal_mand : CommandLegal mandI mandState := checkOf_eq_none.1 (by decide)
theorem legal_mcomb : CommandLegal mcombI mcombState := checkOf_eq_none.1 (by decide)
theorem legal_tbuild : CommandLegal tbuildI tbuildState := checkOf_eq_none.1 (by decide +kernel)
theorem legal_iscombed : CommandLegal iscombedI iscombedState := checkOf_eq_none.1 (by decide)

theorem witness_EncodeThenDecode :
    (Instr.tmask 63 63 true).wellFormed = true ∧ (Instr.mmask 63 63 63 63 63).wellFormed = true ∧
    (Instr.mand 63 63 63).wellFormed = true ∧ (Instr.mcomb 63 63).wellFormed = true ∧
    (Instr.tbuild 63 63 63 63 63 true true true true true).wellFormed = true ∧
    (Instr.iscombed 63 63 63).wellFormed = true := by decide

theorem witness_DecodeThenEncode : decode 0x204003 = .ok mandI := by decide

theorem witness_StepRunsDecodedCommand :
    blockRuns mandState ∧ decode (mandState.latch.cmd1 ++ mandState.latch.cmd0) = .ok mandI := by
  decide

/-- OPC 0, 7 and 15. -/
theorem witness_IllegalOpcodeFails :
    ∀ w ∈ [0x0, 0x7, 0xF],
      let s := ready (BitVec.ofNat 64 w) mandRegs []
      let opc := bitsAt (s.latch.cmd1 ++ s.latch.cmd0) 0 4
      blockRuns s ∧ (opc = 0 ∨ 7 ≤ opc) := by decide

/-- The lowest and the highest reserved bits of TMASK: 4, 7, 21 and 63. -/
theorem witness_ReservedBitFails :
    ∀ k ∈ [4, 7, 21, 63],
      let s := ready (BitVec.ofNat 64 (1 + 2 ^ k)) mandRegs []
      let c := s.latch.cmd1 ++ s.latch.cmd0
      blockRuns s ∧ (1, 21) ∈ formats ∧ bitsAt c 0 4 = 1 ∧ k < 64 ∧ reserved 21 k ∧
        c.getLsbD k = true ∧ ∀ j < k, reserved 21 j → c.getLsbD j = false := by decide +kernel

theorem witness_CommandEndsDoneOrErr : clean mandState := by decide

/-- Both sides of the equivalence: a legal command, and one whose FMT is not legal. -/
theorem witness_CommandSucceedsIffLegal :
    clean mandState ∧ CommandLegal mandI mandState ∧
      clean (withLatch mandState fun l => { l with fmt := fmtOf 7 0 0 }) ∧
      ¬ CommandLegal mandI (withLatch mandState fun l => { l with fmt := fmtOf 7 0 0 }) :=
  ⟨by decide, legal_mand, by decide, fun h => absurd (checkOf_eq_none.2 h) (by decide)⟩

/-- BITDEPTH 7 and 17, SSW 3, SSH 3. -/
theorem witness_IllegalFmtFails :
    ∀ f ∈ [fmtOf 7 0 0, fmtOf 17 0 0, fmtOf 8 3 0, fmtOf 8 0 3],
      let s := withLatch mandState fun l => { l with fmt := f }
      ¬ (8 ≤ s.latch.fmt.bitdepth.toNat ∧ s.latch.fmt.bitdepth.toNat ≤ 16 ∧
          s.latch.fmt.ssw ≠ 3 ∧ s.latch.fmt.ssh ≠ 3) := by decide

/-- TTYPE 6; MTQL 256 and -3; MTHL 256; MTQL -2; MTHL -2, at PEAK 255. -/
theorem witness_TmaskConfigFailures :
    let ok := fun v : Int => v = -2 ∨ v = -1 ∨ 0 ≤ v ∧ v ≤ ((2 ^ 8 - 1 : Nat) : Int)
    tmaskRegs.fmt.legal ∧ 5 < (6#3).toNat ∧ (5#3).toNat ≤ 5 ∧
    (¬ ok (256#32).toInt ∧ ¬ ok (0xFFFFFFFD#32).toInt) ∧
    (ok (255#32).toInt ∧ ¬ ok (256#32).toInt) ∧
    (ok (0xFFFFFFFE#32).toInt ∧ ok (0xFFFFFFFF#32).toInt ∧ (0xFFFFFFFE#32).toInt = -2) ∧
    ((0#32).toInt ≠ -2 ∧ ok (0#32).toInt) := by decide

/-- LENGTH 5 and 31 at LMAX 30; MTYPE 3; then each count constraint of V-TB-5, LENGTH 6, and the boundaries
CBASE + CCNT = 64 and 65. -/
theorem witness_TbuildConfigFailures :
    tbuildState.latch.fmt.legal ∧ ¬ (6 ≤ 5) ∧ ¬ (31 ≤ tbuildState.params.lmax) ∧
    (6 ≤ tbuildState.latch.length.toNat ∧ tbuildState.latch.length.toNat ≤ tbuildState.params.lmax) ∧
    (3 : BitVec 2) = 3 ∧ tbuildState.latch.mtype ≠ 3 ∧
    2 < 3 ∧ (¬ countsFit true 5 3 ∧ ¬ countsFit false 4 3) ∧
    (countsFit true 3 3 ∧ 3 + 3 < 2 * 6 - 5) ∧
    (countsFit true 4 3 ∧ 2 * 6 - 5 ≤ 4 + 3 ∧ 64 < 61 + 4) ∧
    (60 + 4 ≤ 64 ∧ 64 < 62 + 3) := by decide

/-- BXLOG2 1 and 12; a luma plane wider than a scratch of 3 columns. -/
theorem witness_IscombedBlockAndSizeFailures :
    iscombedState.latch.fmt.legal ∧ (¬ 2 ≤ (1#4).toNat ∧ ¬ (12#4).toNat ≤ 11) ∧
    (let s := { iscombedState with params := { iscombedState.params with wmax := 3 } }
     (2 ≤ s.latch.icfg.bxlog2.toNat ∧ s.latch.icfg.bxlog2.toNat ≤ 11 ∧
       2 ≤ s.latch.icfg.bylog2.toNat ∧ s.latch.icfg.bylog2.toNat ≤ 11) ∧
     (∀ o ∈ operandsOf s.latch iscombedI, operandOk s.params s.latch none o) ∧
     (∀ q ∈ shapesOf s.latch iscombedI, q.2 = true) ∧
     (s.params.wmax < s.latch.w 0 ∨ s.params.hmax < s.latch.h 0)) := by decide

/-- MAND with slot 1 of no rows: slot 0 passes, slot 1 fails. -/
def mandBadB : State := ready 0x204003
  (regsOf [(0, plane 0 2 2 2), (1, plane 16 2 2 0), (2, plane 32 2 2 2)]) []

theorem witness_DescriptorFailureNamesFirstSlot :
    configLegal mandBadB.params mandBadB.latch mandI ∧
    operandsOf mandBadB.latch mandI = [{ slot := 0 }] ++ { slot := 1 } :: [{ slot := 2 }] ∧
    (∀ p ∈ [({ slot := 0 } : Operand)], operandOk mandBadB.params mandBadB.latch (destSlot mandI) p) ∧
    ¬ operandOk mandBadB.params mandBadB.latch (destSlot mandI) { slot := 1 } :=
  ⟨show mandBadB.latch.fmt.legal by decide, rfl, by decide, by decide⟩

/-- MAND with slot 1 of another size. -/
def mandOtherB : State := ready 0x204003
  (regsOf [(0, plane 0 2 2 2), (1, plane 16 4 4 2), (2, plane 32 2 2 2)]) []

theorem witness_ShapeFailureNamesFirstSlot :
    configLegal mandOtherB.params mandOtherB.latch mandI ∧
    (∀ o ∈ operandsOf mandOtherB.latch mandI,
      operandOk mandOtherB.params mandOtherB.latch (destSlot mandI) o) ∧
    shapesOf mandOtherB.latch mandI = [(0, true)] ++ (1, false) :: [(2, true)] ∧
    ∀ q ∈ [(0, true)], q.2 = true :=
  ⟨show mandOtherB.latch.fmt.legal by decide, by decide, by decide, by decide⟩

/-- MAND with a destination over the second source by one row, no exact alias. -/
def mandOverlap : State := ready 0x204003
  (regsOf [(0, plane 0 2 2 2), (1, plane 16 2 2 2), (2, plane 18 2 2 2)]) []

theorem witness_OverlapFailureNamesFirstSource :
    configLegal mandOverlap.params mandOverlap.latch mandI ∧
    (∀ o ∈ operandsOf mandOverlap.latch mandI,
      operandOk mandOverlap.params mandOverlap.latch (destSlot mandI) o) ∧
    (∀ q ∈ shapesOf mandOverlap.latch mandI, q.2 = true) ∧
    destSlot mandI = some 2 ∧ sourceSlots mandOverlap.latch mandI = [0] ++ 1 :: [] ∧
    (∀ p ∈ [0], ¬ clashes mandOverlap.latch mandI 2 p) ∧ clashes mandOverlap.latch mandI 2 1 :=
  ⟨show mandOverlap.latch.fmt.legal by decide, by decide, by decide, rfl, rfl, by decide, by decide⟩

theorem witness_FailureChangesOnlyStatus :
    clean mandOverlap ∧ ∃ t, exec mandI mandOverlap = .next t ∧ t.status.done = false :=
  ⟨by decide, _, rfl, by decide⟩

theorem witness_PlaneCommandFrame :
    destSlot mandI = some 2 ∧ ∃ t, exec mandI mandState = .next t ∧ t.status.done = true :=
  ⟨rfl, _, rfl, by decide⟩

/-- An address that is a byte of no destination sample, and one that is. -/
theorem witness_PlaneCommandFrame_address :
    outsideSamples mandState 2 31 ∧ ¬ outsideSamples mandState 2 35 := by decide

theorem witness_IscombedFrame : ∃ t, exec iscombedI iscombedState = .next t ∧ t.status.done = true :=
  ⟨_, rfl, by decide⟩

/-- Bit depth 16: slot 0 stored, slot 1 ZERO. -/
def deepState : State := ready 0x204003
  { regsOf [(0, plane 2 4 2 2), (1, zeroPlane 2 2)] with fmt := fmtOf 16 0 0 } (bytesAt 8 [0x34, 0x12])

/-- Little-endian (20_memory.md R83): row 1, column 1 is at 2 + 4 + 2 = 8. -/
theorem test_sample_little_endian :
    deepState.sampleAt 0 1 1 = 0x1234 ∧ deepState.sampleAt 1 1 1 = 0 := by decide

theorem witness_SampleReadsStoredBytes :
    deepState.latch.descs[(0 : Fin 64)].zero = false ∧ deepState.latch.descs[(1 : Fin 64)].zero = true ∧
    deepState.latch.fmt.bitdepth ≠ 8 ∧ mandState.latch.fmt.bitdepth = 8 := by decide

/-- Columns -1, 0, 1 and 2 of a plane of 2; the first and last rows at the heights 2 and 4. -/
theorem witness_BorderReadsReflect :
    (∀ c ∈ [(-1 : Int), 0, 1, 2], -1 ≤ c ∧ c ≤ (2 : Nat)) ∧ 2 ≤ 2 ∧
    (∀ y ∈ [0, 1], ∀ d ∈ [(-1 : Int), 1], y < 2 ∧ (d.natAbs ≤ 1 ∧ 2 ≤ 2 ∨ d.natAbs ≤ 2 ∧ 4 ≤ 2)) ∧
    ∀ y ∈ [0, 1, 2, 3], ∀ d ∈ [(-2 : Int), 2], y < 4 ∧ (d.natAbs ≤ 1 ∧ 2 ≤ 4 ∨ d.natAbs ≤ 2 ∧ 4 ≤ 4) := by
  decide

theorem witness_TmaskWritesThresholds : CommandLegal tmaskI tmaskState ∧ undisturbed tmaskState :=
  ⟨legal_tmask, by decide⟩

theorem witness_TmaskModes :
    tmaskState.params.tmHShift = ⟨none, none⟩ ∧ tmaskState.params.tmVShift = ⟨none, none⟩ ∧
    tmaskState.params.tmPlainShift = ⟨none, none⟩ ∧
    ∀ t < 6, (withLatch tmaskState fun l => { l with ttype := BitVec.ofNat 3 t }).latch.ttype =
      BitVec.ofNat 3 t := by decide

/-- Both overrides set, MTQL 0 and MTHL at PEAK. -/
def tmaskFill : State := tmaskOf 0x4001 { tmaskRegs with mtql := 0, mthl := 255 }

theorem witness_TmaskConstantFill :
    CommandLegal tmaskI tmaskFill ∧ undisturbed tmaskFill ∧
      0 ≤ tmaskFill.latch.mtql.toInt ∧ 0 ≤ tmaskFill.latch.mthl.toInt :=
  ⟨checkOf_eq_none.1 (by decide), by decide, by decide, by decide⟩

theorem witness_TmaskAtmaxAtMostPeak :
    2 ≤ tmaskState.latch.w 0 ∧ 2 ≤ tmaskState.latch.h 0 ∧
    ∀ y < tmaskState.latch.h 0, ∀ x < tmaskState.latch.w 0,
      tmaskState.sampleAt 0 y x ≤ tmaskState.latch.fmt.peak := by decide

theorem witness_MmaskWritesMatchFlags : CommandLegal mmaskI mmaskState ∧ undisturbed mmaskState :=
  ⟨legal_mmask, by decide⟩

theorem witness_MmaskSymmetric : CommandLegal mmaskI mmaskState := legal_mmask

theorem witness_MandWritesBitwiseAnd : CommandLegal mandI mandState ∧ undisturbed mandState :=
  ⟨legal_mand, by decide⟩

/-- Equal masks in slots 0 and 1. -/
def mandEqual : State := ready 0x204003 mandRegs (bytesAt 0 [255, 15, 0, 7] ++ bytesAt 16 [255, 15, 0, 7])

theorem witness_MandIdempotent :
    CommandLegal mandI mandEqual ∧ undisturbed mandEqual ∧
    ∀ r < mandEqual.latch.h 0, ∀ x < mandEqual.latch.w 0,
      mandEqual.sampleAt 0 r x = mandEqual.sampleAt 1 r x :=
  ⟨checkOf_eq_none.1 (by decide), by decide, by decide⟩

theorem witness_McombCopiesOrUpgrades : CommandLegal mcombI mcombState ∧ undisturbed mcombState :=
  ⟨legal_mcomb, by decide⟩

theorem witness_TbuildWritesCodes : CommandLegal tbuildI tbuildState ∧ undisturbed tbuildState :=
  ⟨legal_tbuild, by decide⟩

/-- Both phase orders at both differences of the counts. -/
theorem witness_PhaseArrayPositions :
    countsFit true 3 3 ∧ countsFit true 4 3 ∧ countsFit false 3 3 ∧ countsFit false 3 4 := by decide

/-- The ends of the range of LENGTH. -/
theorem witness_ScanStopsAtFirstDefinite : ∀ len ∈ [6, 34], 6 ≤ len ∧ len ≤ 34 := by decide

/-- V-TB-3: LENGTH 6, four current and three opposite entries, all set. -/
theorem witness_StaticSequenceCode :
    6 ≤ 6 ∧ 6 ≤ 34 ∧ 3 ≤ [255, 255, 255, 255].length ∧ [255, 255, 255].length = [255, 255, 255].length ∧
    countsFit true [255, 255, 255, 255].length [255, 255, 255].length ∧
    2 * 6 - 5 ≤ [255, 255, 255, 255].length + [255, 255, 255].length ∧
    ∀ v ∈ [255, 255, 255, 255] ++ [255, 255, 255] ++ [255, 255, 255], v ≠ 0 := by decide

theorem witness_IscombedScoresLargestCell :
    CommandLegal iscombedI iscombedState ∧ iscombedState.hostTouched = false :=
  ⟨legal_iscombed, rfl⟩

theorem witness_ScoreAtMostBlock :
    CommandLegal iscombedI iscombedState ∧ iscombedState.hostTouched = false ∧
      ∃ t, exec iscombedI iscombedState = .next t :=
  ⟨legal_iscombed, rfl, _, rfl⟩

/-- A frame whose rows rise by 40. -/
def rampState : State := ready 0x6 (iscombedRegs 4 4 0x2200) (rowsOf 4 [0, 40, 80, 120])

theorem witness_ProgressiveFrameScoresZero :
    CommandLegal iscombedI rampState ∧ rampState.hostTouched = false ∧
    0 ≤ rampState.latch.cthresh.toInt ∧
    ∀ slot ∈ sourceSlots rampState.latch iscombedI, ∀ x < rampState.latch.w slot,
      columnMonotone rampState slot x := by
  refine ⟨checkOf_eq_none.1 (by decide), rfl, by decide, ?_⟩
  intro slot hs x hx
  have hslot : slot = 0 := by simpa [sourceSlots, show rampState.latch.icfg.chroma = false from rfl] using hs
  subst hslot
  have key : ∀ x < 4, ∀ y < 3, rampState.sampleAt 0 y x ≤ rampState.sampleAt 0 (y + 1) x := by decide
  have hw : rampState.latch.w 0 = 4 := by decide
  have hh : rampState.latch.h 0 = 4 := by decide
  exact .inl fun y hy => key x (by omega) y (by omega)

/-- 4:2:0 with CHROMA on: luma 8 x 8, chroma 4 x 4. -/
def chromaState : State := ready 0x204006
  { regsOf [(0, plane 0 8 8 8), (1, plane 64 4 4 4), (2, plane 80 4 4 4)] with
    fmt := fmtOf 8 1 1, icfg := Icfg.ofWord 0x2202 } []

/-- With CHROMA on: three constant planes. -/
theorem witness_ProgressiveFrameScoresZero_chroma :
    CommandLegal (.iscombed 0 1 2) chromaState ∧ chromaState.hostTouched = false ∧
    chromaState.latch.icfg.chroma = true ∧ 0 ≤ chromaState.latch.cthresh.toInt ∧
    ∀ slot ∈ sourceSlots chromaState.latch (.iscombed 0 1 2), ∀ x < chromaState.latch.w slot,
      columnMonotone chromaState slot x := by
  refine ⟨checkOf_eq_none.1 (by decide), rfl, rfl, by decide, fun slot _ x _ => .inl fun y _ => ?_⟩
  have hmem : chromaState.mem = [] := rfl
  have hzero : ∀ y, chromaState.sampleAt slot y x = 0 := fun y => by
    have hbps : chromaState.latch.fmt.bps = 1 := by decide
    simp [State.sampleAt, sample, hmem, hbps, Memory.readLE, Memory.read, unlistedByte]
  simp [hzero]

theorem witness_LumaBitmapPropagation :
    CommandLegal (.iscombed 0 1 2) chromaState ∧ chromaState.latch.icfg.chroma = true ∧
      CommandLegal iscombedI iscombedState :=
  ⟨checkOf_eq_none.1 (by decide), rfl, legal_iscombed⟩

theorem witness_CombedMetrics :
    (0 < iscombedState.latch.h 0 ∧ iscombedState.latch.icfg.metric = false) ∧
    (withLatch iscombedState fun l => { l with icfg := Icfg.ofWord 0x2201 }).latch.icfg.metric = true := by
  decide

theorem witness_RegisterWriteThenRead :
    State.reset.status.busy = false ∧ ∀ o ∈ [0x000, 0x004, 0x020, 0x4FC, 0xFFC],
      (BitVec.ofNat 12 o).toNat % 4 = 0 ∧ BitVec.ofNat 12 o ≠ 0x008 := by decide

/-- STATUS and ERRINFO beside a write to FMT, and beside a write to CTRL that is no START; and a START. -/
theorem witness_RegisterWriteThenRead_start :
    ¬ ((0x020 : BitVec 12) = 0x004 ∧ (1#32).getLsbD 0 = true) ∧
    ¬ ((0x004 : BitVec 12) = 0x004 ∧ (6#32).getLsbD 0 = true) ∧
    ((0x004 : BitVec 12) = 0x004 ∧ (1#32).getLsbD 0 = true) ∧
    ∀ o ∈ [(0x008 : BitVec 12), 0x00C], o.toNat % 4 = 0 ∧ o ≠ 0x020 ∧ o ≠ 0x004 := by decide

/-- The ends of each range of dropped offsets. -/
theorem witness_BusyWritesDropped :
    mandState.status.busy = true ∧
    ∀ o ∈ [0x010, 0x014, 0x020, 0x058, 0x100, 0x4FC],
      let offset := BitVec.ofNat 12 o
      offset.toNat % 4 = 0 ∧
        (offset.toNat = 0x010 ∨ offset.toNat = 0x014 ∨
          (0x020 ≤ offset.toNat ∧ offset.toNat ≤ 0x058) ∨
          (0x100 ≤ offset.toNat ∧ offset.toNat ≤ 0x4FF)) := by decide

theorem witness_StartLatches : State.reset.status.busy = false ∧ (0x7#32).getLsbD 0 = true := by
  decide

/-- The first and last offsets of each gap, and the read-only registers, which are listed. -/
theorem witness_UnlistedAndReadOnlyOffsets :
    (∀ o ∈ [0x064, 0x0FC, 0x500, 0xFFC], 
      (BitVec.ofNat 12 o).toNat % 4 = 0 ∧ ¬ listed (BitVec.ofNat 12 o).toNat) ∧
    ∀ o ∈ [0x000, 0x00C, 0x018, 0x01C, 0x05C, 0x060],
      (BitVec.ofNat 12 o).toNat % 4 = 0 ∧ listed (BitVec.ofNat 12 o).toNat := by decide

theorem witness_ResetRegisterValues :
    ∀ o ∈ [0x000, 0x060, 0x100, 0xFFC], (BitVec.ofNat 12 o).toNat % 4 = 0 := by decide

/-- Reset while the MAND runs: address 31 is outside its destination extent, 32 is inside. -/
def resetMand : State := { mandState with host := [.reset] }

theorem witness_ResetAbandonsCommand :
    nextAct resetMand = .reset ∧ resetMand.params.legal ∧ resetMand.status.busy = true ∧
    decode resetMand.latch.word = .ok mandI ∧ destSlot mandI = some 2 ∧
    ¬ (resetMand.latch.desc 2).covers resetMand.latch.fmt.bps 31 ∧
    (resetMand.latch.desc 2).covers resetMand.latch.fmt.bps 32 := by decide +kernel

/-- The first and the last byte of the memory; address 0 is in an operand extent of the MAND, 4095 in none; and an idle
block. -/
theorem witness_HostWriteStoresByte :
    Memory.wf mandState.mem ∧ (0#32).toNat < mandState.params.memSize ∧
    (4095#32).toNat < mandState.params.memSize ∧
    mandState.inOperand 0 = true ∧ mandState.inOperand 4095 = false ∧
    Memory.wf State.reset.mem ∧ State.reset.status.busy = false := by decide +kernel

/-- Address 36, the first byte after the destination extent. -/
theorem witness_HostWriteOutsideOperandsCommutes :
    Memory.wf mandState.mem ∧ mandState.status.busy = true ∧
    decode mandState.latch.word = .ok mandI ∧ CommandLegal mandI mandState ∧
    (36#32).toNat < mandState.params.memSize ∧
    (∀ dst ∈ destSlot mandI, ¬ (mandState.latch.desc dst).covers mandState.latch.fmt.bps (36#32).toNat) ∧
    ∀ src ∈ sourceSlots mandState.latch mandI,
      ¬ (mandState.latch.desc src).covers mandState.latch.fmt.bps (36#32).toNat :=
  ⟨by decide +kernel, by decide +kernel, by decide +kernel, legal_mand, by decide +kernel, by decide +kernel, by decide +kernel⟩

/-- Address 0, in a source extent, and the last byte of the memory. -/
theorem witness_HostReadOutsideDestination :
    ∀ k ∈ [0, 4095], (BitVec.ofNat 32 k).toNat < mandState.params.memSize ∧
      ∀ i dst, mandState.status.busy = true → decode mandState.latch.word = .ok i →
        destSlot i = some dst →
        ¬ (mandState.latch.desc dst).covers mandState.latch.fmt.bps (BitVec.ofNat 32 k).toNat := by
  intro k hk
  have hd : decode mandState.latch.word = .ok mandI := by decide
  have hout : ∀ k ∈ [0, 4095],
      ¬ (mandState.latch.desc 2).covers mandState.latch.fmt.bps (BitVec.ofNat 32 k).toNat := by decide
  refine ⟨by revert k; decide, fun i dst _ hi hdst => ?_⟩
  have h1 : mandI = i := by rw [hd] at hi; injection hi
  subst h1
  injection hdst with h2
  subst h2
  exact hout k hk

theorem witness_StepKeepsInvariant : mandState.Inv ∧ ∃ t, step mandState = .next t :=
  ⟨⟨by decide, by decide, by decide, by decide, by decide, by decide, by decide, by decide, by decide⟩,
    _, rfl⟩

/-- A half-word access, a misaligned one, and the first address that does not exist; and a legal access. -/
theorem witness_StepAnswersLegalAccess :
    (HostAct.regRead 0x008 2).legal State.reset.params = false ∧
    (HostAct.regWrite 0x00A 4 0).legal State.reset.params = false ∧
    (HostAct.memRead 4096).legal State.reset.params = false ∧
    (HostAct.memWrite 4096 0).legal State.reset.params = false ∧
    (HostAct.memRead 4095).legal State.reset.params = true ∧
    nextAct { State.reset with host := [.memRead 4096] } = .memRead 4096 := by decide

/-- A host list with each kind of access first, and the empty one. -/
theorem witness_StepAnswersLegalAccess_kinds :
    (∀ a ∈ [HostAct.regRead 0x008 4, .regWrite 0x020 4 8, .memRead 5, .memWrite 5 7, .blockTurn],
      nextAct { State.reset with host := [a] } = a) ∧
    nextAct State.reset = .blockTurn ∧ State.reset.status.busy = false := by decide

theorem witness_ConstantsNeverChange : ∃ t, step mandState = .next t := ⟨_, rfl⟩

/-- The score changes at the end of an ISCOMBED, and at a reset after it. -/
theorem witness_ResultWrittenOnlyByIscombed :
    (∃ t, step iscombedState = .next t ∧ t.result ≠ iscombedState.result) ∧
    ∃ t, step { iscombedState with result := ⟨9, true⟩, host := [.reset] } = .next t ∧
      t.result ≠ ⟨9, true⟩ :=
  ⟨⟨_, rfl, by decide +kernel⟩, _, rfl, by decide⟩

/-- BUSY rises at a START and falls at the block's turn and at a reset. -/
theorem witness_BusyChangesOnlyByStartAndCompletion :
    (∃ t, step { State.reset with host := [.regWrite 0x004 4 1] } = .next t ∧ t.status.busy = true) ∧
    (∃ t, step mandState = .next t ∧ t.status.busy = false) ∧
    ∃ t, step resetMand = .next t ∧ t.status.busy = false :=
  ⟨⟨_, rfl, rfl⟩, ⟨_, rfl, by decide⟩, _, rfl, rfl⟩

/-- A host write and a MAND change the memory. -/
theorem witness_MemoryChangesOnlyByHostOrBusyBlock :
    (∃ t, step { State.reset with host := [.memWrite 5 7] } = .next t ∧ t.mem ≠ State.reset.mem) ∧
    ∃ t, step mandState = .next t ∧ t.mem ≠ mandState.mem :=
  ⟨⟨_, rfl, by decide⟩, _, rfl, by decide⟩

/-- Two states that differ in a byte of no operand. -/
def mandElsewhere : State := { mandState with mem := Memory.write mandState.mem 100 9 }

theorem witness_CommandDependsOnlyOnOperands :
    undisturbed mandState ∧ undisturbed mandElsewhere ∧ clean mandState ∧ clean mandElsewhere ∧ mandState.latch = mandElsewhere.latch ∧
    mandState.params = mandElsewhere.params ∧ mandState.rom = mandElsewhere.rom ∧
    mandState.mem ≠ mandElsewhere.mem ∧
    ∀ slot ∈ sourceSlots mandState.latch mandI, ∀ y < mandState.latch.h slot,
      ∀ x < mandState.latch.w slot, mandState.sampleAt slot y x = mandElsewhere.sampleAt slot y x :=
  ⟨by decide, by decide, by decide, by decide, rfl, rfl, rfl, by decide, by decide⟩

/-- The same for an ISCOMBED, which the second state runs with WBUSY set. -/
def iscombedElsewhere : State :=
  { iscombedState with
    mem := Memory.write iscombedState.mem 100 9, status := { iscombedState.status with wbusy := true } }

theorem witness_CommandDependsOnlyOnOperands_iscombed :
    undisturbed iscombedState ∧ undisturbed iscombedElsewhere ∧ clean iscombedState ∧
    clean iscombedElsewhere ∧ iscombedState.latch = iscombedElsewhere.latch ∧
    iscombedState.params = iscombedElsewhere.params ∧ iscombedState.rom = iscombedElsewhere.rom ∧
    iscombedState.mem ≠ iscombedElsewhere.mem ∧
    ∀ slot ∈ sourceSlots iscombedState.latch iscombedI, ∀ y < iscombedState.latch.h slot,
      ∀ x < iscombedState.latch.w slot,
        iscombedState.sampleAt slot y x = iscombedElsewhere.sampleAt slot y x :=
  ⟨by decide, by decide, by decide, by decide, rfl, rfl, rfl, by decide, by decide⟩

end Sys2Proof.Tests
end

section
/-! What a command's result depends on: the latch, the constants and its source samples (00_scope.md R16,
20_memory.md R95). -/

open Sys2Proof.Machine.Claim

namespace Sys2Proof.Machine

/-! ### The planes of a legal command (60_exceptions.md R247, R250) -/

theorem CommandLegal.tmask_planes {src dst : Nat} {pclass : Bool} {s : State}
    (h : CommandLegal (.tmask src dst pclass) s) :
    2 ≤ s.latch.w src ∧ 2 ≤ s.latch.h src ∧ s.latch.isSize dst (s.latch.w src) (2 * s.latch.h src) := by
  obtain ⟨_, _, hw, _, hh, _⟩ := h.operands { slot := src, minW := 2, minH := 2 } (by simp [operandsOf])
  exact ⟨hw, hh, by simpa only [shapesOf, List.forall_mem_singleton, decide_eq_true_eq] using h.shapes⟩

theorem CommandLegal.mmask_planes {src1 msk1 src2 msk2 dst : Nat} {s : State}
    (h : CommandLegal (.mmask src1 msk1 src2 msk2 dst) s) :
    s.latch.isSize msk1 (s.latch.w src1) (2 * s.latch.h src1) ∧
      s.latch.isSize src2 (s.latch.w src1) (s.latch.h src1) ∧
      s.latch.isSize msk2 (s.latch.w src1) (2 * s.latch.h src1) ∧
      s.latch.isSize dst (s.latch.w src1) (2 * s.latch.h src1) := by
  obtain ⟨hmsk1, hsrc2, hmsk2, hdst, _⟩ := by
    simpa only [shapesOf, List.forall_mem_cons, decide_eq_true_eq] using h.shapes
  exact ⟨hmsk1, hsrc2, hmsk2, hdst⟩

theorem CommandLegal.mand_planes {a b dst : Nat} {s : State} (h : CommandLegal (.mand a b dst) s) :
    s.latch.isSize b (s.latch.w a) (s.latch.h a) ∧ s.latch.isSize dst (s.latch.w a) (s.latch.h a) := by
  obtain ⟨_, hb, hdst, _⟩ := by
    simpa only [shapesOf, List.forall_mem_cons, decide_eq_true_eq] using h.shapes
  exact ⟨hb, hdst⟩

theorem CommandLegal.mcomb_planes {src dst : Nat} {s : State} (h : CommandLegal (.mcomb src dst) s) :
    2 ≤ s.latch.w src ∧ 4 ≤ s.latch.h src ∧ s.latch.h src % 2 = 0 ∧
      s.latch.isSize dst (s.latch.w src) (s.latch.h src / 2) := by
  obtain ⟨_, _, hw, _, hh, _⟩ := h.operands { slot := src, minW := 2, minH := 4 } (by simp [operandsOf])
  obtain ⟨heven, hdst, _⟩ := by
    simpa only [shapesOf, List.forall_mem_cons, decide_eq_true_eq] using h.shapes
  exact ⟨hw, hh, heven, hdst⟩

theorem CommandLegal.tbuild_planes {dst cbase ccnt obase ocnt : Nat}
    {order field rowpar cfirst wother : Bool} {s : State}
    (h : CommandLegal (.tbuild dst cbase ccnt obase ocnt order field rowpar cfirst wother) s) :
    2 ≤ s.latch.h dst ∧ ∀ m ∈ maskSlots cbase ccnt obase ocnt,
      s.latch.isSize m (s.latch.w dst) (s.latch.h dst) := by
  obtain ⟨_, _, _, _, hh, _⟩ := h.operands { slot := dst, minH := 2 } (by simp [operandsOf])
  exact ⟨hh, by simpa only [shapesOf, List.forall_mem_map, decide_eq_true_eq] using h.shapes⟩

theorem CommandLegal.iscombed_height {ys us vs slot : Nat} {s : State}
    (h : CommandLegal (.iscombed ys us vs) s) (hslot : slot ∈ sourceSlots s.latch (.iscombed ys us vs)) :
    iscombedMinH s.latch ≤ s.latch.h slot := by
  obtain ⟨_, _, _, _, hh, _⟩ :=
    h.operands { slot := slot, minH := iscombedMinH s.latch } (List.mem_map_of_mem hslot)
  exact hh

/-! ### Two states a command cannot tell apart -/

/-- Equal latches and constants, and equal samples of every source plane of the command. -/
structure SameOperands (i : Instr) (s1 s2 : State) : Prop where
  latch : s1.latch = s2.latch
  params : s1.params = s2.params
  rom : s1.rom = s2.rom
  samples : ∀ slot ∈ sourceSlots s1.latch i, ∀ y < s1.latch.h slot, ∀ x < s1.latch.w slot,
    s1.sampleAt slot y x = s2.sampleAt slot y x

theorem SameOperands.checkOf_eq {i : Instr} {s1 s2 : State} (h : SameOperands i s1 s2) :
    checkOf i s1 = checkOf i s2 := by
  rw [Machine.checkOf_eq, Machine.checkOf_eq, h.latch, h.params]

/-! ### The sample each command writes reads only source samples -/

theorem SameOperands.tmaskSample_eq {src dst r x : Nat} {pclass : Bool} {s1 s2 : State}
    (h : SameOperands (.tmask src dst pclass) s1 s2) (hl : CommandLegal (.tmask src dst pclass) s1)
    (hr : r < s1.latch.h dst) (hx : x < s1.latch.w dst) :
    tmaskSample s1 src pclass r x = tmaskSample s2 src pclass r x := by
  obtain ⟨hw, hh, hdw, hdh⟩ := hl.tmask_planes
  have hatmax : ∀ y < s1.latch.h src, tmaskAtmax s1 src pclass y x = tmaskAtmax s2 src pclass y x := by
    intro y hy
    simp only [tmaskAtmax, ← h.latch, ← h.params]
    rw [window_congr hw hh hy (by omega) (h.samples src (by simp [sourceSlots]))]
  simp only [tmaskSample, ← h.latch]
  split
  · rw [hatmax r (by assumption)]
  · rw [hatmax _ (by omega)]

theorem SameOperands.mmaskSample_eq {src1 msk1 src2 msk2 dst r x : Nat} {s1 s2 : State}
    (h : SameOperands (.mmask src1 msk1 src2 msk2 dst) s1 s2)
    (hl : CommandLegal (.mmask src1 msk1 src2 msk2 dst) s1)
    (hr : r < s1.latch.h dst) (hx : x < s1.latch.w dst) :
    mmaskSample s1 src1 msk1 src2 msk2 r x = mmaskSample s2 src1 msk1 src2 msk2 r x := by
  obtain ⟨⟨hm1w, hm1h⟩, ⟨hs2w, hs2h⟩, ⟨hm2w, hm2h⟩, hdw, hdh⟩ := hl.mmask_planes
  have hrow : (if r < s1.latch.h src1 then r else r - s1.latch.h src1) < s1.latch.h src1 := by
    split <;> omega
  simp only [mmaskSample, ← h.latch]
  rw [h.samples src1 (by simp [sourceSlots]) _ hrow x (by omega),
    h.samples src2 (by simp [sourceSlots]) _ (by omega) x (by omega),
    h.samples msk1 (by simp [sourceSlots]) r (by omega) x (by omega),
    h.samples msk2 (by simp [sourceSlots]) r (by omega) x (by omega)]

theorem SameOperands.mandSample_eq {a b dst r x : Nat} {s1 s2 : State}
    (h : SameOperands (.mand a b dst) s1 s2) (hl : CommandLegal (.mand a b dst) s1)
    (hr : r < s1.latch.h dst) (hx : x < s1.latch.w dst) :
    mandSample s1 a b r x = mandSample s2 a b r x := by
  obtain ⟨⟨hbw, hbh⟩, hdw, hdh⟩ := hl.mand_planes
  rw [mandSample, mandSample, h.samples a (by simp [sourceSlots]) r (by omega) x (by omega),
    h.samples b (by simp [sourceSlots]) r (by omega) x (by omega)]

theorem SameOperands.mcombSample_eq {src dst y x : Nat} {s1 s2 : State}
    (h : SameOperands (.mcomb src dst) s1 s2) (hl : CommandLegal (.mcomb src dst) s1)
    (hy : y < s1.latch.h dst) (hx : x < s1.latch.w dst) :
    mcombSample s1 src y x = mcombSample s2 src y x := by
  obtain ⟨hw, hh, heven, hdw, hdh⟩ := hl.mcomb_planes
  have hread := h.samples src (by simp [sourceSlots])
  have hcount : neighbourCount (s1.sampleAt src) (s1.latch.w src) (s1.latch.h src / 2) y x =
      neighbourCount (s2.sampleAt src) (s1.latch.w src) (s1.latch.h src / 2) y x :=
    neighbourCount_congr hw (by omega) (by omega) (by omega)
      fun y' hy' x' hx' => hread y' (by omega) x' hx'
  simp only [mcombSample, ← h.latch]
  rw [hcount, hread y (by omega) x (by omega), hread _ (by omega) x (by omega)]

/-- The samples of mask slots that agree at one pixel. -/
theorem maskSamples_congr {s1 s2 : State} {first n y x : Nat}
    (h : ∀ m ∈ List.range' first n, s1.sampleAt m y x = s2.sampleAt m y x) :
    maskSamples s1 first n y x = maskSamples s2 first n y x := List.map_congr_left h

theorem SameOperands.tbuildSample_eq {dst cbase ccnt obase ocnt y x : Nat}
    {order field rowpar cfirst wother : Bool} {s1 s2 : State}
    (h : SameOperands (.tbuild dst cbase ccnt obase ocnt order field rowpar cfirst wother) s1 s2)
    (hl : CommandLegal (.tbuild dst cbase ccnt obase ocnt order field rowpar cfirst wother) s1)
    (hy : y < s1.latch.h dst) (hx : x < s1.latch.w dst) :
    tbuildSample s1 dst cbase ccnt obase ocnt order field rowpar cfirst wother y x =
      tbuildSample s2 dst cbase ccnt obase ocnt order field rowpar cfirst wother y x := by
  obtain ⟨hh, hmasks⟩ := hl.tbuild_planes
  have hread : ∀ m ∈ maskSlots cbase ccnt obase ocnt, ∀ y' < s1.latch.h dst,
      s1.sampleAt m y' x = s2.sampleAt m y' x := by
    intro m hm y' hy'
    obtain ⟨hmw, hmh⟩ := hmasks m hm
    exact h.samples m hm y' (by omega) x (by omega)
  have hcur : maskSamples s1 cbase ccnt y x = maskSamples s2 cbase ccnt y x :=
    maskSamples_congr fun m hm => hread m (List.mem_append_left _ hm) y hy
  have hopp : ∀ y' < s1.latch.h dst,
      maskSamples s1 obase ocnt y' x = maskSamples s2 obase ocnt y' x := fun y' hy' =>
    maskSamples_congr fun m hm => hread m (List.mem_append_right _ hm) y' hy'
  simp only [tbuildSample, ← h.latch, ← h.rom]
  rw [hcur, hopp _ (rrow_lt hy (by omega)), hopp _ (rrow_lt hy (by omega))]

/-- The sample a command puts at a position of its destination, as its rule names it. -/
def destSample (s : State) : Instr → Nat → Nat → Option Nat
  | .tmask src _ pclass, r, x => some (tmaskSample s src pclass r x)
  | .mmask src1 msk1 src2 msk2 _, r, x => some (mmaskSample s src1 msk1 src2 msk2 r x)
  | .mand a b _, r, x => some (mandSample s a b r x)
  | .mcomb src _, y, x => some (mcombSample s src y x)
  | .tbuild dst cbase ccnt obase ocnt order field rowpar cfirst wother, y, x =>
      tbuildSample s dst cbase ccnt obase ocnt order field rowpar cfirst wother y x
  | .iscombed _ _ _, _, _ => none

theorem effectOf_eq_commitPlane {i : Instr} {dst : Nat} (s : State) (hd : destSlot i = some dst) :
    effectOf i s = commitPlane dst (destSample s i) s := by
  cases i <;> simp only [destSlot, Option.some.injEq, reduceCtorEq] at hd <;> subst hd <;> rfl

theorem SameOperands.destSample_eq {i : Instr} {dst y x : Nat} {s1 s2 : State}
    (h : SameOperands i s1 s2) (hl : CommandLegal i s1) (hd : destSlot i = some dst)
    (hy : y < s1.latch.h dst) (hx : x < s1.latch.w dst) :
    destSample s1 i y x = destSample s2 i y x := by
  cases i <;> simp only [destSlot, Option.some.injEq, reduceCtorEq] at hd <;> subst hd
  case tmask => exact congrArg some (h.tmaskSample_eq hl hy hx)
  case mmask => exact congrArg some (h.mmaskSample_eq hl hy hx)
  case mand => exact congrArg some (h.mandSample_eq hl hy hx)
  case mcomb => exact congrArg some (h.mcombSample_eq hl hy hx)
  case tbuild => exact h.tbuildSample_eq hl hy hx

/-! ### The combing score reads only source samples -/

/-- The combing test at a pixel of a plane of the metric's least height reads only samples of its column. -/
theorem combedAt_congr {rd1 rd2 : Nat → Nat → Nat} {h y x : Nat} {metric : Bool} {t : Int}
    (hh : (if metric then 2 else 4) ≤ h) (hy : y < h) (he : ∀ y < h, rd1 y x = rd2 y x) :
    combedAt rd1 h metric t y x = combedAt rd2 h metric t y x := by
  have hrow : ∀ d : Int, d.natAbs + d.natAbs ≤ h → rd1 (rrow y d h) x = rd2 (rrow y d h) x :=
    fun d hd => he _ (rrow_lt hy hd)
  cases metric with
  | true =>
    simp only [if_true] at hh
    simp only [combedAt, if_true]
    rw [hrow 0 (by omega), hrow (-1) (by omega), hrow 1 (by omega)]
  | false =>
    simp only [Bool.false_eq_true, if_false] at hh
    simp only [combedAt, Bool.false_eq_true, if_false]
    rw [hrow 0 (by omega), hrow (-1) (by omega), hrow 1 (by omega), hrow (-2) (by omega),
      hrow 2 (by omega)]

theorem SameOperands.combedBitmap_eq {ys us vs slot : Nat} {s1 s2 : State}
    (h : SameOperands (.iscombed ys us vs) s1 s2) (hl : CommandLegal (.iscombed ys us vs) s1)
    (hslot : slot ∈ sourceSlots s1.latch (.iscombed ys us vs)) :
    combedBitmap s1 slot = combedBitmap s2 slot := by
  rw [combedBitmap, combedBitmap, ← h.latch]
  exact bitmapOf_congr fun y hy x hx =>
    combedAt_congr (hl.iscombed_height hslot) hy fun y' hy' => h.samples slot hslot y' hy' x hx

theorem SameOperands.lumaBitmap_eq {ys us vs : Nat} {s1 s2 : State}
    (h : SameOperands (.iscombed ys us vs) s1 s2) (hl : CommandLegal (.iscombed ys us vs) s1) :
    lumaBitmap s1 ys us vs = lumaBitmap s2 ys us vs := by
  have hplane : ∀ slot ∈ sourceSlots s1.latch (.iscombed ys us vs),
      combedBitmap s1 slot = combedBitmap s2 slot := fun _ hslot => h.combedBitmap_eq hl hslot
  cases hc : s1.latch.icfg.chroma with
  | true =>
    simp only [sourceSlots, hc, if_true, List.forall_mem_cons] at hplane
    obtain ⟨hluma, hu, hv, _⟩ := hplane
    simp only [lumaBitmap, ← h.latch, hc, if_true, hluma, hu, hv]
  | false =>
    simp only [sourceSlots, hc, Bool.false_eq_true, if_false, List.forall_mem_singleton] at hplane
    simp only [lumaBitmap, ← h.latch, hc, Bool.false_eq_true, if_false, hplane]

theorem SameOperands.iscombedScore_eq {ys us vs : Nat} {s1 s2 : State}
    (h : SameOperands (.iscombed ys us vs) s1 s2) (hl : CommandLegal (.iscombed ys us vs) s1) :
    iscombedScore s1 ys us vs = iscombedScore s2 ys us vs := by
  simp only [iscombedScore, iscombedScratch, h.lumaBitmap_eq hl, h.latch]

/-- SCORE and RESULT of an ISCOMBED no host write disturbed (R210, R219). -/
theorem scoreFrame_result {ys us vs : Nat} {s : State} (ht : s.hostTouched = false) :
    (scoreFrame ys us vs s).result =
      { score := BitVec.ofNat 32 (iscombedScore s ys us vs)
        combed := combedFlag (BitVec.ofNat 32 (iscombedScore s ys us vs)) s.latch.mi } := by
  simp only [scoreFrame, ht, Bool.false_eq_true, if_false, withScore_result]

/-! ### What a command leaves in two such states -/

/-- Each byte is equal in both memories or kept in both. -/
abbrev bytesAgreeOrKept (m1 m2 n1 n2 : Memory) : Prop :=
  ∀ a, Memory.read n1 a = Memory.read n2 a ∨
    Memory.read n1 a = Memory.read m1 a ∧ Memory.read n2 a = Memory.read m2 a

/-- The same cells written to two memories make their bytes equal or keep them in both. -/
theorem writeAll_bytesAgreeOrKept {m1 m2 : Memory} (cs : List Host.Cell) (hm1 : Memory.wf m1)
    (hm2 : Memory.wf m2) : bytesAgreeOrKept m1 m2 (m1.writeAll cs) (m2.writeAll cs) := by
  intro a
  induction cs generalizing m1 m2 with
  | nil => exact .inr ⟨rfl, rfl⟩
  | cons c cs ih =>
    rw [Memory.writeAll_cons, Memory.writeAll_cons]
    rcases ih (Memory.write_wf c.1 c.2 hm1) (Memory.write_wf c.1 c.2 hm2) with heq | ⟨hk1, hk2⟩
    · exact .inl heq
    · rw [hk1, hk2]
      by_cases ha : a = c.1
      · rw [ha, Memory.read_write_same _ _ hm1, Memory.read_write_same _ _ hm2]
        exact .inl rfl
      · rw [Memory.read_write_other _ ha, Memory.read_write_other _ ha]
        exact .inr ⟨rfl, rfl⟩

/-- A commit no host write disturbed writes its cells (R92, R95). -/
theorem commitPlane_mem {dst : Nat} {f : Nat → Nat → Option Nat} {s : State}
    (ht : s.hostTouched = false) :
    (commitPlane dst f s).mem =
      s.mem.writeAll (planeCells s.latch.fmt.bps (s.latch.desc dst) f) := by
  simp only [commitPlane, ht, Bool.false_eq_true, if_false]

theorem SameOperands.effectOf_result {i : Instr} {s1 s2 : State} (h : SameOperands i s1 s2)
    (hl : CommandLegal i s1) (h1 : s1.hostTouched = false) (h2 : s2.hostTouched = false) :
    (effectOf i s1).result = (effectOf i s2).result ∨
      (effectOf i s1).result = s1.result ∧ (effectOf i s2).result = s2.result := by
  cases i with
  | iscombed ys us vs =>
    refine .inl ?_
    simp only [effectOf, effectFrom]
    rw [scoreFrame_result h1, scoreFrame_result h2, h.iscombedScore_eq hl, h.latch]
  | tmask | mmask | mand | mcomb | tbuild =>
    exact .inr ⟨commitPlane_result _ _ _, commitPlane_result _ _ _⟩

theorem SameOperands.effectOf_mem {i : Instr} {s1 s2 : State} (h : SameOperands i s1 s2)
    (hl : CommandLegal i s1) (hu1 : undisturbed s1) (hu2 : undisturbed s2) :
    bytesAgreeOrKept s1.mem s2.mem (effectOf i s1).mem (effectOf i s2).mem := by
  cases hd : destSlot i with
  | none =>
    cases i <;> simp only [destSlot, reduceCtorEq] at hd
    exact fun a => .inr ⟨by simp only [effectOf, effectFrom, scoreFrame_mem],
      by simp only [effectOf, effectFrom, scoreFrame_mem]⟩
  | some dst =>
    have hcells : planeCells s1.latch.fmt.bps (s1.latch.desc dst) (destSample s1 i) =
        planeCells s2.latch.fmt.bps (s2.latch.desc dst) (destSample s2 i) := by
      rw [← h.latch]
      exact planeCells_congr fun y hy x hx => h.destSample_eq hl hd hy hx
    rw [effectOf_eq_commitPlane s1 hd, effectOf_eq_commitPlane s2 hd, commitPlane_mem hu1.1,
      commitPlane_mem hu2.1, hcells]
    exact writeAll_bytesAgreeOrKept _ hu1.2 hu2.2

/-- Two clean running commands have the same STATUS and ERRINFO but for WBUSY (R279). -/
theorem status_eq_of_clean {s1 s2 : State} (h1 : clean s1) (h2 : clean s2) :
    s1.status = { s2.status with wbusy := s1.status.wbusy } := by
  obtain ⟨hb1, hd1, he1, hc1, hi1⟩ := h1
  obtain ⟨hb2, hd2, he2, hc2, hi2⟩ := h2
  simp only [hb2.trans hb1.symm, hd2.trans hd1.symm, he2.trans he1.symm, hc2.trans hc1.symm,
    hi2.trans hi1.symm]

/-- Settles O56: the checks read the latch and the parameters, and every sample or score a legal command
computes reads its source planes inside their bounds. -/
theorem commandDependsOnlyOnOperands : Obligations.CommandDependsOnlyOnOperands := by
  intro i s1 s2 hu1 hu2 hlatch hparams hrom hsamples
  have h : SameOperands i s1 s2 := ⟨hlatch, hparams, hrom, hsamples⟩
  cases hcheck : checkOf i s1 with
  | some f =>
    refine ⟨_, _, exec_of_check_some hcheck, exec_of_check_some (h.checkOf_eq ▸ hcheck),
      .inr ⟨rfl, rfl⟩, fun hc1 hc2 => ?_, fun a => .inr ⟨rfl, rfl⟩⟩
    rw [failCommand_status, failCommand_status, status_eq_of_clean hc1 hc2]
    rfl
  | none =>
    have hl : CommandLegal i s1 := checkOf_eq_none.1 hcheck
    refine ⟨_, _, exec_of_check_none hcheck, exec_of_check_none (h.checkOf_eq ▸ hcheck),
      h.effectOf_result hl hu1.1 hu2.1, fun hc1 hc2 => ?_, h.effectOf_mem hl hu1 hu2⟩
    rw [succeedCommand_status, succeedCommand_status, status_effectOf, status_effectOf,
      status_eq_of_clean hc1 hc2]
    rfl

end Sys2Proof.Machine
end

section
/-! The register space: what a read of each register returns, and what a write leaves to be read back
(10_state.md R31 to R59). -/

open Sys2Proof.Machine.Claim

namespace Sys2Proof.Machine

/-! ### The fields of a register in the places of R59 -/

theorem getLsbD_flagBit {b : Bool} {n i : Nat} (hi : i < 32) :
    (flagBit b n).getLsbD i = (b && decide (i = n)) := by
  cases b with
  | false => simp [flagBit]
  | true =>
    rw [flagBit, if_pos rfl, BitVec.getLsbD_ofNat, Nat.testBit_two_pow]
    simp [hi, eq_comm]

@[simp] theorem getElem_flagBit {b : Bool} {n i : Nat} (hi : i < 32) :
    (flagBit b n)[i] = (b && decide (i = n)) := getLsbD_flagBit hi

theorem flagBit_zero_eq (b : Bool) : flagBit b 0 = 0#31 ++ BitVec.ofBool b := by cases b <;> rfl

theorem Ctrl.word_eq (c : Ctrl) :
    c.word = 0#29 ++ BitVec.ofBool c.ieErr ++ BitVec.ofBool c.ieDone ++ 0#1 := by
  obtain ⟨ieDone, ieErr⟩ := c
  cases ieDone <;> cases ieErr <;> rfl

theorem Fmt.word_eq (f : Fmt) : f.word = 0#18 ++ f.ssh ++ 0#2 ++ f.ssw ++ 0#3 ++ f.bitdepth := by
  apply BitVec.eq_of_getLsbD_eq
  intro i hi
  simp only [Fmt.word, BitVec.getLsbD_append, BitVec.getLsbD_or, BitVec.getLsbD_setWidth,
    BitVec.getLsbD_shiftLeft]
  grind

theorem Icfg.word_eq (c : Icfg) :
    c.word = 0#16 ++ c.bylog2 ++ c.bxlog2 ++ 0#6 ++ BitVec.ofBool c.chroma ++
      BitVec.ofBool c.metric := by
  apply BitVec.eq_of_getLsbD_eq
  intro i hi
  simp only [Icfg.word, BitVec.getLsbD_append, BitVec.getLsbD_or, BitVec.getLsbD_setWidth,
    BitVec.getLsbD_shiftLeft, getLsbD_flagBit hi, BitVec.getLsbD_ofBool]
  grind

theorem cap0Word_eq (p : Params) : cap0Word p = 0#16 ++ 64#8 ++ BitVec.ofNat 8 p.lmax := by
  apply BitVec.eq_of_toNat_eq
  simp only [BitVec.toNat_append, cap0Word, BitVec.toNat_ofNat]
  rw [← Nat.shiftLeft_add_eq_or_of_lt (by omega)]
  have : 16384 + p.lmax % 256 < 2 ^ 32 := by omega
  simp [nslots]
  omega

theorem cap1Word_eq (p : Params) :
    cap1Word p = BitVec.ofNat 16 p.hmax ++ BitVec.ofNat 16 p.wmax := by
  apply BitVec.eq_of_toNat_eq
  simp only [BitVec.toNat_append, cap1Word, BitVec.toNat_ofNat]
  rw [← Nat.shiftLeft_add_eq_or_of_lt (by omega)]
  omega

theorem ttype_word_eq (b : BitVec 3) : b.setWidth 32 = 0#29 ++ b :=
  BitVec.setWidth_eq_append (by decide)

theorem mtype_word_eq (b : BitVec 2) : b.setWidth 32 = 0#30 ++ b :=
  BitVec.setWidth_eq_append (by decide)

/-! ### The register map -/

/-- The offset of a register (R59). -/
def Reg.offset : Reg → Nat
  | .id => 0x000
  | .ctrl => 0x004
  | .status => 0x008
  | .errinfo => 0x00C
  | .cmd0 => 0x010
  | .cmd1 => 0x014
  | .score => 0x018
  | .result => 0x01C
  | .fmt => 0x020
  | .ttype => 0x024
  | .mtql => 0x028
  | .mthl => 0x02C
  | .mtqc => 0x030
  | .mthc => 0x034
  | .nt => 0x038
  | .minThresh => 0x03C
  | .maxThresh => 0x040
  | .cstr => 0x044
  | .length => 0x048
  | .mtype => 0x04C
  | .cthresh => 0x050
  | .mi => 0x054
  | .icfg => 0x058
  | .cap0 => 0x05C
  | .cap1 => 0x060
  | .dBase n => 0x100 + 16 * n
  | .dStride n => 0x100 + 16 * n + 4
  | .dDim n => 0x100 + 16 * n + 8
  | .dFlags n => 0x100 + 16 * n + 12

/-- A register of the map stands at its own offset only. -/
theorem offset_of_regAt {o : Nat} {r : Reg} (h : regAt o = some r) : r.offset = o := by
  unfold regAt at h
  split at h
  case h_26 =>
    split at h
    · unfold descReg at h
      split at h <;> cases h <;> simp only [Reg.offset, Fin.ofNat] <;> omega
    · cases h
  all_goals cases h; rfl

/-! ### Reads -/

theorem hostRegRead_of_legal {o : BitVec 12} {n : Nat} {s : State} (h : accessLegal o n) :
    hostRegRead o n s = .next { s with busData := readOffset s o.toNat } := if_pos h

theorem hostRegWrite_of_legal {o : BitVec 12} {n : Nat} {v : Word} {s : State} (h : accessLegal o n) :
    hostRegWrite o n v s = .next (writeOffset s v o.toNat) := if_pos h

theorem readOffset_of_regAt {s : State} {o : Nat} {r : Reg} (h : regAt o = some r) :
    readOffset s o = readReg s r := by
  rw [readOffset, h]

theorem readOffset_of_unlisted {s : State} {o : Nat} (h : regAt o = none) : readOffset s o = 0 := by
  rw [readOffset, h]

theorem hostRegRead_eq {o : BitVec 12} {s : State} {w : Word} (ho : o.toNat % 4 = 0)
    (hw : readOffset s o.toNat = w) : hostRegRead o 4 s = .next { s with busData := w } := by
  rw [hostRegRead_of_legal ⟨rfl, ho⟩, hw]

theorem fixedReads_aligned (s : State) : ∀ r ∈ fixedReads s, r.1.toNat % 4 = 0 := by
  simp

theorem readOffset_fixedReads (s : State) : ∀ r ∈ fixedReads s, readOffset s r.1.toNat = r.2 := by
  simp only [List.forall_mem_cons, List.not_mem_nil, false_imp_iff, implies_true, and_true]
  exact ⟨rfl, Ctrl.word_eq _, rfl, rfl, rfl, rfl, flagBit_zero_eq _, Fmt.word_eq _, ttype_word_eq _,
    rfl, rfl, rfl, rfl, rfl, rfl, rfl, rfl, rfl, mtype_word_eq _, rfl, rfl, Icfg.word_eq _,
    cap0Word_eq _, cap1Word_eq _⟩

theorem hostRegRead_slot {s : State} {o : Nat} {r : Reg} {w : Word} (hlt : o < 2 ^ 12) (ho : o % 4 = 0)
    (hr : regAt o = some r) (hw : readReg s r = w) :
    hostRegRead (BitVec.ofNat 12 o) 4 s = .next { s with busData := w } := by
  have hval : (BitVec.ofNat 12 o).toNat = o := Nat.mod_eq_of_lt hlt
  exact hostRegRead_eq (by rw [hval, ho]) (by rw [hval, readOffset_of_regAt hr, hw])

/-- Settles O59: each register of the map is read in the places of its fields. -/
theorem registerReadsCurrentValue : Obligations.RegisterReadsCurrentValue := by
  refine fun s => ⟨fun r hr => hostRegRead_eq (fixedReads_aligned s r hr) (readOffset_fixedReads s r hr),
    fun n => ?_⟩
  obtain ⟨hbase, hstride, hdim, hflags⟩ := regAt_slot n
  simp only [List.forall_mem_cons, List.not_mem_nil, false_imp_iff, implies_true, and_true]
  exact ⟨hostRegRead_slot (by omega) (by omega) hbase rfl,
    hostRegRead_slot (by omega) (by omega) hstride rfl,
    hostRegRead_slot (by omega) (by omega) hdim rfl,
    hostRegRead_slot (by omega) (by omega) hflags (flagBit_zero_eq _)⟩

/-! ### Writes: the registers field by field -/

theorem writeCmdReg_fields (l : CmdRegs) (v : Word) (r : Reg) :
    (writeCmdReg l v r).getD l =
      { cmd0 := if r = .cmd0 then v else l.cmd0
        cmd1 := if r = .cmd1 then v else l.cmd1
        fmt := if r = .fmt then Fmt.ofWord v else l.fmt
        ttype := if r = .ttype then v.setWidth 3 else l.ttype
        mtql := if r = .mtql then v else l.mtql
        mthl := if r = .mthl then v else l.mthl
        mtqc := if r = .mtqc then v else l.mtqc
        mthc := if r = .mthc then v else l.mthc
        nt := if r = .nt then v else l.nt
        minThresh := if r = .minThresh then v else l.minThresh
        maxThresh := if r = .maxThresh then v else l.maxThresh
        cstr := if r = .cstr then v else l.cstr
        length := if r = .length then v else l.length
        mtype := if r = .mtype then v.setWidth 2 else l.mtype
        cthresh := if r = .cthresh then v else l.cthresh
        mi := if r = .mi then v else l.mi
        icfg := if r = .icfg then Icfg.ofWord v else l.icfg
        descs := ((writeCmdReg l v r).getD l).descs } := by
  cases r <;> rfl

theorem writeCmdReg_desc (l : CmdRegs) (v : Word) (r : Reg) (m : Fin 64) :
    ((writeCmdReg l v r).getD l).descs[m] =
      { base := if r = .dBase m then v else l.descs[m].base
        stride := if r = .dStride m then v else l.descs[m].stride
        width := if r = .dDim m then v.extractLsb' 0 16 else l.descs[m].width
        height := if r = .dDim m then v.extractLsb' 16 16 else l.descs[m].height
        zero := if r = .dFlags m then v.getLsbD 0 else l.descs[m].zero } := by
  cases r with
  | dBase n | dStride n | dDim n | dFlags n =>
    simp only [writeCmdReg, Option.getD_some, updateDesc_descs]
    by_cases h : n = m
    · subst h; simp
    · simp [h]
  | _ => rfl

/-- A write of a command, configuration or descriptor register keeps what every other register reads. -/
theorem readReg_writeCmdReg_other {s : State} {v : Word} {r r' : Reg} {c : Ctrl} (hne : r' ≠ r)
    (hc : r' = .ctrl → c = s.ctrl) :
    readReg { s with regs := (writeCmdReg s.regs v r).getD s.regs, ctrl := c } r' = readReg s r' := by
  cases r' with
  | id | status | errinfo | score | result | cap0 | cap1 => rfl
  | ctrl => simp only [readReg, hc rfl]
  | dBase n | dStride n | dDim n | dFlags n => simp only [readReg, writeCmdReg_desc, if_neg hne.symm]
  | _ => rw [writeCmdReg_fields]; simp only [readReg, if_neg hne.symm]

/-- The bits a host write sets in a register (R59); START reads 0, and STATUS has its own rule. -/
def Reg.mask : Reg → Word
  | .ctrl => 0x6
  | .fmt => 0x331F
  | .ttype => 0x7
  | .mtype => 0x3
  | .icfg => 0xFF03
  | .dFlags _ => 0x1
  | .id | .status | .errinfo | .score | .result | .cap0 | .cap1 => 0
  | _ => 0xFFFFFFFF

theorem writableMask_of_slot {o : Nat} (h : 0x100 ≤ o ∧ o ≤ 0x4FF) :
    writableMask o = if o % 16 = 12 then 0x1 else 0xFFFFFFFF := by
  rw [writableMask, if_neg (by omega), if_neg (by omega), if_neg (by omega), if_neg (by omega),
    if_neg (by omega), if_neg (by omega), if_neg (by omega), if_pos h]

/-- The table of masks by offset is the table by register. -/
theorem writableMask_offset (r : Reg) : writableMask r.offset = r.mask := by
  cases r with
  | dBase n | dStride n | dDim n =>
    simp only [Reg.offset]
    rw [writableMask_of_slot (by omega), if_neg (by omega)]
    rfl
  | dFlags n =>
    simp only [Reg.offset]
    rw [writableMask_of_slot (by omega), if_pos (by omega)]
    rfl
  | _ => rfl

theorem writableMask_of_unlisted {o : Nat} (h : ¬ listed o) : writableMask o = 0 := by
  unfold writableMask
  split_ifs <;> first | rfl | omega

/-! ### Writes: the bits read back -/

/-- A register whose reserved bits read 0 reads back the writable bits of what was written. -/
theorem readback_of_reserved {old v new mask : Word} (hnew : new = v &&& mask)
    (hold : old &&& ~~~mask = 0) : new = (old &&& ~~~mask) ||| (v &&& mask) := by
  rw [hnew, hold]
  exact BitVec.zero_or.symm

theorem readback_all (old v : Word) : v = (old &&& ~~~0xFFFFFFFF) ||| (v &&& 0xFFFFFFFF) :=
  readback_of_reserved BitVec.and_allOnes.symm BitVec.and_zero

theorem readback_none (old v : Word) : old = (old &&& ~~~0) ||| (v &&& 0) := by
  have hold : old &&& ~~~0 = old := BitVec.and_allOnes
  have hv : v &&& 0 = 0 := BitVec.and_zero
  rw [hold, hv]
  exact BitVec.or_zero.symm

theorem Ctrl.word_written (v : Word) :
    ({ ieDone := v.getLsbD 1, ieErr := v.getLsbD 2 } : Ctrl).word = v &&& 0x6 := by
  apply BitVec.eq_of_getLsbD_eq
  intro i hi
  interval_cases i <;> simp [Ctrl.word]

theorem Ctrl.word_reserved (c : Ctrl) : c.word &&& ~~~0x6 = 0 := by
  obtain ⟨ieDone, ieErr⟩ := c
  cases ieDone <;> cases ieErr <;> rfl

theorem Fmt.word_ofWord (v : Word) : (Fmt.ofWord v).word = v &&& 0x331F := by
  apply BitVec.eq_of_getLsbD_eq
  intro i hi
  interval_cases i <;> simp [Fmt.ofWord, Fmt.word]

theorem Fmt.word_reserved (f : Fmt) : f.word &&& ~~~0x331F = 0 := by
  apply BitVec.eq_of_getLsbD_eq
  intro i hi
  interval_cases i <;> simp [Fmt.word]

theorem Icfg.word_ofWord (v : Word) : (Icfg.ofWord v).word = v &&& 0xFF03 := by
  apply BitVec.eq_of_getLsbD_eq
  intro i hi
  interval_cases i <;> simp [Icfg.ofWord, Icfg.word]

theorem Icfg.word_reserved (c : Icfg) : c.word &&& ~~~0xFF03 = 0 := by
  apply BitVec.eq_of_getLsbD_eq
  intro i hi
  interval_cases i <;> simp [Icfg.word]

/-- A field of the n lowest bits holds those bits of what was written. -/
theorem lowBits_written (v : Word) (n : Nat) :
    (v.setWidth n).setWidth 32 = v &&& BitVec.ofNat 32 (2 ^ n - 1) := by
  apply BitVec.eq_of_getLsbD_eq
  intro i hi
  simp only [BitVec.getLsbD_setWidth, BitVec.getLsbD_and, BitVec.getLsbD_ofNat,
    Nat.testBit_two_pow_sub_one]
  simp [hi, Bool.and_comm]

theorem lowBits_reserved {n : Nat} (b : BitVec n) :
    b.setWidth 32 &&& ~~~BitVec.ofNat 32 (2 ^ n - 1) = 0 := by
  apply BitVec.eq_of_getLsbD_eq
  intro i hi
  simp only [BitVec.getLsbD_setWidth, BitVec.getLsbD_and, BitVec.getLsbD_not, BitVec.getLsbD_ofNat,
    Nat.testBit_two_pow_sub_one]
  by_cases h : i < n
  · simp [h, hi]
  · simp [b.getLsbD_of_ge i (Nat.not_lt.1 h)]

theorem flag_written (v : Word) : flagBit (v.getLsbD 0) 0 = v &&& 0x1 := by
  apply BitVec.eq_of_getLsbD_eq
  intro i hi
  interval_cases i <;> simp

theorem flag_reserved (b : Bool) : flagBit b 0 &&& ~~~0x1 = 0 := by cases b <;> rfl

/-- D_DIM's two halves are the word written to it (R52). -/
theorem halves_append (v : Word) : v.extractLsb' 16 16 ++ v.extractLsb' 0 16 = v :=
  (BitVec.extractLsb'_append_extractLsb'_eq_extractLsb' (start₁ := 0) (len₁ := 16) rfl).trans
    BitVec.extractLsb'_eq_self

/-! ### Writes to an idle block -/

theorem writeOffset_of_regAt {s : State} {v : Word} {o : Nat} {r : Reg} (h : regAt o = some r) :
    writeOffset s v o = writeReg s v r := by
  rw [writeOffset, h]

theorem writeOffset_of_unlisted {s : State} {v : Word} {o : Nat} (h : regAt o = none) :
    writeOffset s v o = s := by
  rw [writeOffset, h]

/-- A START of an idle block is accepted (R34). -/
theorem writeCtrl_start {s : State} {v : Word} (hb : s.status.busy = false)
    (hv : v.getLsbD 0 = true) :
    writeCtrl s v = startCommand { s with ctrl := ⟨v.getLsbD 1, v.getLsbD 2⟩ } := by
  simp [writeCtrl, hb, hv]

/-- A write to CTRL sets the enables, START or not (R34). -/
theorem writeCtrl_ctrl (s : State) (v : Word) :
    (writeCtrl s v).ctrl = ⟨v.getLsbD 1, v.getLsbD 2⟩ := by
  rcases writeCtrl_cases s v with ⟨-, h⟩ | ⟨-, -, h⟩ | ⟨-, -, h⟩ <;> rw [h] <;> rfl

/-- A register other than STATUS, written while idle, reads back its writable bits. -/
theorem readReg_writeReg_same {s : State} {v : Word} {r : Reg} (hb : s.status.busy = false)
    (hr : r ≠ .status) :
    readReg (writeReg s v r) r = (readReg s r &&& ~~~r.mask) ||| (v &&& r.mask) := by
  by_cases hc : r = .ctrl
  · subst hc
    simp only [writeReg, readReg, writeCtrl_ctrl]
    exact readback_of_reserved (Ctrl.word_written v) (Ctrl.word_reserved _)
  rw [writeReg_idle s v r hb hr fun h => hc h.1]
  cases r with
  | ctrl => exact absurd rfl hc
  | status => exact absurd rfl hr
  | id | errinfo | score | result | cap0 | cap1 => exact readback_none _ _
  | fmt => exact readback_of_reserved (Fmt.word_ofWord v) (Fmt.word_reserved _)
  | icfg => exact readback_of_reserved (Icfg.word_ofWord v) (Icfg.word_reserved _)
  | ttype => exact readback_of_reserved (lowBits_written v 3) (lowBits_reserved _)
  | mtype => exact readback_of_reserved (lowBits_written v 2) (lowBits_reserved _)
  | dBase n | dStride n =>
    simp only [readReg, writeCmdReg_desc, if_true]
    exact readback_all _ _
  | dDim n =>
    simp only [readReg, writeCmdReg_desc, if_true, halves_append]
    exact readback_all _ _
  | dFlags n =>
    simp only [readReg, writeCmdReg_desc, if_true]
    exact readback_of_reserved (flag_written v) (flag_reserved _)
  | _ => exact readback_all _ _

/-- A register other than the one written while idle reads as before, STATUS and ERRINFO unless the write is an
accepted START. -/
theorem readReg_writeReg_other {s : State} {v : Word} {r r' : Reg} (hb : s.status.busy = false)
    (hr : r ≠ .status) (hne : r' ≠ r)
    (hst : r' = .status ∨ r' = .errinfo → ¬ (r = .ctrl ∧ v.getLsbD 0 = true)) :
    readReg (writeReg s v r) r' = readReg s r' := by
  by_cases hstart : r = .ctrl ∧ v.getLsbD 0 = true
  · obtain ⟨rfl, hv⟩ := hstart
    simp only [writeReg, writeCtrl_start hb hv]
    cases r' with
    | status => exact absurd ⟨rfl, hv⟩ (hst (.inl rfl))
    | errinfo => exact absurd ⟨rfl, hv⟩ (hst (.inr rfl))
    | ctrl => exact absurd rfl hne
    | _ => rfl
  · rw [writeReg_idle s v r hb hr hstart]
    exact readReg_writeCmdReg_other hne fun h => if_neg fun hr => hne (h.trans hr.symm)

/-- A register read at another offset than the one written. -/
theorem readOffset_writeOffset_other {s : State} {v : Word} {o o' : Nat} (hb : s.status.busy = false)
    (ho : o ≠ 0x008) (hne : o' ≠ o)
    (hst : o' = 0x008 ∨ o' = 0x00C → ¬ (o = 0x004 ∧ v.getLsbD 0 = true)) :
    readOffset (writeOffset s v o) o' = readOffset s o' := by
  cases hr' : regAt o' with
  | none => rw [readOffset_of_unlisted hr', readOffset_of_unlisted hr']
  | some r' =>
    cases hr : regAt o with
    | none => rw [writeOffset_of_unlisted hr]
    | some r =>
      obtain rfl := offset_of_regAt hr
      obtain rfl := offset_of_regAt hr'
      rw [readOffset_of_regAt hr', readOffset_of_regAt hr', writeOffset_of_regAt hr]
      refine readReg_writeReg_other hb (fun h => ho (by rw [h]; rfl)) (fun h => hne (by rw [h])) ?_
      rintro hst' ⟨rfl, hv⟩
      exact hst (hst'.imp (fun h => by rw [h]; rfl) (fun h => by rw [h]; rfl)) ⟨rfl, hv⟩

/-- The written register reads back its writable bits, an offset not listed 0. -/
theorem readOffset_writeOffset_same {s : State} {v : Word} {o : Nat} (hb : s.status.busy = false)
    (ho : o ≠ 0x008) (hal : o % 4 = 0) (hlt : o < 4096) :
    readOffset (writeOffset s v o) o =
      (readOffset s o &&& ~~~writableMask o) ||| (v &&& writableMask o) := by
  cases hr : regAt o with
  | none =>
    have hu : ¬ listed o := by
      rcases regAt_cases o hal hlt with ⟨-, h⟩ | ⟨-, -, n, h⟩ | ⟨h, -⟩
      · exact absurd hr h
      · simp [hr] at h
      · exact h
    rw [readOffset_of_unlisted hr, readOffset_of_unlisted hr, writableMask_of_unlisted hu]
    exact readback_none 0 v
  | some r =>
    obtain rfl := offset_of_regAt hr
    rw [readOffset_of_regAt hr, readOffset_of_regAt hr, writeOffset_of_regAt hr, writableMask_offset]
    exact readReg_writeReg_same hb fun h => ho (by rw [h]; rfl)

/-- A write while idle that is neither to STATUS nor an accepted START changes registers and enables only. -/
theorem writeOffset_idle_frame {s : State} {v : Word} {o : Nat} (hb : s.status.busy = false)
    (ho : o ≠ 0x008) (hst : ¬ (o = 0x004 ∧ v.getLsbD 0 = true)) :
    writeOffset s v o =
      { s with regs := (writeOffset s v o).regs, ctrl := (writeOffset s v o).ctrl } := by
  cases hr : regAt o with
  | none => rw [writeOffset_of_unlisted hr]
  | some r =>
    obtain rfl := offset_of_regAt hr
    rw [writeOffset_of_regAt hr, writeReg_idle s v r hb (fun h => ho (by rw [h]; rfl))
      (fun ⟨h, hv⟩ => hst ⟨by rw [h]; rfl, hv⟩)]

/-- Settles O39: the write is read back through the register's mask and touches no other register. -/
theorem registerWriteThenRead : Obligations.RegisterWriteThenRead := by
  intro s offset v hb hal hne
  have heq : ∀ {o : BitVec 12} {n : Nat}, n < 2 ^ 12 → o.toNat = n → o = BitVec.ofNat 12 n :=
    fun hn h => BitVec.eq_of_toNat_eq (by rw [h, BitVec.toNat_ofNat, Nat.mod_eq_of_lt hn])
  have ho : offset.toNat ≠ 0x008 := fun h => hne (heq (by decide) h)
  refine ⟨_, hostRegWrite_of_legal ⟨rfl, hal⟩, readOffset_writeOffset_same hb ho hal offset.isLt,
    fun other _ hother hst => ?_, fun hst => ?_⟩
  · refine readOffset_writeOffset_other hb ho (fun h => hother (BitVec.eq_of_toNat_eq h)) ?_
    rintro hor ⟨hc, hv⟩
    exact hst (hor.imp (heq (by decide)) (heq (by decide))) ⟨heq (by decide) hc, hv⟩
  · exact writeOffset_idle_frame hb ho fun ⟨hc, hv⟩ => hst ⟨heq (by decide) hc, hv⟩

/-- Settles O41: a START of an idle block is accepted. -/
theorem startLatches : Obligations.StartLatches := by
  intro s v hb hv
  rw [hostRegWrite_of_legal ⟨rfl, rfl⟩, writeOffset_of_regAt (r := .ctrl) rfl, writeReg,
    writeCtrl_start hb hv]
  rfl

/-! ### Writes to a busy block -/

/-- The registers a busy block drops writes to (R37). -/
def Reg.isCommand : Reg → Bool
  | .id | .ctrl | .status | .errinfo | .score | .result | .cap0 | .cap1 => false
  | _ => true

theorem writeReg_busy {s : State} {v : Word} {r : Reg} (hb : s.status.busy = true)
    (hr : r.isCommand = true) : writeReg s v r = dropWrite s := by
  cases r with
  | id | ctrl | status | errinfo | score | result | cap0 | cap1 => cases hr
  | _ => exact if_pos hb

/-- The offsets of the registers a busy block drops writes to (R37, R59). -/
theorem regAt_isCommand {o : Nat} (hal : o % 4 = 0) (hlt : o < 4096)
    (h : o = 0x010 ∨ o = 0x014 ∨ (0x020 ≤ o ∧ o ≤ 0x058) ∨ (0x100 ≤ o ∧ o ≤ 0x4FF)) :
    ∃ r, regAt o = some r ∧ r.isCommand = true := by
  have hfixed : ∀ k < 23, k = 4 ∨ k = 5 ∨ 8 ≤ k →
      (regAt (4 * k)).any Reg.isCommand = true := by decide
  by_cases hslot : 0x100 ≤ o
  · rcases regAt_cases o hal hlt with ⟨h', -⟩ | ⟨-, -, n, h' | h' | h' | h'⟩ | ⟨h', -⟩
    · omega
    · exact ⟨_, h'.2, rfl⟩
    · exact ⟨_, h'.2, rfl⟩
    · exact ⟨_, h'.2, rfl⟩
    · exact ⟨_, h'.2, rfl⟩
    · omega
  · have hk := hfixed (o / 4) (by omega) (by omega)
    rw [Nat.mul_div_cancel' (Nat.dvd_of_mod_eq_zero hal)] at hk
    exact (Option.any_eq_true _ _).1 hk

theorem hostRegWrite_status (s : State) (v : Word) :
    hostRegWrite 0x008 4 v s = .next { s with
      status := { s.status with
        done := s.status.done && !v.getLsbD 1
        err := s.status.err && !v.getLsbD 2
        wbusy := s.status.wbusy && !v.getLsbD 3 } } := rfl

/-- Settles O40: while BUSY every write to a command register is dropped, one to CTRL but for its enables. -/
theorem busyWritesDropped : Obligations.BusyWritesDropped := by
  intro s offset v hal
  refine ⟨fun hb => ⟨fun h => ?_, ?_⟩, hostRegWrite_status s v, hostRegRead_of_legal ⟨rfl, hal⟩⟩
  · obtain ⟨r, hr, hcmd⟩ := regAt_isCommand hal offset.isLt h
    rw [hostRegWrite_of_legal ⟨rfl, hal⟩, writeOffset_of_regAt hr, writeReg_busy hb hcmd]
    rfl
  · rw [hostRegWrite_of_legal ⟨rfl, rfl⟩, writeOffset_of_regAt (r := .ctrl) rfl, writeReg]
    rcases writeCtrl_cases s v with ⟨hv, h⟩ | ⟨hv, -, h⟩ | ⟨-, hb', -⟩
    · rw [h, hv, Bool.or_false]
    · rw [h, hv, Bool.or_true]
      rfl
    · rw [hb] at hb'
      cases hb'

/-! ### STATUS, unlisted offsets and read-only registers -/

theorem errByte_mem_codeNumbers (c : Option ErrCode) : (c, errByte c) ∈ codeNumbers := by
  rcases c with _ | c
  · decide
  · cases c <;> decide

/-- Settles O42: STATUS is read and cleared bit by bit. -/
theorem statusReadsAndClears : Obligations.StatusReadsAndClears := by
  intro s v
  refine ⟨?_, hostRegWrite_status s v⟩
  rw [readOffset_of_regAt (r := .status) rfl, readReg]
  refine ⟨?_, ?_, ?_, ?_, ?_, ⟨_, errByte_mem_codeNumbers s.status.errCode, rfl, ?_⟩, ?_⟩
  · simp [Status.word]
  · simp [Status.word]
  · simp [Status.word]
  · simp [Status.word]
  all_goals
    apply BitVec.eq_of_getLsbD_eq
    intro i hi
    interval_cases i <;> simp [Status.word]

/-- Settles O43: no write reaches an offset that is not listed or a read-only register. -/
theorem unlistedAndReadOnlyOffsets : Obligations.UnlistedAndReadOnlyOffsets := by
  intro s offset v hal
  refine ⟨fun hu => ?_, fun hro => ?_, rfl⟩
  · have hnone : regAt offset.toNat = none := by
      rcases regAt_cases offset.toNat hal offset.isLt with ⟨h, -⟩ | ⟨h, h', -⟩ | ⟨-, h⟩
      · exact absurd (.inl h) hu
      · exact absurd (.inr ⟨h, by omega⟩) hu
      · exact h
    rw [hostRegRead_of_legal ⟨rfl, hal⟩, hostRegWrite_of_legal ⟨rfl, hal⟩,
      readOffset_of_unlisted hnone, writeOffset_of_unlisted hnone]
    exact ⟨rfl, rfl⟩
  · have hkept : ∀ o ∈ [0x000, 0x00C, 0x018, 0x01C, 0x05C, 0x060], writeOffset s v o = s := by
      simp only [List.forall_mem_cons, List.not_mem_nil, false_imp_iff, implies_true, and_true]
      exact ⟨rfl, rfl, rfl, rfl, rfl, rfl⟩
    rw [hostRegWrite_of_legal ⟨rfl, hal⟩, hkept _ hro]

end Sys2Proof.Machine
end

section
/-! How a command ends: DONE or ERR, the failures of its configuration and size checks in their order, and what it
leaves unchanged (60_exceptions.md R240 to R248, 10_state.md R58, 20_memory.md R92, R94). -/

open Sys2Proof.Machine.Claim

namespace Sys2Proof.Machine

/-! ### DONE or ERR -/

theorem done_of_legal {i : Instr} {s : State} (hl : CommandLegal i s) :
    ∃ t, exec i s = .next t ∧ t.status = s.status.succeeded :=
  ⟨_, exec_of_legal hl, by rw [succeedCommand_status, status_effectOf]⟩

theorem failed_of_not_legal {i : Instr} {s : State} (hl : ¬ CommandLegal i s) :
    ∃ (f : Failure) (t : State), exec i s = .next t ∧ t.status = s.status.failed f.code f.info := by
  obtain ⟨f, hf⟩ := Option.ne_none_iff_exists'.1 (mt checkOf_eq_none.1 hl)
  exact ⟨f, _, exec_of_check_some hf, failCommand_status f s⟩

/-- Settles O7: a legal command ends with DONE, any other with ERR and the code of a failing check. -/
theorem commandEndsDoneOrErr : Obligations.CommandEndsDoneOrErr := by
  intro i s ⟨_, hdone, herr, hcode, hinfo⟩
  by_cases hl : CommandLegal i s
  · obtain ⟨t, ht, hst⟩ := done_of_legal hl
    exact ⟨t, ht, by rw [hst, Status.succeeded_busy], .inl (by simp [hst, herr, hcode, hinfo])⟩
  · obtain ⟨f, t, ht, hst⟩ := failed_of_not_legal hl
    exact ⟨t, ht, by rw [hst, Status.failed_busy], .inr (by simp [hst, hdone])⟩

/-- Settles O8: a failure keeps DONE 0, so DONE says that no check failed. -/
theorem commandSucceedsIffLegal : Obligations.CommandSucceedsIffLegal := by
  intro i s ⟨_, hdone, _⟩
  constructor
  · rintro ⟨t, ht, htd⟩
    by_contra hl
    obtain ⟨f, u, hu, hst⟩ := failed_of_not_legal hl
    obtain rfl : t = u := by rw [ht] at hu; injection hu
    rw [hst, Status.failed_done, hdone] at htd
    cases htd
  · intro hl
    obtain ⟨t, ht, hst⟩ := done_of_legal hl
    exact ⟨t, ht, by rw [hst, Status.succeeded_done]⟩

/-! ### The first failing check -/

theorem firstFailure_failIf {bad : Prop} [Decidable bad] {code : ErrCode} {n : Nat}
    (l : List (Option Failure)) (h : bad) :
    firstFailure (failIf bad code n :: l) = some ⟨code, BitVec.ofNat 32 n⟩ := by
  rw [failIf_of h, firstFailure_some_cons]

theorem firstFailure_failIf_pass {bad : Prop} [Decidable bad] {code : ErrCode} {n : Nat}
    (l : List (Option Failure)) (h : ¬ bad) :
    firstFailure (failIf bad code n :: l) = firstFailure l := by
  rw [failIf_of_not h, firstFailure_none_cons]

/-- A command whose checks end in a code and a number fails with them (R244). -/
theorem exec_fails {i : Instr} {s : State} {code : ErrCode} {n : Nat}
    (h : checkOf i s = some ⟨code, BitVec.ofNat 32 n⟩) : exec i s = .next (failedWith s code n) :=
  exec_of_check_some h

/-- The first failing configuration check decides, whatever else holds (R246). -/
theorem exec_fails_config {i : Instr} {s : State} {code : ErrCode} {n : Nat}
    (h : firstFailure (configFailures s.params s.latch i) = some ⟨code, BitVec.ofNat 32 n⟩) :
    exec i s = .next (failedWith s code n) :=
  exec_fails (by rw [checkOf_eq, firstFailure_append_left h])

/-- Every command checks FMT first (R246 step 3). -/
theorem configFailures_eq_cons (p : Params) (l : CmdRegs) (i : Instr) :
    ∃ rest, configFailures p l i = fmtFailure l :: rest := by
  cases i <;> exact ⟨_, rfl⟩

/-- Settles O9: FMT is the first check of every decoded command. -/
theorem illegalFmtFails : Obligations.IllegalFmtFails := by
  intro i s hfmt
  obtain ⟨rest, hrest⟩ := configFailures_eq_cons s.params s.latch i
  exact exec_fails_config (by rw [hrest]; exact firstFailure_failIf rest hfmt)

/-- Constraint 2 on TBUILD's counts is that they fit CFIRST (R190). -/
theorem countCondition_iff_countsFit {cfirst : Bool} {ccnt ocnt : Nat} :
    (if cfirst then ccnt = ocnt ∨ ccnt = ocnt + 1 else ocnt = ccnt ∨ ocnt = ccnt + 1) ↔
      countsFit cfirst ccnt ocnt := by
  cases cfirst <;> simp [countsFit]

/-- TBUILD's counts after a legal FMT, LENGTH and MTYPE (R190, R246). -/
theorem tbuild_fails_of_counts {dst cbase ccnt obase ocnt : Nat} {order field rowpar cfirst wother : Bool}
    {s : State} {code : ErrCode} {n : Nat} (hf : s.latch.fmt.legal)
    (hlen : 6 ≤ s.latch.length.toNat ∧ s.latch.length.toNat ≤ s.params.lmax) (hm : s.latch.mtype ≠ 3)
    (h : firstFailure (countFailures s.latch.length.toNat cbase ccnt obase ocnt cfirst) =
      some ⟨code, BitVec.ofNat 32 n⟩) :
    exec (.tbuild dst cbase ccnt obase ocnt order field rowpar cfirst wother) s =
      .next (failedWith s code n) := by
  refine exec_fails_config ?_
  have hm : ¬ s.latch.mtype.toNat = 3 := fun e => hm (BitVec.eq_of_toNat_eq e)
  rw [configFailures, firstFailure_append, h]
  simp only [List.forall_mem_cons, List.not_mem_nil, false_imp_iff, implies_true, and_true]
  exact ⟨fmtFailure_eq_none.2 hf, failIf_of_not (not_not.2 hlen), failIf_of_not hm⟩

/-- Settles O11: LENGTH, MTYPE and the five count constraints are checked in this order. -/
theorem tbuildConfigFailures : Obligations.TbuildConfigFailures := by
  intro dst cbase ccnt obase ocnt order field rowpar cfirst wother s hf
  have hfmt : ¬ ¬ s.latch.fmt.legal := not_not.2 hf
  refine ⟨fun hlen => exec_fails_config ?_, fun hlen hm => exec_fails_config ?_, fun hlen hm =>
    ⟨fun h1 => ?_, fun h1 h2 => ?_, fun h1 h2 h3 => ?_, fun h1 h2 h3 h4 => ?_,
      fun h1 h2 h3 h4 h5 => ?_⟩⟩
  · exact (firstFailure_failIf_pass _ hfmt).trans (firstFailure_failIf _ hlen)
  · exact (firstFailure_failIf_pass _ hfmt).trans <|
      (firstFailure_failIf_pass _ (not_not.2 hlen)).trans (firstFailure_failIf _ (by rw [hm]; rfl))
  all_goals refine tbuild_fails_of_counts hf hlen hm ?_
  all_goals simp only [countFailures, countCondition_iff_countsFit]
  · rw [firstFailure_failIf _ h1]
  · rw [firstFailure_failIf_pass _ (Nat.not_lt.2 h1), firstFailure_failIf _ h2]
  · rw [firstFailure_failIf_pass _ (Nat.not_lt.2 h1), firstFailure_failIf_pass _ (not_not.2 h2),
      firstFailure_failIf _ h3]
  · rw [firstFailure_failIf_pass _ (Nat.not_lt.2 h1), firstFailure_failIf_pass _ (not_not.2 h2),
      firstFailure_failIf_pass _ (Nat.not_lt.2 h3), firstFailure_failIf _ h4]
  · rw [firstFailure_failIf_pass _ (Nat.not_lt.2 h1), firstFailure_failIf_pass _ (not_not.2 h2),
      firstFailure_failIf_pass _ (Nat.not_lt.2 h3), firstFailure_failIf_pass _ (Nat.not_lt.2 h4),
      firstFailure_failIf _ h5]

/-- Settles O12: the block size is checked after FMT, the size of the luma plane last. -/
theorem iscombedBlockAndSizeFailures : Obligations.IscombedBlockAndSizeFailures := by
  intro ys us vs s hf
  refine ⟨fun hb => exec_fails_config ?_, fun hb hops hshapes hsize => exec_fails ?_⟩
  · exact (firstFailure_failIf_pass _ (not_not.2 hf)).trans (firstFailure_failIf _ hb)
  · have hconfig : configLegal s.params s.latch (.iscombed ys us vs) := ⟨hf, hb⟩
    rw [checkOf_eq, firstFailure_append (configFailures_eq_none.2 hconfig),
      firstFailure_append (operandFailures_eq_none.2 hops),
      firstFailure_append (shapeFailures_eq_none.2 hshapes)]
    exact firstFailure_failIf _ hsize

/-! ### Frames -/

/-- Settles O17: a failure writes STATUS and ERRINFO, a success commits the destination as well. -/
theorem planeCommandFrame : Obligations.PlaneCommandFrame := by
  intro i s t dst hd h
  rcases exec_cases h with ⟨f, -, rfl⟩ | ⟨-, rfl⟩
  · exact ⟨rfl, rfl, rfl, rfl, rfl, rfl, rfl, rfl, rfl, rfl, fun _ _ => rfl⟩
  · have hmem : ∀ a, outsideSamples s dst a →
        Memory.read (commitPlane dst (destSample s i) s).mem a = Memory.read s.mem a :=
      fun a ha => read_commitPlane_other ha
    rw [effectOf_eq_commitPlane s hd]
    simpa using hmem

/-- Settles O18: a failure writes STATUS and ERRINFO, a success the scratch, SCORE and RESULT as well. -/
theorem iscombedFrame : Obligations.IscombedFrame := by
  intro ys us vs s t h
  rcases exec_cases h with ⟨f, -, rfl⟩ | ⟨-, rfl⟩
  · exact ⟨rfl, rfl, rfl, rfl, rfl, rfl, rfl, rfl, rfl, fun _ => ⟨rfl, rfl⟩⟩
  · simp [effectOf, effectFrom]

end Sys2Proof.Machine
end

section
/-! What one step can change: the act taken from the host list, case by case (10_state.md R30, R49, R55 to R57, R62;
60_exceptions.md R242 to R245; 70_reset_and_hazards.md R270 to R279). -/

open Sys2Proof.Machine.Claim

namespace Sys2Proof.Machine

/-! ### Register writes: what every write leaves alone -/

/-- A register write changes registers, enables, STATUS, the latch and the model's note of R96 only. -/
theorem writeOffset_frame (s : State) (v : Word) (o : Nat) :
    writeOffset s v o = { s with
      regs := (writeOffset s v o).regs
      latch := (writeOffset s v o).latch
      ctrl := (writeOffset s v o).ctrl
      status := (writeOffset s v o).status
      hostTouched := (writeOffset s v o).hostTouched } := by
  rcases writeOffset_cases s v o with h | ⟨h, -⟩ | ⟨-, l, h⟩ | h | ⟨-, h⟩
  · rw [h]
  · rw [h]; rfl
  · rw [h]
  · rw [h]
  · rcases writeCtrl_cases s v with ⟨-, hc⟩ | ⟨-, -, hc⟩ | ⟨-, -, hc⟩ <;> rw [h, hc] <;> rfl

@[simp] theorem writeOffset_result (s : State) (v : Word) (o : Nat) :
    (writeOffset s v o).result = s.result := by rw [writeOffset_frame]

@[simp] theorem writeOffset_mem (s : State) (v : Word) (o : Nat) :
    (writeOffset s v o).mem = s.mem := by rw [writeOffset_frame]

@[simp] theorem writeOffset_rom (s : State) (v : Word) (o : Nat) :
    (writeOffset s v o).rom = s.rom := by rw [writeOffset_frame]

@[simp] theorem writeOffset_params (s : State) (v : Word) (o : Nat) :
    (writeOffset s v o).params = s.params := by rw [writeOffset_frame]

/-- BUSY changes at a register write only by a START of an idle block (R34). -/
theorem writeOffset_busy {s : State} {v : Word} {o : Nat}
    (h : (writeOffset s v o).status.busy ≠ s.status.busy) :
    s.status.busy = false ∧ o = 0x004 ∧ v.getLsbD 0 = true := by
  rcases writeOffset_cases s v o with hw | ⟨hw, -⟩ | ⟨-, l, hw⟩ | hw | ⟨hr, hw⟩
  · exact absurd (by rw [hw]) h
  · exact absurd (by rw [hw, dropWrite_status, Status.dropped_busy]) h
  · exact absurd (by rw [hw]) h
  · exact absurd (by rw [hw, Status.clear_busy]) h
  · rcases writeCtrl_cases s v with ⟨-, hc⟩ | ⟨-, -, hc⟩ | ⟨hv, hb, -⟩
    · exact absurd (by rw [hw, hc]) h
    · exact absurd (by rw [hw, hc, dropWrite_status, Status.dropped_busy]) h
    · exact ⟨hb, (offset_of_regAt hr).symm, hv⟩

/-! ### Effects: what the success of a command leaves alone -/

/-- Only ISCOMBED has an effect on SCORE and RESULT (R49). -/
theorem effectOf_result_of_dest {i : Instr} {dst : Nat} {s : State} (hd : destSlot i = some dst) :
    (effectOf i s).result = s.result := by
  rw [effectOf_eq_commitPlane s hd, commitPlane_result]

/-- A destination extent below MEMSIZE keeps a commit below it (R80, R92). -/
theorem commitPlane_mem_lt {s : State} {dst : Nat} {f : Nat → Nat → Option Nat} {n : Nat}
    (hm : ∀ c ∈ s.mem, c.1 < n) (hl : (s.latch.desc dst).last s.latch.fmt.bps < n) :
    ∀ c ∈ (commitPlane dst f s).mem, c.1 < n := by
  have hcells : ∀ {cs : List Host.Cell} {g : Nat → Nat → Option Nat},
      cs.map Prod.fst = (planeCells s.latch.fmt.bps (s.latch.desc dst) g).map Prod.fst →
      ∀ c ∈ s.mem.writeAll cs, c.1 < n := by
    intro cs g he c hc
    rcases Memory.mem_writeAll hc with h | h
    · exact Nat.lt_of_le_of_lt (planeCells_in_extent (he ▸ h)).2 hl
    · exact hm c h
  unfold commitPlane
  split
  · exact hcells (map_fst_freeCells _ _)
  · exact hcells rfl

/-- A legal command keeps the memory below MEMSIZE (R80, R249). -/
theorem CommandLegal.effectOf_mem_lt {i : Instr} {s : State} (h : CommandLegal i s)
    (hp : s.params.legal) (hm : ∀ c ∈ s.mem, c.1 < s.params.memSize) :
    ∀ c ∈ (effectOf i s).mem, c.1 < s.params.memSize := by
  cases hd : destSlot i with
  | none =>
    cases i <;> simp only [destSlot, reduceCtorEq] at hd
    simpa only [effectOf, effectFrom, scoreFrame_mem] using hm
  | some dst =>
    obtain ⟨-, -, -, -, hlast⟩ := h.dest hd
    have h1 : 1 ≤ s.params.memSize := hp.1
    rw [effectOf_eq_commitPlane s hd]
    exact commitPlane_mem_lt hm (by omega)

/-! ### The invariant, one lemma per operation -/

/-- An operand extent is that of a running command (R96). -/
theorem busy_of_inOperand {s : State} {a : Nat} (h : s.inOperand a = true) : s.status.busy = true := by
  by_contra hb
  simp [State.inOperand, State.inDest, State.running, hb] at h

theorem State.Inv.popHost {s : State} (h : s.Inv) : s.popHost.Inv :=
  ⟨h.params, h.memWf, h.memBound, h.latched, h.busyClean, h.doneClean, h.errCoded, h.infoZero,
    h.touchedBusy⟩

theorem State.Inv.failCommand {s : State} (f : Failure) (h : s.Inv) (hb : s.status.busy = true) :
    (failCommand f s).Inv where
  params := h.params
  memWf := h.memWf
  memBound := h.memBound
  latched := nofun
  busyClean := nofun
  doneClean hd := by simp [(h.busyClean hb).1] at hd
  errCoded _ := by simp
  infoZero := nofun
  touchedBusy := nofun

theorem State.Inv.succeedCommand {s : State} {i : Instr} (h : s.Inv) (hb : s.status.busy = true)
    (hl : CommandLegal i s) : (succeedCommand (effectOf i s)).Inv := by
  obtain ⟨hdone, herr, hcode⟩ := h.busyClean hb
  have hst : (Machine.succeedCommand (effectOf i s)).status = s.status.succeeded := by
    rw [succeedCommand_status, status_effectOf]
  have hp : (Machine.succeedCommand (effectOf i s)).params = s.params := params_effectOf i s
  exact
    { params := hp ▸ h.params
      memWf := wf_effectOf h.memWf
      memBound := hp ▸ hl.effectOf_mem_lt h.params h.memBound
      latched := nofun
      busyClean := nofun
      doneClean := fun _ => by rw [hst, Status.succeeded_errCode, hcode]
      errCoded := fun he => by rw [hst, Status.succeeded_err, herr] at he; cases he
      infoZero := fun _ => by rw [hst, Status.succeeded_errInfo, h.infoZero hcode]
      touchedBusy := nofun }

theorem State.Inv.startCommand {s : State} (h : s.Inv) : (startCommand s).Inv where
  params := h.params
  memWf := h.memWf
  memBound := h.memBound
  latched _ := rfl
  busyClean _ := ⟨rfl, rfl, rfl⟩
  doneClean := nofun
  errCoded := nofun
  infoZero _ := rfl
  touchedBusy := nofun

theorem State.Inv.dropWrite {s : State} (h : s.Inv) : (dropWrite s).Inv :=
  ⟨h.params, h.memWf, h.memBound, h.latched, h.busyClean, h.doneClean, h.errCoded, h.infoZero,
    h.touchedBusy⟩

theorem State.Inv.withCtrl {s : State} (c : Ctrl) (h : s.Inv) : { s with ctrl := c }.Inv :=
  ⟨h.params, h.memWf, h.memBound, h.latched, h.busyClean, h.doneClean, h.errCoded, h.infoZero,
    h.touchedBusy⟩

theorem State.Inv.withBusData {s : State} (d : Word) (c : Nat) (h : s.Inv) :
    { s with busData := d, freeCtr := c }.Inv :=
  ⟨h.params, h.memWf, h.memBound, h.latched, h.busyClean, h.doneClean, h.errCoded, h.infoZero,
    h.touchedBusy⟩

theorem State.Inv.withRegs {s : State} (l : CmdRegs) (h : s.Inv) (hb : s.status.busy = false) :
    { s with regs := l }.Inv :=
  { h with latched := fun hb' => by simp [hb] at hb' }

/-- Clearing bits of STATUS keeps the agreement of its fields (R35). -/
theorem State.Inv.clearStatus {s : State} (v : Word) (h : s.Inv) :
    { s with status := s.status.clear v }.Inv :=
  { h with
    busyClean := fun hb => by
      obtain ⟨hd, he, hc⟩ := h.busyClean hb
      simp [Status.clear, hd, he, hc]
    doneClean := fun hd => h.doneClean (Bool.and_eq_true_iff.1 hd).1
    errCoded := fun he => h.errCoded (Bool.and_eq_true_iff.1 he).1 }

theorem State.Inv.writeCtrl {s : State} (v : Word) (h : s.Inv) : (writeCtrl s v).Inv := by
  rcases writeCtrl_cases s v with ⟨-, hc⟩ | ⟨-, -, hc⟩ | ⟨-, -, hc⟩ <;> rw [hc]
  · exact h.withCtrl _
  · exact (h.withCtrl _).dropWrite
  · exact (h.withCtrl _).startCommand

theorem State.Inv.writeOffset {s : State} (v : Word) (o : Nat) (h : s.Inv) :
    (writeOffset s v o).Inv := by
  rcases writeOffset_cases s v o with hw | ⟨hw, -⟩ | ⟨hb, l, hw⟩ | hw | ⟨-, hw⟩ <;> rw [hw]
  · exact h
  · exact h.dropWrite
  · exact h.withRegs l hb
  · exact h.clearStatus v
  · exact h.writeCtrl v

theorem State.Inv.hostStore {s : State} {a : Nat} (v : Byte) (h : s.Inv) (ha : a < s.params.memSize) :
    { s with mem := Memory.write s.mem a v, hostTouched := s.hostTouched || s.inOperand a }.Inv :=
  { h with
    memWf := Memory.write_wf a v h.memWf
    memBound := fun c hc => by
      rcases Memory.mem_write hc with ⟨rfl, -⟩ | hc
      · exact ha
      · exact h.memBound c hc
    touchedBusy := fun ht => by
      rcases Bool.or_eq_true_iff.1 ht with ht | ht
      · exact h.touchedBusy ht
      · exact busy_of_inOperand ht }

/-- A reset keeps the memory sound and answers the reset registers (R270, R272). -/
theorem State.Inv.resetBlock {s : State} (h : s.Inv) : (resetBlock s).Inv where
  params := h.params
  memWf := Memory.writeAll_wf _ h.memWf
  memBound c hc := by
    rcases Memory.mem_writeAll hc with hc | hc
    · rw [map_fst_freeCells] at hc
      exact abandoned_lt s _ hc
    · exact h.memBound c hc
  latched := nofun
  busyClean := nofun
  doneClean := nofun
  errCoded := nofun
  infoZero _ := rfl
  touchedBusy := nofun

theorem State.Inv.act {s t : State} {a : HostAct} (h : s.Inv) (ha : act a s = .next t) : t.Inv := by
  rcases act_cases ha with ⟨o, n, -, -, rfl⟩ | ⟨o, n, v, -, -, rfl⟩ | ⟨ad, -, -, d, c, rfl⟩ |
    ⟨ad, v, -, hlt, rfl⟩ | ⟨-, rfl⟩ | ⟨-, -, rfl⟩ | ⟨-, hb, ⟨f, rfl⟩ | ⟨i, -, hc, rfl⟩⟩
  · exact h.withBusData _ _
  · exact h.writeOffset v _
  · exact h.withBusData d c
  · exact h.hostStore v hlt
  · exact h.resetBlock
  · exact h
  · exact h.failCommand f hb
  · exact h.succeedCommand hb (checkOf_eq_none.1 hc)

/-- Settles O50: a step is one act on the popped state, and each act keeps the invariant. -/
theorem stepKeepsInvariant : Obligations.StepKeepsInvariant :=
  fun _ _ hs h => hs.popHost.act h

/-! ### What a step changes -/

/-- Settles O52: no act writes the ROMs or the parameters. -/
theorem constantsNeverChange : Obligations.ConstantsNeverChange := by
  intro s t h
  rcases act_cases h with ⟨o, n, -, -, rfl⟩ | ⟨o, n, v, -, -, rfl⟩ | ⟨ad, -, -, d, c, rfl⟩ |
    ⟨ad, v, -, -, rfl⟩ | ⟨-, rfl⟩ | ⟨-, -, rfl⟩ | ⟨-, -, ⟨f, rfl⟩ | ⟨i, -, -, rfl⟩⟩
  · exact ⟨rfl, rfl⟩
  · exact ⟨writeOffset_rom _ _ _, writeOffset_params _ _ _⟩
  · exact ⟨rfl, rfl⟩
  · exact ⟨rfl, rfl⟩
  · exact ⟨rfl, rfl⟩
  · exact ⟨rfl, rfl⟩
  · exact ⟨rfl, rfl⟩
  · exact ⟨rom_effectOf i s.popHost, params_effectOf i s.popHost⟩

/-- Settles O53: a register write, a host access and a failed or plane command keep SCORE and RESULT. -/
theorem resultWrittenOnlyByIscombed : Obligations.ResultWrittenOnlyByIscombed := by
  intro s t h hne
  rcases act_cases h with ⟨o, n, -, -, rfl⟩ | ⟨o, n, v, -, -, rfl⟩ | ⟨ad, -, -, d, c, rfl⟩ |
    ⟨ad, v, -, -, rfl⟩ | ⟨ha, -⟩ | ⟨-, -, rfl⟩ | ⟨ha, hb, ⟨f, rfl⟩ | ⟨i, hi, -, rfl⟩⟩
  · exact absurd rfl hne
  · exact absurd (writeOffset_result s.popHost v _) hne
  · exact absurd rfl hne
  · exact absurd rfl hne
  · exact .inl ha
  · exact absurd rfl hne
  · exact absurd rfl hne
  · refine .inr ⟨⟨ha, hb⟩, rfl, ?_⟩
    cases i with
    | iscombed ys us vs => exact ⟨ys, us, vs, hi⟩
    | tmask | mmask | mand | mcomb | tbuild => exact absurd (effectOf_result_of_dest rfl) hne

/-- Settles O54: BUSY rises at a START only, and falls at the block's turn or a reset. -/
theorem busyChangesOnlyByStartAndCompletion : Obligations.BusyChangesOnlyByStartAndCompletion := by
  intro s t h hne
  rcases act_cases h with ⟨o, n, -, -, rfl⟩ | ⟨o, n, v, ha, ⟨hn, -⟩, rfl⟩ | ⟨ad, -, -, d, c, rfl⟩ |
    ⟨ad, v, -, -, rfl⟩ | ⟨ha, rfl⟩ | ⟨-, -, rfl⟩ | ⟨ha, hb, -⟩
  · exact absurd rfl hne
  · obtain ⟨hb, ho, hv⟩ := writeOffset_busy hne
    have ho : o = 0x004 := BitVec.eq_of_toNat_eq ho
    exact .inl ⟨hb, v, by rw [ha, hn, ho], hv⟩
  · exact absurd rfl hne
  · exact absurd rfl hne
  · exact .inr ⟨Bool.eq_true_of_not_eq_false fun hb => hne hb.symm, .inr ha⟩
  · exact absurd rfl hne
  · exact .inr ⟨hb, .inl ha⟩

/-! ### Which acts have a next state -/

/-- The block's turn of an idle block does nothing (R253). -/
theorem blockTurn_of_idle {s : State} (h : s.status.busy = false) : blockTurn s = .next s :=
  if_neg (by simp [h])

/-- The block's turn of a busy block is the meaning of its decoded word (R30, R110). -/
theorem blockTurn_of_decode {s : State} {i : Instr} (hb : s.status.busy = true)
    (hd : decode s.latch.word = .ok i) : blockTurn s = exec i s := by
  rw [blockTurn, if_pos hb, runCommand, hd]

/-- The block's turn always answers a next state (R240). -/
theorem blockTurn_next (s : State) : ∃ t, blockTurn s = .next t := by
  unfold blockTurn runCommand
  split
  · split
    · exact ⟨_, rfl⟩
    · exact exec_next _ s
  · exact ⟨_, rfl⟩

/-- An act the spec has answers a next state (R31, R80, R240). -/
theorem act_next_of_legal {a : HostAct} {s : State} (h : a.legal s.params = true) :
    ∃ t, act a s = .next t := by
  cases a with
  | regRead o n => exact ⟨_, hostRegRead_of_legal (of_decide_eq_true h)⟩
  | regWrite o n v => exact ⟨_, hostRegWrite_of_legal (of_decide_eq_true h)⟩
  | memRead ad =>
    have hlt := of_decide_eq_true h
    simp only [act, hostMemRead, if_neg (Nat.not_le.2 hlt)]
    split <;> exact ⟨_, rfl⟩
  | memWrite ad v => exact ⟨_, hostMemWrite_next v (of_decide_eq_true h)⟩
  | reset => exact ⟨_, rfl⟩
  | blockTurn => exact blockTurn_next s

/-- An act that answers a next state is one the spec has. -/
theorem legal_of_act_next {a : HostAct} {s t : State} (h : act a s = .next t) :
    a.legal s.params = true := by
  rcases act_cases h with ⟨o, n, rfl, hl, -⟩ | ⟨o, n, v, rfl, hl, -⟩ | ⟨ad, rfl, hl, -⟩ |
    ⟨ad, v, rfl, hl, -⟩ | ⟨rfl, -⟩ | ⟨rfl, -⟩ | ⟨rfl, -⟩
  · exact decide_eq_true hl
  · exact decide_eq_true hl
  · exact decide_eq_true hl
  · exact decide_eq_true hl
  · rfl
  · rfl
  · rfl

/-- A register access R31 does not have is refused. -/
theorem act_reg_refused {a : HostAct} {s : State} {o : BitVec 12} {n : Nat} {v : Word}
    (ha : a = .regRead o n ∨ a = .regWrite o n v) (h : a.legal s.params = false) :
    act a s = .refused (.badAccess o n) := by
  rcases ha with rfl | rfl <;> exact if_neg (of_decide_eq_false h)

/-- A data-memory access at or above MEMSIZE faults (log 11). -/
theorem act_mem_fault {a : HostAct} {s : State} {ad : Word} {v : Byte}
    (ha : a = .memRead ad ∨ a = .memWrite ad v) (h : a.legal s.params = false) :
    act a s = .fault (.noSuchAddress ad) := by
  rcases ha with rfl | rfl <;> exact if_pos (Nat.not_lt.1 (of_decide_eq_false h))

theorem step_of_nextAct {s : State} {a : HostAct} (h : nextAct s = a) : step s = act a s.popHost := by
  rw [step, h]

/-- Settles O51: the step is the next act on the popped state, and an act stops only when it is not legal. -/
theorem stepAnswersLegalAccess : Obligations.StepAnswersLegalAccess := by
  intro s
  refine ⟨fun a rest h => ?_, fun h => ?_, fun o n h => step_of_nextAct h,
    fun o n v h => step_of_nextAct h, fun ad h => step_of_nextAct h,
    fun ad v h => step_of_nextAct h, fun h hb => ?_, ?_,
    fun o n v ha h => act_reg_refused (s := s.popHost) ha h,
    fun ad v ha h => act_mem_fault (s := s.popHost) ha h⟩
  · simp only [nextAct, State.popHost, h, List.tail_cons, and_self]
  · obtain ⟨⟩ := s
    cases h
    exact ⟨rfl, rfl⟩
  · rw [step_of_nextAct h]
    exact blockTurn_of_idle hb
  · exact ⟨fun ⟨t, h⟩ => legal_of_act_next (s := s.popHost) h, act_next_of_legal (s := s.popHost)⟩

/-- Settles O4: popping the host list changes neither BUSY nor the latch. -/
theorem stepRunsDecodedCommand : Obligations.StepRunsDecodedCommand := by
  intro s i ⟨hn, hb⟩ hd
  rw [step_of_nextAct hn]
  exact blockTurn_of_decode (s := s.popHost) hb hd

end Sys2Proof.Machine
end

section
/-! The data memory: which sample a read gives, when the destination of a command overlaps a source, and which acts
change a byte (20_memory.md R80 to R96, 60_exceptions.md R246, 70_reset_and_hazards.md R270 to R272). -/

open Sys2Proof.Machine.Claim

namespace Sys2Proof.Machine

/-! ### Samples -/

/-- The descriptor of a slot number below 64 is the one the latch holds for it (R50). -/
theorem CmdRegs.desc_fin (l : CmdRegs) (slot : Fin 64) : l.desc slot = l.descs[slot] := by
  simp [CmdRegs.desc]

/-- Only a BITDEPTH of 8 has one byte per sample (R9). -/
theorem Fmt.bps_eq_ite (f : Fmt) : f.bps = if f.bitdepth = 8 then 1 else 2 := by
  have h : f.bitdepth.toNat = 8 ↔ f.bitdepth = 8 := by rw [← BitVec.toNat_inj]; rfl
  simp only [Fmt.bps, h]

theorem Memory.readLE_one (m : Memory) (a : Nat) : m.readLE a 1 = (m.read a).toNat := by
  simp [Memory.readLE]

theorem Memory.readLE_two (m : Memory) (a : Nat) :
    m.readLE a 2 = (m.read a).toNat + 256 * (m.read (a + 1)).toNat := by
  simp [Memory.readLE]

theorem sample_of_zero {d : Desc} (m : Memory) (bps y x : Nat) (h : d.zero = true) :
    sample m bps d y x = 0 := if_pos h

theorem sample_of_stored {d : Desc} (m : Memory) (bps y x : Nat) (h : d.zero = false) :
    sample m bps d y x = m.readLE (d.addr bps y x) bps := if_neg (by simp [h])

/-- Settles O57: a stored sample reads one byte or two, by BPS. -/
theorem sampleReadsStoredBytes : Obligations.SampleReadsStoredBytes := by
  intro s slot y x d bps a byte
  have hd : s.latch.desc slot = d := s.latch.desc_fin slot
  have hb : s.latch.fmt.bps = bps := s.latch.fmt.bps_eq_ite
  have hs : s.sampleAt slot y x = sample s.mem bps d y x := by rw [State.sampleAt, hd, hb]
  refine ⟨fun hz => ?_, fun hz => ?_, hd, by rw [CmdRegs.w, hd], by rw [CmdRegs.h, hd], hb, rfl, rfl⟩
  · rw [hs, sample_of_zero _ _ _ _ hz]
  · rw [hs, sample_of_stored _ _ _ _ hz]
    have ha : d.addr bps y x = a := rfl
    have hbps : bps = 1 ∨ bps = 2 := hb ▸ s.latch.fmt.bps_eq
    rw [ha]
    rcases hbps with h | h
    · rw [h, if_pos rfl, Memory.readLE_one]
    · rw [h, if_neg (by decide), Memory.readLE_two]

/-! ### Border reads -/

/-- The column one outside a plane of two columns or more is reflected at its edge (R88). -/
theorem mirror_eq {c : Int} {w : Nat} (hw : 2 ≤ w) (h0 : -1 ≤ c) (h1 : c ≤ w) :
    (mirror c w : Int) = if c < 0 then -c else if c > w - 1 then 2 * (w - 1) - c else c := by
  unfold mirror
  split
  · omega
  · split <;> omega

/-- A row outside the plane is read at the opposite offset, where the plane has a row (R89). -/
theorem rrow_eq {y h : Nat} {d : Int} (hy : y < h) (hd : d.natAbs + d.natAbs ≤ h) :
    (rrow y d h : Int) = if 0 ≤ y + d ∧ y + d < h then y + d else y - d := by
  unfold rrow
  split <;> omega

/-- Settles O58: both minimum heights of R247 are at least twice the offset read. -/
theorem borderReadsReflect : Obligations.BorderReadsReflect := by
  refine ⟨fun c w hw h0 h1 => ⟨?_, mirror_eq hw h0 h1⟩, fun y h d hy hd => ?_, fun s slot y x d e => rfl⟩
  · have heq := mirror_eq hw h0 h1
    split at heq
    · omega
    · split at heq <;> omega
  · have hd : d.natAbs + d.natAbs ≤ h := by omega
    exact ⟨rrow_lt hy hd, rrow_eq hy hd⟩

/-! ### The overlap check -/

theorem overlapFailures_of_dest {l : CmdRegs} {i : Instr} {dst : Nat} (h : destSlot i = some dst) :
    overlapFailures l i = (sourceSlots l i).map (overlapFailure l (aliasAllowed i) dst) := by
  simp only [overlapFailures, h]

/-- The first clashing source is the first failure of step 9 (R93, R246). -/
theorem firstFailure_overlapFailures {l : CmdRegs} {i : Instr} {dst src : Nat} {pre post : List Nat}
    (hd : destSlot i = some dst) (hs : sourceSlots l i = pre ++ src :: post)
    (hpre : ∀ p ∈ pre, ¬ clashes l i dst p) (hc : clashes l i dst src) :
    firstFailure (overlapFailures l i) = some ⟨.eOverlap, BitVec.ofNat 32 (dst <<< 8 ||| src)⟩ := by
  rw [overlapFailures_of_dest hd, hs, List.map_append, List.map_cons, overlapFailure_of hc]
  exact firstFailure_append_some (List.forall_mem_map.2 fun p hp => overlapFailure_eq_none.2 (hpre p hp))

/-- Settles O15: steps 3 to 8 pass, and the sources before the clashing one pass step 9. -/
theorem overlapFailureNamesFirstSource : Obligations.OverlapFailureNamesFirstSource := by
  intro i s dst src pre post hconfig hops hshapes hd hs hpre hc
  refine exec_fails ?_
  rw [checkOf_eq, firstFailure_append (configFailures_eq_none.2 hconfig),
    firstFailure_append (operandFailures_eq_none.2 hops),
    firstFailure_append (shapeFailures_eq_none.2 hshapes)]
  exact firstFailure_append_left (firstFailure_overlapFailures hd hs hpre hc)

/-! ### The operand extents of the running command (R91, R96) -/

theorem running_of_idle {s : State} (h : s.status.busy = false) : s.running = none := by
  simp [State.running, h]

/-- The running command is the one a busy block's latched word decodes to (R110). -/
theorem running_eq_some {s : State} {i : Instr} :
    s.running = some i ↔ s.status.busy = true ∧ decode s.latch.word = .ok i := by
  cases hb : s.status.busy with
  | false => simp [running_of_idle hb]
  | true => cases hd : decode s.latch.word <;> simp [State.running, hb, hd, Except.toOption]

theorem slotCovers_iff {s : State} {a slot : Nat} :
    s.slotCovers a slot = true ↔ (s.latch.desc slot).covers s.latch.fmt.bps a := decide_eq_true_iff

theorem inDest_of_running {s : State} {i : Instr} (h : s.running = some i) (a : Nat) :
    s.inDest a = (destSlot i).any (s.slotCovers a) := by
  simp only [State.inDest, h]

theorem inOperand_of_running {s : State} {i : Instr} (h : s.running = some i) (a : Nat) :
    s.inOperand a = ((destSlot i).any (s.slotCovers a) || (sourceSlots s.latch i).any (s.slotCovers a)) := by
  simp only [State.inOperand, inDest_of_running h, h]

theorem inDest_of_idle {s : State} (h : s.status.busy = false) (a : Nat) : s.inDest a = false := by
  simp only [State.inDest, running_of_idle h]

/-- The model's operand test says that a slot of the running command covers the address. -/
theorem inOperand_iff {s : State} {a : Nat} : s.inOperand a = true ↔ inRunningOperand s a := by
  constructor
  · intro h
    cases hr : s.running with
    | none => simp [State.inOperand, State.inDest, hr] at h
    | some i =>
      obtain ⟨hb, hdec⟩ := running_eq_some.1 hr
      rw [inOperand_of_running hr, Bool.or_eq_true_iff, Option.any_eq_true, List.any_eq_true] at h
      rcases h with ⟨slot, hslot, hcov⟩ | ⟨slot, hslot, hcov⟩
      · exact ⟨hb, i, slot, hdec, .inl hslot, slotCovers_iff.1 hcov⟩
      · exact ⟨hb, i, slot, hdec, .inr hslot, slotCovers_iff.1 hcov⟩
  · rintro ⟨hb, i, slot, hdec, hslot, hcov⟩
    rw [inOperand_of_running (running_eq_some.2 ⟨hb, hdec⟩), Bool.or_eq_true_iff, Option.any_eq_true,
      List.any_eq_true]
    exact hslot.imp (fun h => ⟨slot, h, slotCovers_iff.2 hcov⟩) (fun h => ⟨slot, h, slotCovers_iff.2 hcov⟩)

/-! ### Which acts change a byte -/

/-- A host read outside the running destination gives the stored byte (R80). -/
theorem hostMemRead_stored {addr : Word} {s : State} {v : Byte} (h : addr.toNat < s.params.memSize)
    (hd : s.inDest addr.toNat = false) (hv : Memory.read s.mem addr.toNat = v) :
    hostMemRead addr s = .next { s with busData := v.setWidth 32 } := by
  rw [hostMemRead, if_neg (Nat.not_le.2 h), hd, if_neg Bool.false_ne_true, hv]

/-- Settles O60: a host write is one write of the memory, and the note is the operand test. -/
theorem hostWriteStoresByte : Obligations.HostWriteStoresByte := by
  intro s addr v hwf hlt
  have hsame := Memory.read_write_same addr.toNat v hwf
  refine ⟨_, hostMemWrite_next v hlt, Memory.write_wf _ v hwf, hsame,
    fun a ha => Memory.read_write_other v ha, rfl, ?_, fun hb => ?_⟩
  · rw [Bool.or_eq_true_iff, inOperand_iff]
  · exact hostMemRead_stored hlt (inDest_of_idle hb _) hsame

/-- An idle block has no destination that a reset could abandon (R272). -/
theorem abandonedBytes_of_idle {s : State} (h : s.status.busy = false) : s.abandonedBytes = [] := by
  simp only [State.abandonedBytes, running_of_idle h, Option.bind_none]

theorem resetBlock_mem (s : State) :
    (resetBlock s).mem = s.mem.writeAll (freeCells s.abandonedBytes s.freeCtr) := rfl

theorem resetBlock_mem_of_idle {s : State} (h : s.status.busy = false) : (resetBlock s).mem = s.mem := by
  rw [resetBlock_mem, abandonedBytes_of_idle h]
  rfl

/-- Settles O55: of the acts that are no host write, only a busy block's turn or reset writes a byte. -/
theorem memoryChangesOnlyByHostOrBusyBlock : Obligations.MemoryChangesOnlyByHostOrBusyBlock := by
  intro s t h hne
  rcases act_cases h with ⟨o, n, -, -, rfl⟩ | ⟨o, n, v, -, -, rfl⟩ | ⟨ad, -, -, d, c, rfl⟩ |
    ⟨ad, v, ha, -, -⟩ | ⟨ha, rfl⟩ | ⟨-, -, rfl⟩ | ⟨ha, hb, -⟩
  · exact absurd rfl hne
  · exact absurd (writeOffset_mem s.popHost v _) hne
  · exact absurd rfl hne
  · exact .inl ⟨ad, v, ha⟩
  · refine .inr ⟨Bool.eq_true_of_not_eq_false fun hb => hne ?_, .inr ha⟩
    exact resetBlock_mem_of_idle (s := s.popHost) hb
  · exact absurd rfl hne
  · exact .inr ⟨hb, .inl ha⟩

end Sys2Proof.Machine
end

section
/-! The command word: what the decoder makes of a word, and that it and the encoder are inverse
(30_encoding.md R110 to R123). -/

open Sys2Proof.Machine.Claim

namespace Sys2Proof

/-! ### Fields of a word as digits of its number (R6, R113, R114) -/

theorem bitsAt_eq (c : CmdWord) (lo len : Nat) : bitsAt c lo len = c.toNat / 2 ^ lo % 2 ^ len := by
  rw [bitsAt, BitVec.extractLsb'_toNat, Nat.shiftRight_eq_div_pow]

theorem flagAt_toNat (c : CmdWord) (k : Nat) : (flagAt c k).toNat = c.toNat / 2 ^ k % 2 := by
  rw [flagAt, ← BitVec.testBit_toNat, Nat.toNat_testBit]

theorem sixBits_bitsAt (c : CmdWord) (lo : Nat) : sixBits (bitsAt c lo 6) = true :=
  decide_eq_true (c.extractLsb' lo 6).isLt

/-- A field put on top of the bits below it. -/
theorem low_add_bitsAt (c : CmdWord) {lo len hi : Nat} (h : lo + len = hi) :
    c.toNat % 2 ^ lo + bitsAt c lo len * 2 ^ lo = c.toNat % 2 ^ hi := by
  rw [← h, Nat.pow_add, Nat.mod_mul, bitsAt_eq, Nat.mul_comm]

/-- A flag put on top of the bits below it. -/
theorem low_add_flagAt (c : CmdWord) {k hi : Nat} (h : k + 1 = hi) :
    c.toNat % 2 ^ k + (flagAt c k).toNat * 2 ^ k = c.toNat % 2 ^ hi := by
  rw [← h, Nat.mod_pow_succ, flagAt_toNat, Nat.mul_comm]

theorem bitsAt_eq_zero_iff {c : CmdWord} {lo len : Nat} :
    bitsAt c lo len = 0 ↔ ∀ k < len, c.getLsbD (lo + k) = false := by
  have hbit : ∀ k < len, (c.extractLsb' lo len).getLsbD k = c.getLsbD (lo + k) := fun k hk => by
    simp [hk]
  constructor
  · intro h k hk
    have h0 : c.extractLsb' lo len = 0#len := BitVec.eq_of_toNat_eq h
    rw [← hbit k hk, h0, BitVec.getLsbD_zero]
  · intro h
    have h0 : c.extractLsb' lo len = 0#len :=
      BitVec.eq_of_getLsbD_eq fun k hk => by rw [hbit k hk, h k hk, BitVec.getLsbD_zero]
    rw [bitsAt, h0]
    rfl

theorem toNat_lt_two_pow_iff {c : CmdWord} {top : Nat} :
    c.toNat < 2 ^ top ↔ ∀ k, top ≤ k → c.getLsbD k = false := by
  simp only [← BitVec.testBit_toNat]
  constructor
  · intro h k hk
    exact Nat.testBit_lt_two_pow (h.trans_le (Nat.pow_le_pow_right (by decide) hk))
  · exact Nat.lt_pow_two_of_testBit c.toNat

/-! ### Reserved bits (R112) -/

theorem lowestReserved_eq_find? (c : CmdWord) (top : Nat) :
    lowestReserved c top = (List.range 64).find? fun k => c.getLsbD k && decide (reserved top k) := by
  have htest : ∀ k, (decide (4 ≤ k ∧ k < 8) || decide (top ≤ k)) = decide (reserved top k) := fun k => by
    rw [← Bool.decide_or, decide_eq_decide]
    omega
  simp only [lowestReserved, htest]

theorem lowestReserved_eq_none_iff {c : CmdWord} {top : Nat} :
    lowestReserved c top = none ↔ ∀ k < 64, reserved top k → c.getLsbD k = false := by
  rw [lowestReserved_eq_find?, List.find?_range_eq_none]
  refine forall₂_congr fun k _ => ?_
  cases c.getLsbD k
  · simp only [Bool.false_and, Bool.not_false, implies_true]
  · simp only [Bool.true_and, Bool.not_eq_true', decide_eq_false_iff_not, Bool.true_eq_false, imp_false]

theorem lowestReserved_eq_some {c : CmdWord} {top k : Nat} (hk : k < 64) (hres : reserved top k)
    (hset : c.getLsbD k = true) (hlow : ∀ j < k, reserved top j → c.getLsbD j = false) :
    lowestReserved c top = some k := by
  rw [lowestReserved_eq_find?, List.find?_range_eq_some]
  refine ⟨by rw [hset, decide_eq_true hres]; rfl, List.mem_range.2 hk, fun j hj => ?_⟩
  by_cases hr : reserved top j
  · rw [hlow j hj hr]
    rfl
  · rw [decide_eq_false hr, Bool.and_false]
    rfl

/-- No reserved bit is set when bits [7:4] are 0 and the word ends below the format's top bit. -/
theorem lowestReserved_eq_none_iff_toNat {c : CmdWord} {top : Nat} :
    lowestReserved c top = none ↔ bitsAt c 4 4 = 0 ∧ c.toNat < 2 ^ top := by
  rw [lowestReserved_eq_none_iff, bitsAt_eq_zero_iff, toNat_lt_two_pow_iff]
  constructor
  · intro h
    refine ⟨fun k hk => h _ (by omega) (by omega), fun k hk => ?_⟩
    rcases Nat.lt_or_ge k 64 with h64 | h64
    · exact h k h64 (.inr hk)
    · exact c.getLsbD_of_ge k h64
  · rintro ⟨hlow, htop⟩ k - (⟨h4, h7⟩ | hk)
    · rw [← Nat.add_sub_cancel' h4]
      exact hlow _ (by omega)
    · exact htop k hk

/-- The opcode and the clear reserved bits as digits: the low byte is the opcode, and no bit from top on is set. -/
theorem opcode_reserved_iff {c : CmdWord} {opc top : Nat} (hopc : opc < 16) :
    bitsAt c 0 4 = opc ∧ lowestReserved c top = none ↔ c.toNat % 2 ^ 8 = opc ∧ c.toNat < 2 ^ top := by
  rw [lowestReserved_eq_none_iff_toNat, bitsAt_eq, bitsAt_eq]
  omega

/-! ### What the decoder answers -/

/-- OPC of the command's format (R111, R116 to R121). -/
def Instr.opcode : Instr → Nat
  | .tmask .. => 1
  | .mmask .. => 2
  | .mand .. => 3
  | .mcomb .. => 4
  | .tbuild .. => 5
  | .iscombed .. => 6

/-- The first bit above the last field of the command's format (R116 to R121). -/
def Instr.top : Instr → Nat
  | .tmask .. => 21
  | .mmask .. => 38
  | .mand .. => 26
  | .mcomb .. => 20
  | .tbuild .. => 43
  | .iscombed .. => 26

/-- The command of the same format whose fields are those of the word (R116 to R121). -/
def Instr.withFieldsOf (c : CmdWord) : Instr → Instr
  | .tmask .. => .tmask (bitsAt c 8 6) (bitsAt c 14 6) (flagAt c 20)
  | .mmask .. =>
      .mmask (bitsAt c 8 6) (bitsAt c 14 6) (bitsAt c 20 6) (bitsAt c 26 6) (bitsAt c 32 6)
  | .mand .. => .mand (bitsAt c 8 6) (bitsAt c 14 6) (bitsAt c 20 6)
  | .mcomb .. => .mcomb (bitsAt c 8 6) (bitsAt c 14 6)
  | .tbuild .. =>
      .tbuild (bitsAt c 8 6) (bitsAt c 14 6) (bitsAt c 20 6) (bitsAt c 26 6) (bitsAt c 32 6)
        (flagAt c 38) (flagAt c 39) (flagAt c 40) (flagAt c 41) (flagAt c 42)
  | .iscombed .. => .iscombed (bitsAt c 8 6) (bitsAt c 14 6) (bitsAt c 20 6)

theorem Instr.opcode_lt (i : Instr) : i.opcode < 16 := by cases i <;> simp [Instr.opcode]

theorem Instr.top_le (i : Instr) : i.top ≤ 64 := by cases i <;> simp [Instr.top]

theorem unlessReserved_eq_ok_iff {c : CmdWord} {top : Nat} {i j : Instr} :
    unlessReserved c top i = .ok j ↔ lowestReserved c top = none ∧ i = j := by
  unfold unlessReserved
  cases lowestReserved c top <;> simp

/-- A word decodes to a command exactly when its opcode is the command's, no reserved bit is set and its fields are
the command's. -/
theorem decode_eq_ok_iff {c : CmdWord} {i : Instr} :
    decode c = .ok i ↔
      c.toNat % 2 ^ 8 = i.opcode ∧ c.toNat < 2 ^ i.top ∧ i.withFieldsOf c = i := by
  rw [← and_assoc, ← opcode_reserved_iff i.opcode_lt, and_assoc]
  constructor
  · intro h
    unfold decode at h
    split at h
    case h_7 => cases h
    all_goals
      obtain ⟨hres, rfl⟩ := unlessReserved_eq_ok_iff.1 h
      exact ⟨by assumption, hres, rfl⟩
  · rintro ⟨hopc, hres, hfields⟩
    cases i <;>
    · rw [decode, hopc]
      exact unlessReserved_eq_ok_iff.2 ⟨hres, hfields⟩

theorem decode_of_illegalOpcode {c : CmdWord} (h : bitsAt c 0 4 = 0 ∨ 7 ≤ bitsAt c 0 4) :
    decode c = .error (.illegalOpcode (bitsAt c 0 4)) := by
  unfold decode
  split
  case h_7 => rfl
  all_goals omega

theorem decode_of_format {c : CmdWord} {top : Nat} (h : (bitsAt c 0 4, top) ∈ formats) :
    ∃ i, decode c = unlessReserved c top i := by
  unfold decode
  generalize bitsAt c 0 4 = opc at h
  simp only [formats, List.mem_cons, Prod.mk.injEq, List.not_mem_nil, or_false] at h
  rcases h with ⟨rfl, rfl⟩ | ⟨rfl, rfl⟩ | ⟨rfl, rfl⟩ | ⟨rfl, rfl⟩ | ⟨rfl, rfl⟩ | ⟨rfl, rfl⟩ <;>
    exact ⟨_, rfl⟩

theorem decode_of_reservedBit {c : CmdWord} {top k : Nat} (h : (bitsAt c 0 4, top) ∈ formats)
    (hk : lowestReserved c top = some k) : decode c = .error (.reservedBit k) := by
  obtain ⟨i, hi⟩ := decode_of_format h
  rw [hi, unlessReserved, hk]

/-! ### Decoding the word of a command -/

theorem encodeNat_low_high {i : Instr} (h : i.wellFormed = true) :
    encodeNat i % 2 ^ 8 = i.opcode ∧ encodeNat i < 2 ^ i.top := by
  cases i with
  | tmask src dst pclass =>
    have := pclass.toNat_le
    simp only [Instr.wellFormed, Bool.and_eq_true, decide_eq_true_eq] at h
    simp only [encodeNat, Instr.opcode, Instr.top]
    omega
  | tbuild dst cbase ccnt obase ocnt order field rowpar cfirst wother =>
    have := order.toNat_le
    have := field.toNat_le
    have := rowpar.toNat_le
    have := cfirst.toNat_le
    have := wother.toNat_le
    simp only [Instr.wellFormed, Bool.and_eq_true, decide_eq_true_eq] at h
    simp only [encodeNat, Instr.opcode, Instr.top]
    omega
  | mmask | mand | mcomb | iscombed =>
    simp only [Instr.wellFormed, Bool.and_eq_true, decide_eq_true_eq] at h
    simp only [encodeNat, Instr.opcode, Instr.top]
    omega

theorem toNat_encode {i : Instr} (h : i.wellFormed = true) : (encode i).toNat = encodeNat i :=
  Nat.mod_eq_of_lt
    ((encodeNat_low_high h).2.trans_le (Nat.pow_le_pow_right (by decide) i.top_le))

theorem bitsAt_encode {i : Instr} (h : i.wellFormed = true) (lo len : Nat) :
    bitsAt (encode i) lo len = encodeNat i / 2 ^ lo % 2 ^ len := by
  rw [bitsAt_eq, toNat_encode h]

theorem flagAt_encode {i : Instr} (h : i.wellFormed = true) {k : Nat} {b : Bool}
    (hb : encodeNat i / 2 ^ k % 2 = b.toNat) : flagAt (encode i) k = b := by
  rw [flagAt, ← BitVec.testBit_toNat, toNat_encode h, Nat.testBit_eq_decide_div_mod_eq, hb]
  cases b <;> rfl

/-- Each field of the word is the command's: the fields below it are smaller than its place. -/
theorem withFieldsOf_encode {i : Instr} (h : i.wellFormed = true) : i.withFieldsOf (encode i) = i := by
  have hbits := bitsAt_encode h
  have hflag := @flagAt_encode _ h
  cases i with
  | tmask src dst pclass =>
    have := pclass.toNat_le
    simp only [Instr.wellFormed, Bool.and_eq_true, decide_eq_true_eq] at h
    simp only [Instr.withFieldsOf, hbits, Instr.tmask.injEq]
    simp only [encodeNat] at hflag ⊢
    refine ⟨?_, ?_, hflag ?_⟩ <;> omega
  | tbuild dst cbase ccnt obase ocnt order field rowpar cfirst wother =>
    have := order.toNat_le
    have := field.toNat_le
    have := rowpar.toNat_le
    have := cfirst.toNat_le
    have := wother.toNat_le
    simp only [Instr.wellFormed, Bool.and_eq_true, decide_eq_true_eq] at h
    simp only [Instr.withFieldsOf, hbits, Instr.tbuild.injEq]
    simp only [encodeNat] at hflag ⊢
    refine ⟨?_, ?_, ?_, ?_, ?_, hflag ?_, hflag ?_, hflag ?_, hflag ?_, hflag ?_⟩ <;> omega
  | mmask | mand | mcomb | iscombed =>
    simp only [Instr.wellFormed, Bool.and_eq_true, decide_eq_true_eq] at h
    simp only [Instr.withFieldsOf, hbits, encodeNat, Instr.mmask.injEq, Instr.mand.injEq,
      Instr.mcomb.injEq, Instr.iscombed.injEq]
    omega

/-- Settles O1: the word's low byte is the opcode, no bit from top on is set, and its fields are the command's. -/
theorem encodeThenDecode : Obligations.EncodeThenDecode := by
  intro i h
  obtain ⟨hlow, hhigh⟩ := encodeNat_low_high h
  rw [← toNat_encode h] at hlow hhigh
  exact decode_eq_ok_iff.2 ⟨hlow, hhigh, withFieldsOf_encode h⟩

/-! ### Encoding the command of a word -/

theorem wellFormed_withFieldsOf (c : CmdWord) (i : Instr) : (i.withFieldsOf c).wellFormed = true := by
  cases i <;> simp only [Instr.withFieldsOf, Instr.wellFormed, sixBits_bitsAt, Bool.and_self]

/-- A format leaves no gap between its low byte and its top bit: from the opcode up, each field adds the word's next
digits. -/
theorem encodeNat_withFieldsOf {c : CmdWord} {i : Instr} (hlow : c.toNat % 2 ^ 8 = i.opcode)
    (hhigh : c.toNat < 2 ^ i.top) : encodeNat (i.withFieldsOf c) = c.toNat := by
  have h14 := low_add_bitsAt c (rfl : 8 + 6 = 14)
  have h20 := low_add_bitsAt c (rfl : 14 + 6 = 20)
  have h26 := low_add_bitsAt c (rfl : 20 + 6 = 26)
  have h32 := low_add_bitsAt c (rfl : 26 + 6 = 32)
  have h38 := low_add_bitsAt c (rfl : 32 + 6 = 38)
  rw [← Nat.mod_eq_of_lt hhigh]
  cases i with
  | tmask =>
    have h21 := low_add_flagAt c (rfl : 20 + 1 = 21)
    simp only [Instr.opcode] at hlow
    simp only [Instr.withFieldsOf, encodeNat, Instr.top]
    omega
  | tbuild =>
    have h39 := low_add_flagAt c (rfl : 38 + 1 = 39)
    have h40 := low_add_flagAt c (rfl : 39 + 1 = 40)
    have h41 := low_add_flagAt c (rfl : 40 + 1 = 41)
    have h42 := low_add_flagAt c (rfl : 41 + 1 = 42)
    have h43 := low_add_flagAt c (rfl : 42 + 1 = 43)
    simp only [Instr.opcode] at hlow
    simp only [Instr.withFieldsOf, encodeNat, Instr.top]
    omega
  | mmask | mand | mcomb | iscombed =>
    simp only [Instr.opcode] at hlow
    simp only [Instr.withFieldsOf, encodeNat, Instr.top]
    omega

/-- Settles O2: the opcode, the clear reserved bits and the fields make up the whole word. -/
theorem decodeThenEncode : Obligations.DecodeThenEncode := by
  intro c i h
  obtain ⟨hlow, hhigh, hfields⟩ := decode_eq_ok_iff.1 h
  have hnat := encodeNat_withFieldsOf hlow hhigh
  have hwf := wellFormed_withFieldsOf c i
  rw [hfields] at hnat hwf
  exact ⟨hwf, BitVec.eq_of_toNat_eq (by rw [toNat_encode hwf, hnat])⟩

end Sys2Proof

namespace Sys2Proof.Machine

/-! ### The step of a word that is no command (60_exceptions.md R244) -/

/-- The block's turn of a busy block whose latched word is no command is a failure (R246 steps 1 and 2). -/
theorem blockTurn_of_decode_error {s : State} {e : DecodeError} (hb : s.status.busy = true)
    (hd : decode s.latch.word = .error e) : blockTurn s = .next (failCommand (decodeFailure e) s) := by
  rw [blockTurn, if_pos hb, runCommand, hd]

theorem step_of_decode_error {s : State} {e : DecodeError} (h : blockRuns s)
    (hd : decode s.latch.word = .error e) :
    step s = .next (failCommand (decodeFailure e) s.popHost) := by
  obtain ⟨hnext, hbusy⟩ := h
  rw [step_of_nextAct hnext]
  exact blockTurn_of_decode_error (s := s.popHost) hbusy hd

/-- Settles O5: the decoder looks at OPC first. -/
theorem illegalOpcodeFails : Obligations.IllegalOpcodeFails := by
  intro s h opc hopc
  exact step_of_decode_error h (decode_of_illegalOpcode hopc)

/-- Settles O6: the decoder names the lowest reserved bit of the opcode's format. -/
theorem reservedBitFails : Obligations.ReservedBitFails := by
  rintro s _ top k h hformat rfl hk hres hset hlow
  exact step_of_decode_error h
    (decode_of_reservedBit hformat (lowestReserved_eq_some hk hres hset hlow))

end Sys2Proof.Machine
end

section
/-! TMASK: the order of its configuration checks, ATMAX of each TTYPE and its bound, and the threshold layers a legal
command writes (40_threshold_mask.md R140 to R150). -/

open Sys2Proof.Machine.Claim

namespace Sys2Proof.Machine

/-! ### The override registers (R42, R148) -/

theorem quarterReg_eq (l : CmdRegs) (pclass : Bool) :
    quarterReg l pclass = (if pclass then l.mtqc else l.mtql, if pclass then 0x30 else 0x28) := by
  cases pclass <;> rfl

theorem halfReg_eq (l : CmdRegs) (pclass : Bool) :
    halfReg l pclass = (if pclass then l.mthc else l.mthl, if pclass then 0x34 else 0x2C) := by
  cases pclass <;> rfl

/-- After a legal FMT, TMASK checks TTYPE, the range of the quarter and the half override, then each for -2
(R246 steps 4 and 5). -/
theorem firstFailure_tmask_config {p : Params} {l : CmdRegs} {src dst : Nat} {pclass : Bool}
    (hf : l.fmt.legal) :
    firstFailure (configFailures p l (.tmask src dst pclass)) = firstFailure [
      failIf (5 < l.ttype.toNat) .eCfg 0x24,
      failIf (¬ overrideLegal l.fmt (if pclass then l.mtqc else l.mtql)) .eCfg
        (if pclass then 0x30 else 0x28),
      failIf (¬ overrideLegal l.fmt (if pclass then l.mthc else l.mthl)) .eCfg
        (if pclass then 0x34 else 0x2C),
      failIf ((if pclass then l.mtqc else l.mtql).toInt = -2) .ePlaneOff (if pclass then 0x30 else 0x28),
      failIf ((if pclass then l.mthc else l.mthl).toInt = -2) .ePlaneOff (if pclass then 0x34 else 0x2C)] := by
  rw [configFailures, fmtFailure_eq_none.2 hf, firstFailure_none_cons, quarterReg_eq, halfReg_eq]
  rfl

/-- Settles O10: TTYPE, both ranges and both tests for -2 are made in this order. -/
theorem tmaskConfigFailures : Obligations.TmaskConfigFailures := by
  intro src dst pclass s hf q h qOff hOff ok run
  have hconfig := firstFailure_tmask_config (p := s.params) (src := src) (dst := dst) (pclass := pclass) hf
  refine ⟨fun ht => ?_, fun ht hq => ?_, fun ht hq hh => ?_, fun ht hq hh hq2 => ?_,
    fun ht hq hh hq2 hh2 => ?_⟩
  all_goals refine exec_fails_config (hconfig.trans ?_)
  · exact firstFailure_failIf _ ht
  all_goals refine (firstFailure_failIf_pass _ (Nat.not_lt.2 ht)).trans ?_
  · exact firstFailure_failIf _ hq
  all_goals refine (firstFailure_failIf_pass _ (not_not.2 hq)).trans ?_
  · exact firstFailure_failIf _ hh
  all_goals refine (firstFailure_failIf_pass _ (not_not.2 hh)).trans ?_
  · exact firstFailure_failIf _ hq2
  · exact (firstFailure_failIf_pass _ hq2).trans (firstFailure_failIf _ hh2)

/-! ### ATMAX by TTYPE (R141 to R146) -/

theorem minOf_singleton (a : Nat) : minOf [a] = a := rfl

theorem minOf_cons_cons (a b : Nat) (l : List Nat) : minOf (a :: b :: l) = min a (minOf (b :: l)) :=
  List.foldl_assoc

theorem maxOf_singleton (a : Nat) : maxOf [a] = a := Nat.zero_max a

theorem maxOf_cons_cons (a b : Nat) (l : List Nat) : maxOf (a :: b :: l) = max a (maxOf (b :: l)) := by
  simp only [maxOf, List.foldl_cons, Nat.zero_max]
  exact List.foldl_assoc

/-- The window of a pixel holds the border reads of the plane around it (R141). -/
theorem windowAt_sampleAt (s : State) (src y x : Nat) :
    windowAt (s.sampleAt src) (s.latch.w src) (s.latch.h src) y x =
      let n := neighbour s src y x
      { c := n 0 0, u := n (-1) 0, d := n 1 0, l := n 0 (-1), r := n 0 1,
        ul := n (-1) (-1), ur := n (-1) 1, dl := n 1 (-1), dr := n 1 1 } := rfl

theorem groupDev_eq (c : Nat) (g : List Nat) (k : Nat) :
    groupDev c g k = max (deviation c (minOf g) k) (deviation c (maxOf g) k) := by
  rw [groupDev, normDev_eq, normDev_eq]

/-- The range of a set, with the centre in it when TM_RANGE_CENTER is 1 (R146). -/
theorem rangeOf_cons (n : Window) (a : Nat) (l : List Nat) (centre : Bool) :
    rangeOf n (a :: l) centre =
      if centre then max n.c (maxOf (a :: l)) - min n.c (minOf (a :: l))
      else maxOf (a :: l) - minOf (a :: l) := by
  cases centre
  · rfl
  · simp only [rangeOf, if_true, maxOf_cons_cons, minOf_cons_cons]

section
variable (n : Int → Int → Nat)

theorem minOf_four : minOf [n (-1) 0, n 1 0, n 0 (-1), n 0 1] = least4 n := by
  simp only [minOf_cons_cons, minOf_singleton, min_assoc]

theorem maxOf_four : maxOf [n (-1) 0, n 1 0, n 0 (-1), n 0 1] = greatest4 n := by
  simp only [maxOf_cons_cons, maxOf_singleton, max_assoc]

theorem minOf_eight : minOf [n (-1) 0, n 1 0, n 0 (-1), n 0 1, n (-1) (-1), n (-1) 1, n 1 (-1), n 1 1] =
    least8 n := by
  simp only [minOf_cons_cons, minOf_singleton, min_assoc]

theorem maxOf_eight : maxOf [n (-1) 0, n 1 0, n 0 (-1), n 0 1, n (-1) (-1), n (-1) 1, n 1 (-1), n 1 1] =
    greatest8 n := by
  simp only [maxOf_cons_cons, maxOf_singleton, max_assoc]

end

/-- Settles O20: each group's least and greatest sample, the vertical group shifted by vShift, the horizontal one by
hShift. -/
theorem tmaskCompensatedModes : Obligations.TmaskCompensatedModes := by
  intro src pclass s y x hH hV
  refine ⟨fun ht => ?_, fun ht => ?_⟩
  · rw [tmaskAtmax, ht, atmax_compensated4, hShift_default hH, vShift_default hV, windowAt_sampleAt]
    simp only [compensated, groupDev_eq, minOf_cons_cons, minOf_singleton, maxOf_cons_cons, maxOf_singleton]
  · rw [tmaskAtmax, ht, atmax_compensated8, hShift_default hH, vShift_default hV, windowAt_sampleAt]
    simp only [compensated, groupDev_eq, minOf_cons_cons, minOf_singleton, maxOf_cons_cons, maxOf_singleton,
      min_assoc, max_assoc]

/-- Settles O21: one group, the 4 or the 8 neighbours, shifted by the default hShift. -/
theorem tmaskPlainModes : Obligations.TmaskPlainModes := by
  intro src pclass s y x hH hP
  refine ⟨fun ht => ?_, fun ht => ?_⟩
  · rw [tmaskAtmax, ht, atmax_plain4, plainShift_default hP, hShift_default hH, groupDev_eq,
      windowAt_sampleAt, ← minOf_four, ← maxOf_four]
    rfl
  · rw [tmaskAtmax, ht, atmax_plain8, plainShift_default hP, hShift_default hH, groupDev_eq,
      windowAt_sampleAt, ← minOf_eight, ← maxOf_eight]
    rfl

/-- Settles O22: the centre, when TM_RANGE_CENTER is 1, is one more member of the neighbour set. -/
theorem tmaskRangeModes : Obligations.TmaskRangeModes := by
  intro src pclass s y x
  refine ⟨fun ht => ?_, fun ht => ?_⟩
  · rw [tmaskAtmax, ht, atmax_range4, windowAt_sampleAt, ← minOf_four, ← maxOf_four]
    exact rangeOf_cons _ _ _ _
  · rw [tmaskAtmax, ht, atmax_range8, windowAt_sampleAt, ← minOf_eight, ← maxOf_eight]
    exact rangeOf_cons _ _ _ _

/-! ### The bound of ATMAX (R140, R149) -/

/-- The window of a pixel is at most any bound of the plane's samples (R141, R247). -/
theorem windowAt_le {rd : Nat → Nat → Nat} {w h y x P : Nat} (hw : 2 ≤ w) (hh : 2 ≤ h) (hy : y < h)
    (hx : x < w) (hP : ∀ y < h, ∀ x < w, rd y x ≤ P) :
    ∀ v ∈ (windowAt rd w h y x).c :: (windowAt rd w h y x).eight, v ≤ P := by
  have hread : ∀ d e : Int, d.natAbs ≤ 1 → e.natAbs ≤ 1 → borderRead rd w h y x d e ≤ P :=
    fun d e hd he => hP _ (rrow_lt hy (by omega)) _ (mirror_lt hx hw he)
  simp only [windowAt, Window.eight, Window.four, List.cons_append, List.nil_append, List.forall_mem_cons]
  refine ⟨?_, ?_, ?_, ?_, ?_, ?_, ?_, ?_, ?_, List.forall_mem_nil _⟩
  all_goals exact hread _ _ (by decide) (by decide)

/-- ATMAX is at most any bound of the source's samples. -/
theorem tmaskAtmax_le {s : State} {src y x P : Nat} {pclass : Bool} (hw : 2 ≤ s.latch.w src)
    (hh : 2 ≤ s.latch.h src) (hP : ∀ y < s.latch.h src, ∀ x < s.latch.w src, s.sampleAt src y x ≤ P)
    (hy : y < s.latch.h src) (hx : x < s.latch.w src) : tmaskAtmax s src pclass y x ≤ P :=
  atmax_le (windowAt_le hw hh hy hx hP)

/-- Settles O24: the window's samples are samples of the source, and no mode exceeds their bound. -/
theorem tmaskAtmaxAtMostPeak : Obligations.TmaskAtmaxAtMostPeak :=
  fun _ _ _ hw hh hP _ hy _ hx => tmaskAtmax_le hw hh hP hy hx

/-! ### The thresholds a legal TMASK writes (R147, R149, R150) -/

theorem quarterValue_eq (qo : Word) (a : Nat) :
    quarterValue qo a = if 0 ≤ qo.toInt then qo.toInt.toNat else (a + 2) / 4 := by
  rw [quarterValue, Nat.shiftRight_eq_div_pow]

theorem halfValue_eq (ho : Word) (a : Nat) :
    halfValue ho a = if 0 ≤ ho.toInt then ho.toInt.toNat else (a + 1) / 2 := by
  rw [halfValue, Nat.shiftRight_eq_div_pow]

theorem quarterValue_lt {qo : Word} {a n : Nat} (hq : qo.toInt < n) (ha : a < n) : quarterValue qo a < n := by
  rw [quarterValue_eq]
  split <;> omega

theorem halfValue_lt {ho : Word} {a n : Nat} (hh : ho.toInt < n) (ha : a < n) : halfValue ho a < n := by
  rw [halfValue_eq]
  split <;> omega

/-- A row of the upper layer holds quarter thresholds. -/
theorem tmaskSample_upper {s : State} {src y x : Nat} {pclass : Bool} (hy : y < s.latch.h src) :
    tmaskSample s src pclass y x =
      quarterValue (if pclass then s.latch.mtqc else s.latch.mtql) (tmaskAtmax s src pclass y x) := by
  rw [tmaskSample, if_pos hy, quarterReg_eq]

/-- A row of the lower layer holds half thresholds. -/
theorem tmaskSample_lower {s : State} {src y x : Nat} {pclass : Bool} :
    tmaskSample s src pclass (s.latch.h src + y) x =
      halfValue (if pclass then s.latch.mthc else s.latch.mthl) (tmaskAtmax s src pclass y x) := by
  rw [tmaskSample, if_neg (by omega), halfReg_eq, Nat.add_sub_cancel_left]

/-- Every row of the stacked destination is a row of the upper or of the lower layer (R90). -/
theorem layer_cases {r h : Nat} (hr : r < 2 * h) : r < h ∨ ∃ y < h, r = h + y := by
  rcases Nat.lt_or_ge r h with hlt | hge
  · exact .inl hlt
  · exact .inr ⟨r - h, by omega, by omega⟩

/-- A legal TMASK's overrides are below 0 or at most PEAK (R148). -/
theorem CommandLegal.tmask_overrides_le {src dst : Nat} {pclass : Bool} {s : State}
    (h : CommandLegal (.tmask src dst pclass) s) :
    (if pclass then s.latch.mtqc else s.latch.mtql).toInt ≤ s.latch.fmt.peak ∧
      (if pclass then s.latch.mthc else s.latch.mthl).toInt ≤ s.latch.fmt.peak := by
  obtain ⟨_, _, hq, hh⟩ := h.config
  omega

/-- Every threshold a legal TMASK computes fits its container. -/
theorem CommandLegal.tmaskSample_lt {src dst r x : Nat} {pclass : Bool} {s : State}
    (h : CommandLegal (.tmask src dst pclass) s) (hr : r < s.latch.h dst) (hx : x < s.latch.w dst) :
    tmaskSample s src pclass r x < 256 ^ s.latch.fmt.bps := by
  obtain ⟨hw, hh, hdw, hdh⟩ := h.tmask_planes
  obtain ⟨hqo, hho⟩ := h.tmask_overrides_le
  have hpeak : (s.latch.fmt.peak : Int) < (256 ^ s.latch.fmt.bps : Nat) := Int.ofNat_lt.2 (Fmt.peak_lt h.fmt)
  have hatmax : ∀ y < s.latch.h src, tmaskAtmax s src pclass y x < 256 ^ s.latch.fmt.bps := fun y hy =>
    Nat.lt_of_le_sub_one (Nat.pow_pos (by decide)) <|
      tmaskAtmax_le hw hh (fun y _ x _ => Nat.le_sub_one_of_lt (sampleAt_lt s src y x)) hy (by omega)
  rw [hdh] at hr
  rcases layer_cases hr with hy | ⟨y, hy, rfl⟩
  · rw [tmaskSample_upper hy]
    exact quarterValue_lt (hqo.trans_lt hpeak) (hatmax r hy)
  · rw [tmaskSample_lower]
    exact halfValue_lt (hho.trans_lt hpeak) (hatmax y hy)

/-- A legal TMASK no host write disturbed completes with every threshold written. -/
theorem exec_tmask_of_legal {src dst : Nat} {pclass : Bool} {s : State}
    (h : CommandLegal (.tmask src dst pclass) s) (hu : undisturbed s) :
    ∃ t, exec (.tmask src dst pclass) s = .next t ∧ finished s t ∧
      ∀ r < s.latch.h dst, ∀ x < s.latch.w dst, t.sampleAt dst r x = tmaskSample s src pclass r x := by
  obtain ⟨ht, hm⟩ := hu
  obtain ⟨t, hexec, hdone, hwritten⟩ := exec_plane_of_legal h ht hm rfl rfl
  exact ⟨t, hexec, hdone, fun r hr x hx => hwritten r hr x hx _ rfl (h.tmaskSample_lt hr hx)⟩

/-- Settles O19: row y of the source has row y of the upper and row H + y of the lower layer. -/
theorem tmaskWritesThresholds : Obligations.TmaskWritesThresholds := by
  intro src dst pclass s h hu qo ho
  obtain ⟨_, _, hdw, hdh⟩ := h.tmask_planes
  obtain ⟨t, hexec, hdone, hwritten⟩ := exec_tmask_of_legal h hu
  refine ⟨t, hexec, hdone, fun y hy x hx => ⟨?_, ?_⟩⟩
  · rw [hwritten y (by omega) x (by omega), tmaskSample_upper hy, quarterValue_eq]
  · rw [hwritten _ (by omega) x (by omega), tmaskSample_lower, halfValue_eq]

/-- Settles O23: an override that is at least 0 stands for the threshold of every pixel. -/
theorem tmaskConstantFill : Obligations.TmaskConstantFill := by
  intro src dst pclass s h hu qo ho hqo hho
  obtain ⟨_, _, _, hdh⟩ := h.tmask_planes
  obtain ⟨t, hexec, hdone, hwritten⟩ := exec_tmask_of_legal h hu
  refine ⟨t, hexec, hdone, fun r hr x hx => ?_⟩
  rw [hwritten r hr x hx]
  rw [hdh] at hr
  rcases layer_cases hr with hy | ⟨y, hy, rfl⟩
  · rw [tmaskSample_upper hy, quarterValue_eq, if_pos hqo, if_pos hy, Int.toNat_of_nonneg hqo]
  · rw [tmaskSample_lower, halfValue_eq, if_pos hho, if_neg (Nat.not_lt.2 (Nat.le_add_right _ y)),
      Int.toNat_of_nonneg hho]

end Sys2Proof.Machine
end

section
/-! MMASK: the match flags a legal command writes in both layers, and its symmetry in the two source and mask pairs
(41_motion_mask.md R160 to R163). -/

open Sys2Proof.Machine.Claim

namespace Sys2Proof.Machine

/-! ### The match flags of both layers (R161, R162) -/

/-- A flag in the words of R161 and R162: PEAK up to the threshold, which is clamped below, then above. -/
theorem flag_matchFlag (l : CmdRegs) (a b t1 t2 : Nat) :
    l.fmt.flag (matchFlag l a b t1 t2) =
      if ((((a : Int) - (b : Int)).natAbs : Nat) : Int) ≤
          min (max (((min t1 t2 : Nat) : Int) + l.nt.toInt) l.minThresh.toInt) l.maxThresh.toInt then
        2 ^ l.fmt.bitdepth.toNat - 1
      else 0 := by
  simp only [Fmt.flag, matchFlag, decide_eq_true_eq]
  rfl

/-- Row y of the upper and row H + y of the lower layer compare row y of the sources. -/
theorem mmaskSample_of_layer {s : State} {src1 msk1 src2 msk2 y r x : Nat} (hy : y < s.latch.h src1)
    (hr : r ∈ [y, s.latch.h src1 + y]) :
    mmaskSample s src1 msk1 src2 msk2 r x =
      s.latch.fmt.flag (matchFlag s.latch (s.sampleAt src1 y x) (s.sampleAt src2 y x)
        (s.sampleAt msk1 r x) (s.sampleAt msk2 r x)) := by
  have hrow : (if r < s.latch.h src1 then r else r - s.latch.h src1) = y := by
    rw [List.mem_pair] at hr
    split <;> omega
  rw [mmaskSample, hrow]

/-- A legal MMASK no host write disturbed completes with every flag written. -/
theorem exec_mmask_of_legal {src1 msk1 src2 msk2 dst : Nat} {s : State}
    (h : CommandLegal (.mmask src1 msk1 src2 msk2 dst) s) (hu : undisturbed s) :
    ∃ t, exec (.mmask src1 msk1 src2 msk2 dst) s = .next t ∧ finished s t ∧
      ∀ r < s.latch.h dst, ∀ x < s.latch.w dst,
        t.sampleAt dst r x = mmaskSample s src1 msk1 src2 msk2 r x := by
  obtain ⟨ht, hm⟩ := hu
  obtain ⟨t, hexec, hdone, hwritten⟩ := exec_plane_of_legal h ht hm rfl rfl
  exact ⟨t, hexec, hdone, fun r hr x hx => hwritten r hr x hx _ rfl (Fmt.flag_lt h.fmt _)⟩

/-- Settles O25: each row of the sources has its flags in row y of the upper and row H + y of the lower layer. -/
theorem mmaskWritesMatchFlags : Obligations.MmaskWritesMatchFlags := by
  intro src1 msk1 src2 msk2 dst s h hu
  obtain ⟨_, _, _, hdw, hdh⟩ := h.mmask_planes
  obtain ⟨t, hexec, hdone, hwritten⟩ := exec_mmask_of_legal h hu
  refine ⟨t, hexec, hdone, fun y hy x hx r hr => ?_⟩
  have hrd : r < s.latch.h dst := by
    rw [List.mem_pair] at hr
    omega
  rw [hwritten r hrd x (by omega), mmaskSample_of_layer hy hr]
  exact flag_matchFlag ..

/-! ### Symmetry (R163) -/

theorem absDiff_comm (a b : Nat) : absDiff a b = absDiff b a := by
  rw [absDiff, absDiff, ← Int.natAbs_neg, Int.neg_sub]

theorem matchFlag_swap (l : CmdRegs) (a b t1 t2 : Nat) : matchFlag l a b t1 t2 = matchFlag l b a t2 t1 := by
  rw [matchFlag, matchFlag, matchThreshold, matchThreshold, absDiff_comm, Nat.min_comm]

/-- The flags of the swapped command are the same when the sources have equal heights. -/
theorem mmaskSample_swap {s : State} {src1 src2 : Nat} (hh : s.latch.h src2 = s.latch.h src1)
    (msk1 msk2 r x : Nat) : mmaskSample s src1 msk1 src2 msk2 r x = mmaskSample s src2 msk2 src1 msk1 r x := by
  rw [mmaskSample, mmaskSample, hh, matchFlag_swap]

/-- The swapped command has the same operands and sources in another order, and the shapes of R250 make both sources
equal in size, so it is legal too. -/
theorem CommandLegal.mmask_swap {src1 msk1 src2 msk2 dst : Nat} {s : State}
    (h : CommandLegal (.mmask src1 msk1 src2 msk2 dst) s) : CommandLegal (.mmask src2 msk2 src1 msk1 dst) s where
  config := h.config
  operands o ho := h.operands o (by
    simp only [operandsOf, List.mem_cons, List.not_mem_nil, or_false] at ho ⊢
    tauto)
  shapes := by
    obtain ⟨⟨hm1w, hm1h⟩, ⟨hs2w, hs2h⟩, ⟨hm2w, hm2h⟩, hdw, hdh⟩ := h.mmask_planes
    simp [shapesOf, *]
  overlap d hd src hsrc := h.overlap d hd src (by
    simp only [sourceSlots, List.mem_cons, List.not_mem_nil, or_false] at hsrc ⊢
    tauto)
  size := h.size

/-- Settles O26: both commands are legal and commit the same flags. -/
theorem mmaskSymmetric : Obligations.MmaskSymmetric := by
  intro src1 msk1 src2 msk2 dst s h
  obtain ⟨_, ⟨_, hh⟩, _⟩ := h.mmask_planes
  have heffect : effectOf (.mmask src1 msk1 src2 msk2 dst) s = effectOf (.mmask src2 msk2 src1 msk1 dst) s := by
    simp only [effectOf, effectFrom, mmaskSample_swap hh msk1 msk2]
  rw [exec_of_legal h, exec_of_legal h.mmask_swap, heffect]

end Sys2Proof.Machine
end

section
/-! MAND and MCOMB: the bitwise AND of two masks, and the copy or upgrade of each pixel of the quarter layer
(42_mask_fusion.md R170 to R178). -/

open Sys2Proof.Machine.Claim

namespace Sys2Proof.Machine

/-! ### MAND (R171, R172) -/

/-- The AND of two samples fits their container. -/
theorem mandSample_lt (s : State) (a b r x : Nat) : mandSample s a b r x < 256 ^ s.latch.fmt.bps :=
  Nat.and_le_left.trans_lt (sampleAt_lt s a r x)

/-- Settles O27: both layers of the stacked destination hold the AND of the two samples at their place. -/
theorem mandWritesBitwiseAnd : Obligations.MandWritesBitwiseAnd := by
  intro a b dst s h ⟨ht, hm⟩
  obtain ⟨t, hexec, hdone, hwritten⟩ := exec_plane_of_legal h ht hm rfl rfl
  exact ⟨t, hexec, hdone, fun r hr x hx => hwritten r hr x hx _ rfl (mandSample_lt s a b r x)⟩

/-- Settles O28: the destination has the size of A, and the AND of two equal samples is either of them. -/
theorem mandIdempotent : Obligations.MandIdempotent := by
  intro a b dst s h hu heq
  obtain ⟨_, hdw, hdh⟩ := h.mand_planes
  obtain ⟨t, hexec, _, hwritten⟩ := mandWritesBitwiseAnd a b dst s h hu
  refine ⟨t, hexec, fun r hr x hx => ?_⟩
  rw [hwritten r (by omega) x (by omega), ← heq r hr x hx, Nat.and_self]

/-! ### MCOMB (R176 to R178) -/

/-- A neighbour reflects inside the quarter layer of h rows (R177). -/
theorem neighbourCount_sampleAt (s : State) (src w h y x : Nat) :
    neighbourCount (s.sampleAt src) w h y x =
      eightOffsets.countP fun o => s.sampleAt src (rrow y o.1 h) (mirror (x + o.2) w) ≠ 0 := rfl

/-- An upgraded pixel gets PEAK, any other its quarter sample, and both fit the container. -/
theorem mcombSample_lt {s : State} (hf : s.latch.fmt.legal) (src y x : Nat) :
    mcombSample s src y x < 256 ^ s.latch.fmt.bps := by
  simp only [mcombSample]
  split
  · exact Fmt.peak_lt hf
  · exact sampleAt_lt s src y x

/-- Settles O29: the destination has the size of the quarter layer, and each of its samples is the copied or upgraded
quarter sample. -/
theorem mcombCopiesOrUpgrades : Obligations.McombCopiesOrUpgrades := by
  intro src dst s h ⟨ht, hm⟩ height width
  obtain ⟨_, _, _, hdw, hdh⟩ := h.mcomb_planes
  obtain ⟨t, hexec, hdone, hwritten⟩ := exec_plane_of_legal h ht hm rfl rfl
  refine ⟨t, hexec, hdone, fun y hy x hx => ?_⟩
  rw [hwritten y (by omega) x (by omega) _ rfl (mcombSample_lt h.fmt src y x)]
  simp only [mcombSample, neighbourCount_sampleAt]
  rfl

end Sys2Proof.Machine
end

section
/-! TBUILD: the phase arrays, the step at which the scan ends, and the code a legal command writes per pixel
(43_temporal_mask_builder.md R186 to R197). -/

open Sys2Proof.Machine.Claim

namespace Sys2Proof.Machine

/-! ### Phase arrays (R190, R191) -/

/-- A list of set samples has a set entry at every position it holds. -/
theorem getD_ne_zero_of_forall {p : List Nat} {k : Nat} (hp : ∀ v ∈ p, v ≠ 0) (hk : k < p.length) :
    p.getD k 0 ≠ 0 := by
  rw [List.getD_eq_getElem p 0 hk]
  exact hp _ (List.getElem_mem hk)

@[simp] theorem length_phaseArray (cfirst : Bool) (cur opp : List Nat) :
    (phaseArray cfirst cur opp).length = cur.length + opp.length := by
  simp [phaseArray]

/-- The second count constraint of R190 by the number of CFIRST. -/
theorem bounds_of_countsFit {cfirst : Bool} {ccnt ocnt : Nat} (h : countsFit cfirst ccnt ocnt) :
    cfirst.toNat ≤ 1 ∧ ocnt + cfirst.toNat ≤ ccnt + 1 ∧ ccnt ≤ ocnt + cfirst.toNat := by
  cases cfirst <;> simp [countsFit] at h ⊢ <;> omega

section
variable {cfirst : Bool} {cur opp : List Nat} (hfit : countsFit cfirst cur.length opp.length)
include hfit

theorem getElem?_phaseArray_cur {j : Nat} (hj : j < cur.length) :
    (phaseArray cfirst cur opp)[2 * j + (1 - cfirst.toNat)]? = cur[j]? := by
  obtain ⟨hc, hlow, hhigh⟩ := bounds_of_countsFit hfit
  have hlt : 2 * j + (1 - cfirst.toNat) < cur.length + opp.length := by omega
  have hhalf : (2 * j + (1 - cfirst.toNat)) / 2 = j := by omega
  have hpar : ((2 * j + (1 - cfirst.toNat)) % 2 = 0) = (cfirst = true) := by cases cfirst <;> simp
  rw [phaseArray, List.getElem?_map, List.getElem?_range hlt, Option.map_some, if_pos hpar, hhalf,
    List.getD_eq_getElem _ _ hj, List.getElem?_eq_getElem hj]

theorem getElem?_phaseArray_opp {j : Nat} (hj : j < opp.length) :
    (phaseArray cfirst cur opp)[2 * j + cfirst.toNat]? = opp[j]? := by
  obtain ⟨hc, hlow, hhigh⟩ := bounds_of_countsFit hfit
  have hlt : 2 * j + cfirst.toNat < cur.length + opp.length := by omega
  have hhalf : (2 * j + cfirst.toNat) / 2 = j := by omega
  have hpar : ¬ ((2 * j + cfirst.toNat) % 2 = 0) = (cfirst = true) := by cases cfirst <;> simp
  rw [phaseArray, List.getElem?_map, List.getElem?_range hlt, Option.map_some, if_neg hpar, hhalf,
    List.getD_eq_getElem _ _ hj, List.getElem?_eq_getElem hj]

/-- Every position belongs to one of the two sequences, which the counts make long enough. -/
theorem mem_of_mem_phaseArray {v : Nat} (hv : v ∈ phaseArray cfirst cur opp) : v ∈ cur ∨ v ∈ opp := by
  obtain ⟨hc, hlow, hhigh⟩ := bounds_of_countsFit hfit
  obtain ⟨k, hk⟩ := List.mem_iff_getElem?.1 hv
  obtain ⟨hlt, -⟩ := List.getElem?_eq_some_iff.1 hk
  rw [length_phaseArray] at hlt
  obtain ⟨j, rfl | rfl⟩ : ∃ j, k = 2 * j + (1 - cfirst.toNat) ∨ k = 2 * j + cfirst.toNat := ⟨k / 2, by omega⟩
  · rw [getElem?_phaseArray_cur hfit (by omega)] at hk
    exact .inl (List.mem_of_getElem? hk)
  · rw [getElem?_phaseArray_opp hfit (by omega)] at hk
    exact .inr (List.mem_of_getElem? hk)

/-- Set samples in both sequences set every position. -/
theorem getD_phaseArray_ne_zero {k : Nat} (hcur : ∀ v ∈ cur, v ≠ 0) (hopp : ∀ v ∈ opp, v ≠ 0)
    (hk : k < cur.length + opp.length) : (phaseArray cfirst cur opp).getD k 0 ≠ 0 :=
  getD_ne_zero_of_forall (fun v hv => (mem_of_mem_phaseArray hfit hv).elim (hcur v) (hopp v))
    (by rwa [length_phaseArray])

end

/-- Settles O31: CFIRST gives each sequence the positions of one parity. -/
theorem phaseArrayPositions : Obligations.PhaseArrayPositions := by
  intro cfirst cur opp hfit
  cases cfirst <;> exact ⟨length_phaseArray .., fun _ => getElem?_phaseArray_cur hfit,
    fun _ => getElem?_phaseArray_opp hfit⟩

/-! ### The scan (R187, R193) -/

/-- The weight of a step is the entry of GVLUT the statements name. -/
theorem weightOf_eq_gvlutEntry (t : RomSet) {len i : Nat} (hlen : len ≤ 34) (hi : i < len) :
    weightOf t len i = gvlutEntry t len i := by
  obtain ⟨w, hw⟩ := gvlut_entry t hlen hi
  simp only [weightOf_of_entry hw, gvlutEntry, hw]
  cases w <;> rfl

theorem coarse_eq_vlutEntry (t : RomSet) (val : BitVec 6) : coarse t val = vlutEntry t val := rfl

/-- val after one more step. -/
theorem valAfter_succ (t : RomSet) {len n : Nat} (p0 p1 : List Nat) (hlen : len ≤ 34) (hn : n < len) :
    valAfter t len p0 p1 (n + 1) = scanStep t len p0 p1 n (valAfter t len p0 p1 n) := by
  simp only [valAfter, List.range_succ, List.foldl_append, List.foldl_cons, List.foldl_nil, scanStep,
    windowPasses_iff, weightOf_eq_gvlutEntry t hlen hn]

/-- From step i with k steps to go the scan ends at a step n: the last one or a later one of VLUT 2, and none
between has VLUT 2. -/
theorem scanFrom_range' (t : RomSet) {len i k : Nat} (p0 p1 : List Nat) (hlen : len ≤ 34) (hik : i + k = len) :
    ∃ n, i ≤ n ∧ n ≤ len ∧
      scanFrom t len p0 p1 (List.range' i k) (valAfter t len p0 p1 i) = valAfter t len p0 p1 n ∧
      (n = len ∨ i < n ∧ vlutEntry t (valAfter t len p0 p1 n) = 2) ∧
      ∀ m, i < m → m < n → vlutEntry t (valAfter t len p0 p1 m) ≠ 2 := by
  induction k generalizing i with
  | zero => exact ⟨i, le_rfl, by omega, rfl, .inl (by omega), fun m _ _ => by omega⟩
  | succ k ih =>
    rw [List.range'_succ, scanFrom, ← valAfter_succ t p0 p1 hlen (by omega), coarse_eq_vlutEntry]
    by_cases hstop : vlutEntry t (valAfter t len p0 p1 (i + 1)) = 2
    · exact ⟨i + 1, by omega, by omega, if_pos hstop, .inr ⟨by omega, hstop⟩, fun m _ _ => by omega⟩
    · obtain ⟨n, hin, hn, hscan, hend, hbefore⟩ := ih (i := i + 1) (by omega)
      refine ⟨n, by omega, hn, (if_neg hstop).trans hscan, hend.imp_right fun h => ⟨by omega, h.2⟩, ?_⟩
      intro m him hmn
      rcases Nat.eq_or_lt_of_le him with rfl | hlt
      · exact hstop
      · exact hbefore m hlt hmn

/-- Settles O32: the scan is the one from step 0 with every step to go. -/
theorem scanStopsAtFirstDefinite : Obligations.ScanStopsAtFirstDefinite := by
  intro t len p0 p1 hmin hmax
  obtain ⟨n, -, hn, hscan, hend, hbefore⟩ := scanFrom_range' t p0 p1 hmax (Nat.zero_add len)
  rw [← List.range_eq_range'] at hscan
  exact ⟨n, by omega, hn, hscan, hend.imp_right And.right, fun m hm => hbefore m (by omega)⟩

/-! ### The code of a pixel (R188, R192, R197) -/

/-- Samples that are all set let every window of the scan pass, so each step adds both of its weights. -/
theorem valAfter_of_set (t : RomSet) {len n : Nat} {p0 p1 : List Nat} (hn : n ≤ len)
    (h0 : ∀ k < 2 * len - 5, p0.getD k 0 ≠ 0) (h1 : ∀ k < 2 * len - 5, p1.getD k 0 ≠ 0) :
    valAfter t len p0 p1 n = allSetVal t len n := by
  refine List.foldl_ext _ _ _ fun v i hi => ?_
  rw [List.mem_range] at hi
  rw [if_pos fun k hk => h0 _ (by omega), if_pos fun k hk => h1 _ (by omega), BitVec.or_assoc]

theorem centreClear_iff (cur : List Nat) :
    centreClear cur = true ↔ cur.getD (cur.length / 2 - 1) 0 = 0 ∧ cur.getD (cur.length / 2) 0 = 0 ∧
      cur.getD (cur.length / 2 + 1) 0 = 0 := by
  simp [centreClear, and_assoc]

theorem getElem?_tmmlut16 (t : RomSet) (order field : Bool) (cls : BitVec 2) :
    ∃ code, t.tmmlut16[order.toNat * 8 + field.toNat * 4 + cls.toNat]? = some code ∧
      tableCode t order field cls = code.toNat := by
  rw [tableCode, Vector.getElem?_eq_getElem (tableIndex_lt order field cls)]
  exact ⟨_, rfl, rfl⟩

/-- Settles O33: no window meets a zero, so val is the OR of all weights of the steps made. -/
theorem staticSequenceCode : Obligations.StaticSequenceCode := by
  intro t len order field cfirst cur above below hmin hmax hcur hrows hfit hcount hset
  simp only [List.mem_append, or_imp, forall_and] at hset
  obtain ⟨⟨hcurSet, haboveSet⟩, hbelowSet⟩ := hset
  have hval : ∀ n ≤ len, valAfter t len (phaseArray cfirst cur above) (phaseArray cfirst cur below) n =
      allSetVal t len n := fun n hn => valAfter_of_set t hn
    (fun k hk => getD_phaseArray_ne_zero hfit hcurSet haboveSet (by omega))
    (fun k hk => getD_phaseArray_ne_zero (hrows ▸ hfit) hcurSet hbelowSet (by omega))
  have hslow : ¬ centreClear cur = true := by
    rw [centreClear_iff]
    rintro ⟨_, hcentre, _⟩
    exact getD_ne_zero_of_forall hcurSet (by omega) hcentre
  obtain ⟨n, hpos, hn, hscan, hend, hbefore⟩ := scanStopsAtFirstDefinite t len
    (phaseArray cfirst cur above) (phaseArray cfirst cur below) hmin hmax
  rw [hval n hn] at hscan hend
  obtain ⟨code, hentry, hcode⟩ := getElem?_tmmlut16 t order field (vlutEntry t (allSetVal t len n))
  refine ⟨n, code, hpos, hn, hentry, ?_, hend, fun m hm hmn => ?_⟩
  · rw [pixelCode, if_neg hslow, hscan, coarse_eq_vlutEntry, hcode]
  · rw [← hval m (by omega)]
    exact hbefore m hm hmn

/-! ### The codes a legal TBUILD writes (R188, R192, R194) -/

/-- A sample a commit does not write is kept (R92). -/
theorem sampleAt_commitPlane_of_none {s : State} {dst : Nat} {f : Nat → Nat → Option Nat} {y x : Nat}
    (ht : s.hostTouched = false)
    (hs : s.latch.w dst * s.latch.fmt.bps ≤ (s.latch.desc dst).stride.toNat)
    (hx : x < s.latch.w dst) (hf : f y x = none) :
    (commitPlane dst f s).sampleAt dst y x = s.sampleAt dst y x := by
  rw [State.sampleAt, commitPlane_mem ht, commitPlane_latch]
  refine sample_congr fun _ k hk => Memory.read_writeAll_other fun hmem => ?_
  obtain ⟨y', -, x', hx', hwritten, k', hk', haddr⟩ := mem_planeCells_addr.1 hmem
  obtain ⟨rfl, rfl, -⟩ := Desc.addr_inj hs hx hx' hk hk' haddr
  simp [hf] at hwritten

/-- Entry j of a mask sequence is slot `first` + j (R189). -/
theorem maskSamples_eq_map_range (s : State) (first n y x : Nat) :
    maskSamples s first n y x = (List.range n).map fun j => s.sampleAt (first + j) y x := by
  rw [maskSamples, List.range'_eq_map_range, List.map_map]
  rfl

/-- The fast path on the samples of at least three current slots. -/
theorem centreClear_map_range {n : Nat} (cur : Nat → Nat) (hn : 3 ≤ n) :
    centreClear ((List.range n).map cur) = true ↔
      cur (n / 2 - 1) = 0 ∧ cur (n / 2) = 0 ∧ cur (n / 2 + 1) = 0 := by
  have hentry : ∀ j < n, ((List.range n).map cur).getD j 0 = cur j := fun j hj => by simp [hj]
  rw [centreClear_iff, List.length_map, List.length_range, hentry _ (by omega), hentry _ (by omega),
    hentry _ (by omega)]

/-- The code of a classified pixel is a byte, so it fits every container (R195). -/
theorem pixelCode_lt (f : Fmt) (t : RomSet) (len : Nat) (order field cfirst : Bool)
    (cur above below : List Nat) : pixelCode t len order field cfirst cur above below < 256 ^ f.bps := by
  rw [pixelCode]
  split
  · exact byte_lt_container f 60
  · exact byte_lt_container f _

/-- Every sample TBUILD names is a code, 60 or 10, so it fits every container (R195). -/
theorem tbuildSample_lt {s : State} {dst cbase ccnt obase ocnt y x v : Nat}
    {order field rowpar cfirst wother : Bool} (f : Fmt)
    (h : tbuildSample s dst cbase ccnt obase ocnt order field rowpar cfirst wother y x = some v) :
    v < 256 ^ f.bps := by
  simp only [tbuildSample] at h
  split at h
  · exact Option.some.inj h ▸ pixelCode_lt f ..
  · cases wother with
    | true => exact Option.some.inj h ▸ byte_lt_container f 10
    | false => cases h

/-- A legal TBUILD no host write disturbed completes, writes the samples it names and keeps the others of DST. -/
theorem exec_tbuild_of_legal {dst cbase ccnt obase ocnt : Nat} {order field rowpar cfirst wother : Bool}
    {s : State} (h : CommandLegal (.tbuild dst cbase ccnt obase ocnt order field rowpar cfirst wother) s)
    (hu : undisturbed s) :
    ∃ t, exec (.tbuild dst cbase ccnt obase ocnt order field rowpar cfirst wother) s = .next t ∧
      finished s t ∧ ∀ y < s.latch.h dst, ∀ x < s.latch.w dst,
        t.sampleAt dst y x =
          (tbuildSample s dst cbase ccnt obase ocnt order field rowpar cfirst wother y x).getD
            (s.sampleAt dst y x) := by
  obtain ⟨ht, hm⟩ := hu
  obtain ⟨t, hexec, hdone, hwritten⟩ := exec_plane_of_legal h ht hm rfl rfl
  refine ⟨t, hexec, hdone, fun y hy x hx => ?_⟩
  cases hsample : tbuildSample s dst cbase ccnt obase ocnt order field rowpar cfirst wother y x with
  | some v => exact hwritten y hy x hx v hsample (tbuildSample_lt s.latch.fmt hsample)
  | none =>
    obtain ⟨_, hstride, _⟩ := h.dest rfl
    obtain rfl := Host.Outcome.next.inj ((exec_of_legal h).symm.trans hexec)
    rw [sampleAt_succeedCommand, effectOf_eq_commitPlane s rfl]
    exact sampleAt_commitPlane_of_none ht hstride hx hsample

/-- Settles O30: the samples a legal TBUILD names, in the words of the rules. -/
theorem tbuildWritesCodes : Obligations.TbuildWritesCodes := by
  intro dst cbase ccnt obase ocnt order field rowpar cfirst wother s h hu
  obtain ⟨_, _, _, hmtype, hccnt, _⟩ := h.config
  obtain ⟨t, hexec, hdone, hsamples⟩ := exec_tbuild_of_legal h hu
  have hm : s.latch.mtype.toNat < 3 := by bv_omega
  refine ⟨_, t, romSet_getElem? s.rom hm, hexec, hdone, fun y hy x hx => ?_⟩
  intro cur current opp above below val k
  rw [hsamples y hy x hx, tbuildSample]
  by_cases hrow : y % 2 = rowpar.toNat
  · rw [if_pos hrow, if_pos hrow, Option.getD_some]
    simp only [maskSamples_eq_map_range, pixelCode, centreClear_map_range _ hccnt]
    rfl
  · rw [if_neg hrow, if_neg hrow]
    cases wother <;> rfl

end Sys2Proof.Machine
end

section
/-! ISCOMBED: the combing test and the luma bitmap, the block histogram and its largest cell, and the score a legal
command leaves (44_combing_scorer.md R212 to R222). -/

open Sys2Proof.Machine.Claim

namespace Sys2Proof.Machine

/-! ### The combing test (R212 to R214) -/

/-- Settles O38: the row at offset 0 is the pixel's own, and each metric is its test over the rows of R212. -/
theorem combedMetrics : Obligations.CombedMetrics := by
  intro s slot y x row c p n pp nn t hy
  refine ⟨fun hm => ?_, fun hm => ?_⟩
  · simp only [slotCombed, combedAt, rrow_zero hy, hm, Bool.false_eq_true, if_false, combed0, decide_eq_true_eq,
      Int.natCast_natAbs]
    rfl
  · simp only [slotCombed, combedAt, rrow_zero hy, hm, if_true, combed1, decide_eq_true_eq]
    rfl

theorem combedBitmap_bit_iff {s : State} {slot y x : Nat} (hy : y < s.latch.h slot) (hx : x < s.latch.w slot) :
    (combedBitmap s slot).bit y x = true ↔ slotCombed s slot y x := by
  rw [combedBitmap, bit_bitmapOf, decide_eq_true (And.intro hy hx), Bool.true_and]

/-! ### Propagation from the chroma planes (R215, R216) -/

/-- The shapes of R215. -/
theorem CommandLegal.iscombed_chroma_planes {ys us vs : Nat} {s : State}
    (h : CommandLegal (.iscombed ys us vs) s) (hc : s.latch.icfg.chroma = true) :
    s.latch.isSize us (s.latch.w ys >>> s.latch.fmt.ssw.toNat) (s.latch.h ys >>> s.latch.fmt.ssh.toNat) ∧
      s.latch.isSize vs (s.latch.w ys >>> s.latch.fmt.ssw.toNat) (s.latch.h ys >>> s.latch.fmt.ssh.toNat) := by
  obtain ⟨_, hus, hvs, _⟩ := by
    simpa only [shapesOf, hc, if_true, List.forall_mem_cons, decide_eq_true_eq] using h.shapes
  exact ⟨hus, hvs⟩

/-- The eight bits `chromaHit` lists are those one row and one column around the interior position. -/
theorem chromaHit_iff {b : Bitmap} {y x : Nat} (hy : 1 ≤ y) (hx : 1 ≤ x) :
    chromaHit b y x = true ↔ b.bit y x = true ∧
      ∃ y' x', y - 1 ≤ y' ∧ y' ≤ y + 1 ∧ x - 1 ≤ x' ∧ x' ≤ x + 1 ∧ ¬ (y' = y ∧ x' = x) ∧
        b.bit y' x' = true := by
  simp only [chromaHit, Bool.and_eq_true, List.any_cons, List.any_nil, Bool.or_eq_true, id_eq, Bool.false_eq_true,
    or_false]
  refine and_congr_right fun _ => ⟨?_, ?_⟩
  · rintro (hb | hb | hb | hb | hb | hb | hb | hb) <;>
      exact ⟨_, _, by omega, by omega, by omega, by omega, by omega, hb⟩
  · rintro ⟨y', x', hy0, hy1, hx0, hx1, hne, hb⟩
    obtain rfl | rfl | rfl : y' = y - 1 ∨ y' = y ∨ y' = y + 1 := by omega
    all_goals
      obtain rfl | rfl | rfl : x' = x - 1 ∨ x' = x ∨ x' = x + 1 := by omega
      all_goals simp_all

/-- At an interior position the bits read are those of pixels of the plane. -/
theorem chromaHit_combedBitmap_iff {s : State} {slot y x : Nat} (hy : 1 ≤ y) (hyh : y + 2 ≤ s.latch.h slot)
    (hx : 1 ≤ x) (hxw : x + 2 ≤ s.latch.w slot) :
    chromaHit (combedBitmap s slot) y x = true ↔ slotChromaHit s slot y x := by
  have hbit : ∀ y' ≤ y + 1, ∀ x' ≤ x + 1,
      ((combedBitmap s slot).bit y' x' = true ↔ slotCombed s slot y' x') :=
    fun y' hy' x' hx' => combedBitmap_bit_iff (by omega) (by omega)
  rw [chromaHit_iff hy hx, slotChromaHit, hbit y (by omega) x (by omega)]
  refine and_congr_right fun _ => exists_congr fun y' => exists_congr fun x' => ?_
  exact and_congr_right fun _ => and_congr_right fun hy' => and_congr_right fun _ => and_congr_right fun hx' =>
    and_congr_right fun _ => hbit y' hy' x' hx'

/-- The chroma position from which R216 sets bits of B: interior, and a hit of U or of V. -/
def chromaPropagates (s : State) (us vs cy cx : Nat) : Prop :=
  1 ≤ cy ∧ cy + 2 ≤ s.latch.h us ∧ 1 ≤ cx ∧ cx + 2 ≤ s.latch.w us ∧
    (slotChromaHit s us cy cx ∨ slotChromaHit s vs cy cx)

theorem propagates_iff {s : State} {us vs cy cx w h : Nat} (hu : s.latch.isSize us w h) (hv : s.latch.isSize vs w h) :
    propagates (combedBitmap s us) (combedBitmap s vs) w h cy cx = true ↔ chromaPropagates s us vs cy cx := by
  obtain ⟨rfl, rfl⟩ := hu
  obtain ⟨hvw, hvh⟩ := hv
  simp only [propagates, chromaPropagates, Bool.and_eq_true, decide_eq_true_eq, Bool.or_eq_true, and_assoc]
  refine and_congr_right fun hy => and_congr_right fun hyh => and_congr_right fun hx => and_congr_right fun hxw => ?_
  rw [chromaHit_combedBitmap_iff hy hyh hx hxw, chromaHit_combedBitmap_iff hy (by omega) hx (by omega)]

/-- A bit of B is set by its own pixel or by the chroma position its block belongs to. -/
theorem CommandLegal.lumaBitmap_bit_iff {ys us vs y x : Nat} {s : State} (h : CommandLegal (.iscombed ys us vs) s)
    (hy : y < s.latch.h ys) (hx : x < s.latch.w ys) :
    (lumaBitmap s ys us vs).bit y x = true ↔ slotCombed s ys y x ∨
      s.latch.icfg.chroma = true ∧
        chromaPropagates s us vs (y >>> s.latch.fmt.ssh.toNat) (x >>> s.latch.fmt.ssw.toNat) := by
  cases hc : s.latch.icfg.chroma with
  | false =>
    simp only [lumaBitmap, hc, Bool.false_eq_true, if_false, combedBitmap_bit_iff hy hx, false_and, or_false]
  | true =>
    obtain ⟨hus, hvs⟩ := h.iscombed_chroma_planes hc
    simp only [lumaBitmap, hc, if_true, bit_bitmapOf, hy, hx, and_self, decide_true, Bool.true_and, true_and,
      Bool.or_eq_true, combedBitmap_bit_iff hy hx, propagates_iff hus hvs]

/-- A position shifted right is the number of the block of 2^n positions it lies in. -/
theorem shiftRight_eq_iff_exists_offset {y q n : Nat} : y >>> n = q ↔ ∃ i < 2 ^ n, y = q * 2 ^ n + i := by
  rw [Nat.shiftRight_eq_div_pow]
  constructor
  · rintro rfl
    exact ⟨y % 2 ^ n, Nat.mod_lt _ (Nat.two_pow_pos n), (Nat.div_add_mod' y (2 ^ n)).symm⟩
  · rintro ⟨i, hi, rfl⟩
    rw [Nat.mul_comm, Nat.mul_add_div (Nat.two_pow_pos n), Nat.div_eq_of_lt hi, Nat.add_zero]

/-- Settles O37: the one chroma position whose block holds the pixel is the pixel's, shifted right. -/
theorem lumaBitmapPropagation : Obligations.LumaBitmapPropagation := by
  intro ys us vs s h y hy x hx
  rw [h.lumaBitmap_bit_iff hy hx]
  refine or_congr_right (and_congr_right fun _ => ⟨?_, ?_⟩)
  · rintro ⟨hcy, hcyh, hcx, hcxw, hhit⟩
    obtain ⟨i, hi, hyi⟩ := shiftRight_eq_iff_exists_offset.1 (Eq.refl (y >>> s.latch.fmt.ssh.toNat))
    obtain ⟨j, hj, hxj⟩ := shiftRight_eq_iff_exists_offset.1 (Eq.refl (x >>> s.latch.fmt.ssw.toNat))
    exact ⟨_, _, hcy, hcyh, hcx, hcxw, hhit, i, hi, j, hj, hyi, hxj⟩
  · rintro ⟨cy, cx, hcy, hcyh, hcx, hcxw, hhit, i, hi, j, hj, hyi, hxj⟩
    rw [shiftRight_eq_iff_exists_offset.2 ⟨i, hi, hyi⟩, shiftRight_eq_iff_exists_offset.2 ⟨j, hj, hxj⟩]
    exact ⟨hcy, hcyh, hcx, hcxw, hhit⟩

/-! ### The cells of the four grids (R217, R218) -/

theorem isHit_iff {b : Bitmap} {h y x : Nat} : isHit b h y x = true ↔ pixelHit b h y x := by
  simp only [isHit, Bool.and_eq_true, decide_eq_true_eq, and_assoc]
  exact and_congr_right fun hy => and_congr_left fun _ => by omega

/-- The counter of a cell of grid 0 to 3 is the number of its hits. -/
theorem count_histOf_hits {b : Bitmap} {w h bxl byl k r c : Nat} (hk : k < 4) :
    Hist.count (histOf bxl byl (hits b w h)) ⟨k, r, c⟩ = cellHits b w h bxl byl k r c := by
  rw [count_histOf, hits_eq, List.countP_filter]
  refine List.countP_congr fun p _ => ?_
  simp only [hk, true_and, Bool.and_eq_true, decide_eq_true_eq, isHit_iff]
  exact and_comm

/-- There is no grid but 0 to 3. -/
theorem count_histOf_of_grid_ge {bxl byl : Nat} {hs : List (Nat × Nat)} {key : CellKey} (hk : ¬ key.grid < 4) :
    Hist.count (histOf bxl byl hs) key = 0 := by
  rw [count_histOf, List.countP_eq_zero]
  simp only [hk, false_and, decide_false, Bool.false_eq_true, not_false_eq_true, implies_true]

/-- The positions a grid shifted by o puts in block q of 2^n are 2^n in a row. -/
theorem mem_range'_of_shiftRight_eq {y o n q : Nat} (h : (y + o) >>> n = q) :
    y ∈ List.range' (q * 2 ^ n - o) (2 ^ n) := by
  obtain ⟨i, hi, hyi⟩ := shiftRight_eq_iff_exists_offset.1 h
  rw [List.mem_range'_1]
  omega

/-- The hits of a cell are distinct pixels of its block. -/
theorem cellHits_le_block (b : Bitmap) (w h bxl byl k r c : Nat) :
    cellHits b w h bxl byl k r c ≤ 2 ^ bxl * 2 ^ byl := by
  simp only [cellHits]
  generalize (if k = 1 ∨ k = 3 then 2 ^ bxl / 2 else 0) = ox
  generalize (if k = 2 ∨ k = 3 then 2 ^ byl / 2 else 0) = oy
  have hnodup : (List.range h ×ˢ List.range w).Nodup := List.nodup_range.product List.nodup_range
  rw [List.countP_eq_length_filter]
  calc _ ≤ (List.range' (r * 2 ^ byl - oy) (2 ^ byl) ×ˢ List.range' (c * 2 ^ bxl - ox) (2 ^ bxl)).length := by
        refine ((hnodup.filter _).subperm fun p hp => ?_).length_le
        obtain ⟨_, hrow, hcol⟩ := of_decide_eq_true (List.mem_filter.1 hp).2
        exact List.mem_product.2 ⟨mem_range'_of_shiftRight_eq hrow, mem_range'_of_shiftRight_eq hcol⟩
    _ = 2 ^ bxl * 2 ^ byl := by rw [List.length_product, List.length_range', List.length_range', Nat.mul_comm]

/-! ### The score (R219) -/

theorem iscombedScore_eq (s : State) (ys us vs : Nat) :
    iscombedScore s ys us vs = Hist.score (histOf s.latch.icfg.bxlog2.toNat s.latch.icfg.bylog2.toNat
      (hits (lumaBitmap s ys us vs) (s.latch.w ys) (s.latch.h ys))) := rfl

/-- The score of a histogram is 0 or the number of hits of a cell. -/
theorem score_histOf_attained (b : Bitmap) (w h bxl byl : Nat) :
    (histOf bxl byl (hits b w h)).score = 0 ∨
      ∃ k < 4, ∃ r c, cellHits b w h bxl byl k r c = (histOf bxl byl (hits b w h)).score := by
  obtain hzero | ⟨⟨k, r, c⟩, hkey⟩ := Hist.score_attained (histOf_wf bxl byl (hits b w h))
  · exact .inl hzero
  · by_cases hk : k < 4
    · exact .inr ⟨k, hk, r, c, by rw [← count_histOf_hits hk, hkey]⟩
    · exact .inl (by rw [← hkey, count_histOf_of_grid_ge hk])

theorem iscombedScore_le_block (s : State) (ys us vs : Nat) :
    iscombedScore s ys us vs ≤ 2 ^ s.latch.icfg.bxlog2.toNat * 2 ^ s.latch.icfg.bylog2.toNat := by
  rw [iscombedScore_eq]
  obtain hzero | ⟨k, _, r, c, hcell⟩ := score_histOf_attained (lumaBitmap s ys us vs) (s.latch.w ys) (s.latch.h ys)
    s.latch.icfg.bxlog2.toNat s.latch.icfg.bylog2.toNat
  · rw [hzero]
    exact Nat.zero_le _
  · rw [← hcell]
    exact cellHits_le_block ..

/-- The legal block sizes of R48 keep the score in SCORE's 32 bits. -/
theorem CommandLegal.iscombedScore_lt {ys us vs : Nat} {s : State} (h : CommandLegal (.iscombed ys us vs) s) :
    iscombedScore s ys us vs < 2 ^ 32 := by
  obtain ⟨_, _, hbx, _, hby⟩ := h.config
  calc iscombedScore s ys us vs
      ≤ 2 ^ s.latch.icfg.bxlog2.toNat * 2 ^ s.latch.icfg.bylog2.toNat := iscombedScore_le_block s ys us vs
    _ ≤ 2 ^ 11 * 2 ^ 11 :=
        Nat.mul_le_mul (Nat.pow_le_pow_right (by decide) hbx) (Nat.pow_le_pow_right (by decide) hby)
    _ < 2 ^ 32 := by decide

/-- A legal ISCOMBED no host write disturbed completes with SCORE and RESULT written. -/
theorem exec_iscombed_of_legal {ys us vs : Nat} {s : State} (h : CommandLegal (.iscombed ys us vs) s)
    (ht : s.hostTouched = false) :
    ∃ t, exec (.iscombed ys us vs) s = .next t ∧ finished s t ∧
      t.result.score.toNat = iscombedScore s ys us vs ∧
      t.result.combed = combedFlag t.result.score s.latch.mi := by
  have hresult : (succeedCommand (effectOf (.iscombed ys us vs) s)).result =
      { score := BitVec.ofNat 32 (iscombedScore s ys us vs)
        combed := combedFlag (BitVec.ofNat 32 (iscombedScore s ys us vs)) s.latch.mi } := scoreFrame_result ht
  refine ⟨_, exec_of_legal h, ?_, ?_, ?_⟩
  · rw [finished, succeedCommand_status, status_effectOf]
    rfl
  · rw [hresult]
    exact (BitVec.toNat_ofNat ..).trans (Nat.mod_eq_of_lt h.iscombedScore_lt)
  · rw [hresult]

/-- Settles O35: the score is 0 or the hits of one cell, which are pixels of one block. -/
theorem scoreAtMostBlock : Obligations.ScoreAtMostBlock := by
  intro ys us vs s t h ht hexec
  obtain ⟨u, hu, _, hscore, _⟩ := exec_iscombed_of_legal h ht
  obtain rfl : t = u := by
    rw [hexec] at hu
    injection hu
  rw [hscore]
  exact iscombedScore_le_block s ys us vs

/-- Settles O34: the counters of the histogram are the hits of the cells, and the score is their maximum. -/
theorem iscombedScoresLargestCell : Obligations.IscombedScoresLargestCell := by
  intro ys us vs s h ht b count
  obtain ⟨t, hexec, hdone, hscore, hcombed⟩ := exec_iscombed_of_legal h ht
  refine ⟨t, hexec, hdone, fun k hk r c => ?_, ?_, ?_⟩
  · rw [hscore, show count k r c = _ from (count_histOf_hits hk).symm]
    exact Hist.count_le_score _ _
  · rw [← BitVec.toNat_inj, hscore, iscombedScore_eq]
    exact score_histOf_attained ..
  · rw [hcombed, combedFlag, decide_eq_true_eq]

/-! ### Progressive frames (R222) -/

/-- A row inside the plane is read where it stands (R89). -/
theorem rrow_of_inside {y h : Nat} {d : Int} (h0 : 0 ≤ y + d) (hh : y + d < h) : rrow y d h = (y + d).toNat :=
  if_pos ⟨h0, hh⟩

/-- A pixel of an interior row of a monotone column lies between the pixels above and below. -/
theorem sampleAt_between_of_columnMonotone {s : State} {slot y x : Nat} (hmono : columnMonotone s slot x)
    (hy : 1 ≤ y) (hyh : y + 2 ≤ s.latch.h slot) :
    s.sampleAt slot (y - 1) x ≤ s.sampleAt slot y x ∧ s.sampleAt slot y x ≤ s.sampleAt slot (y + 1) x ∨
      s.sampleAt slot y x ≤ s.sampleAt slot (y - 1) x ∧ s.sampleAt slot (y + 1) x ≤ s.sampleAt slot y x := by
  obtain ⟨y, rfl⟩ := Nat.exists_eq_add_of_le' hy
  exact hmono.imp (fun hup => ⟨hup y (by omega), hup (y + 1) (by omega)⟩)
    (fun hdown => ⟨hdown y (by omega), hdown (y + 1) (by omega)⟩)

/-- The differences to both neighbours of such a pixel have opposite signs or one is 0, so no metric calls it
combed. -/
theorem not_slotCombed_of_columnMonotone {s : State} {slot y x : Nat} (ht : 0 ≤ s.latch.cthresh.toInt)
    (hmono : columnMonotone s slot x) (hy : 1 ≤ y) (hyh : y + 2 ≤ s.latch.h slot) : ¬ slotCombed s slot y x := by
  have habove : rrow y (-1) (s.latch.h slot) = y - 1 := by
    rw [rrow_of_inside (by omega) (by omega)]
    omega
  have hbelow : rrow y 1 (s.latch.h slot) = y + 1 := by
    rw [rrow_of_inside (by omega) (by omega)]
    omega
  have hbetween := sampleAt_between_of_columnMonotone hmono hy hyh
  obtain ⟨hmetric0, hmetric1⟩ := combedMetrics s slot y x (by omega)
  cases hm : s.latch.icfg.metric with
  | false =>
    simp only [hmetric0 hm, habove, hbelow]
    rintro ⟨hsign, _⟩
    omega
  | true =>
    simp only [hmetric1 hm, habove, hbelow, gt_iff_lt, Int.not_lt]
    calc _ ≤ (0 : Int) := by
          obtain ⟨hp, hn⟩ | ⟨hp, hn⟩ := hbetween
          · exact Int.mul_nonpos_of_nonneg_of_nonpos (by omega) (by omega)
          · exact Int.mul_nonpos_of_nonpos_of_nonneg (by omega) (by omega)
      _ ≤ _ := Int.mul_nonneg ht ht

/-- Without a set bit in the rows 1 to H - 2 there is no hit. -/
theorem hits_eq_nil {b : Bitmap} {w h : Nat}
    (hb : ∀ y x, 1 ≤ y → y + 2 ≤ h → x < w → ¬ b.bit y x = true) : hits b w h = [] := by
  simp only [hits, List.flatMap_eq_nil_iff, List.map_eq_nil_iff, List.filter_eq_nil_iff, List.mem_range]
  intro y hyh x hx hhit
  obtain ⟨hy, hyh', _, hbit, _⟩ := isHit_iff.1 hhit
  exact hb y x hy (by omega) hx hbit

/-- Settles O36: no pixel of an interior row of a monotone plane is combed, so neither luma nor a chroma position sets
the middle bit of a hit. -/
theorem progressiveFrameScoresZero : Obligations.ProgressiveFrameScoresZero := by
  intro ys us vs s h ht hthresh hmono
  obtain ⟨t, hexec, hdone, hscore, _⟩ := exec_iscombed_of_legal h ht
  have hplane : ∀ slot ∈ sourceSlots s.latch (.iscombed ys us vs), ∀ y x, 1 ≤ y → y + 2 ≤ s.latch.h slot →
      x < s.latch.w slot → ¬ slotCombed s slot y x := fun slot hslot y x hy hyh hx =>
    not_slotCombed_of_columnMonotone hthresh (hmono slot hslot x hx) hy hyh
  have hbit : ∀ y x, 1 ≤ y → y + 2 ≤ s.latch.h ys → x < s.latch.w ys →
      ¬ (lumaBitmap s ys us vs).bit y x = true := by
    intro y x hy hyh hx hb
    obtain hluma | ⟨hc, hcy, hcyh, hcx, hcxw, hhit⟩ := (h.lumaBitmap_bit_iff (by omega) hx).1 hb
    · exact hplane ys (by simp only [sourceSlots]; split <;> simp) y x hy hyh hx hluma
    · obtain ⟨⟨huw, huh⟩, hvw, hvh⟩ := h.iscombed_chroma_planes hc
      obtain ⟨hcombed, _⟩ | ⟨hcombed, _⟩ := hhit
      · exact hplane us (by simp [sourceSlots, hc]) _ _ hcy hcyh (by omega) hcombed
      · exact hplane vs (by simp [sourceSlots, hc]) _ _ hcy (by omega) (by omega) hcombed
  refine ⟨t, hexec, hdone, ?_⟩
  rw [← BitVec.toNat_inj, hscore, iscombedScore_eq, hits_eq_nil hbit]
  rfl

end Sys2Proof.Machine
end

section
/-! The failures of the operand and shape checks in the order of step 7, the state a failed command leaves, and the
interrupt output (60_exceptions.md R244, R246 to R250, R252). -/

open Sys2Proof.Machine.Claim

namespace Sys2Proof.Machine

/-! ### The first failing operand and the first failing shape -/

/-- Of one check made on each item of a list in turn, the first item that fails decides (R246). -/
theorem firstFailure_map_of_first {α : Type} {check : α → Option Failure} {pre post : List α} {x : α} {f : Failure}
    (hpre : ∀ p ∈ pre, check p = none) (hx : check x = some f) :
    firstFailure ((pre ++ x :: post).map check) = some f := by
  rw [List.map_append, List.map_cons, hx]
  exact firstFailure_append_some (List.forall_mem_map.2 hpre)

/-- The first operand that fails its descriptor check is the first failure of step 7 (R247, R249). -/
theorem firstFailure_operandFailures {p : Params} {l : CmdRegs} {i : Instr} {pre post : List Operand} {o : Operand}
    (hops : operandsOf l i = pre ++ o :: post) (hpre : ∀ q ∈ pre, operandOk p l (destSlot i) q)
    (ho : ¬ operandOk p l (destSlot i) o) :
    firstFailure (operandFailures p l i) = some ⟨.eDesc, BitVec.ofNat 32 o.slot⟩ := by
  rw [operandFailures, hops]
  exact firstFailure_map_of_first (fun q hq => descFailure_eq_none.2 (hpre q hq)) (descFailure_of_not ho)

/-- The first shape that disagrees is the first failure of step 8 (R250). -/
theorem firstFailure_shapeFailures {l : CmdRegs} {i : Instr} {pre post : List (Nat × Bool)} {slot : Nat}
    (hshapes : shapesOf l i = pre ++ (slot, false) :: post) (hpre : ∀ q ∈ pre, q.2 = true) :
    firstFailure (shapeFailures l i) = some ⟨.eShape, BitVec.ofNat 32 slot⟩ := by
  rw [shapeFailures, hshapes]
  exact firstFailure_map_of_first (fun q hq => failIf_of_not (by simp [hpre q hq])) (failIf_of rfl)

/-- Settles O13: steps 3 to 6 pass, and the operands before o pass step 7. -/
theorem descriptorFailureNamesFirstSlot : Obligations.DescriptorFailureNamesFirstSlot := by
  intro i s pre post o hconfig hops hpre ho
  refine exec_fails ?_
  rw [checkOf_eq, firstFailure_append (configFailures_eq_none.2 hconfig)]
  exact firstFailure_append_left (firstFailure_operandFailures hops hpre ho)

/-- Settles O14: steps 3 to 7 pass, and the shapes before the slot's pass step 8. -/
theorem shapeFailureNamesFirstSlot : Obligations.ShapeFailureNamesFirstSlot := by
  intro i s pre post slot hconfig hops hshapes hpre
  refine exec_fails ?_
  rw [checkOf_eq, firstFailure_append (configFailures_eq_none.2 hconfig),
    firstFailure_append (operandFailures_eq_none.2 hops)]
  exact firstFailure_append_left (firstFailure_shapeFailures hshapes hpre)

/-! ### After a failure -/

/-- Settles O16: a command that ends without DONE did not succeed, and a failure writes STATUS and ERRINFO only. -/
theorem failureChangesOnlyStatus : Obligations.FailureChangesOnlyStatus := by
  intro i s t _ hexec hdone
  obtain ⟨f, -, rfl⟩ | ⟨-, rfl⟩ := exec_cases hexec
  · exact ⟨f.code, f.info, rfl⟩
  · rw [succeedCommand_status, Status.succeeded_done] at hdone
    cases hdone

/-! ### The interrupt output -/

/-- Settles O44: IRQ is the OR of two ANDs. -/
theorem interruptLevel : Obligations.InterruptLevel := by
  intro s
  rw [State.irq, Bool.or_eq_true, Bool.and_eq_true, Bool.and_eq_true]

end Sys2Proof.Machine
end

section
/-! Reset, and the host's accesses to the data memory beside a running command (70_reset_and_hazards.md R270 to R278,
20_memory.md R96). -/

open Sys2Proof.Machine.Claim

namespace Sys2Proof.Machine

/-! ### The registers after a reset (R270) -/

/-- Above CAP1 every register resets to 0, and so reads an offset not listed. -/
theorem resetWord_of_gt {p : Params} {o : Nat} (h : 0x060 < o) : resetWord p o = 0 := by
  unfold resetWord
  split_ifs <;> first | rfl | omega

theorem cap0Word_of_legal {p : Params} (h : p.legal) : cap0Word p = resetWord p 0x05C := by
  obtain ⟨-, -, -, hslots, -⟩ := h
  have hlmax : p.lmax % 256 = p.lmax := Nat.mod_eq_of_lt (by simp only [nslots] at hslots; omega)
  simp only [cap0Word, hlmax, Nat.add_comm p.lmax]
  rfl

theorem cap1Word_of_legal {p : Params} (h : p.legal) : cap1Word p = resetWord p 0x060 := by
  obtain ⟨-, -, -, -, hw, hh⟩ := h
  have hwmax : p.wmax % 65536 = p.wmax := Nat.mod_eq_of_lt (by omega)
  have hhmax : p.hmax % 65536 = p.hmax := Nat.mod_eq_of_lt (by omega)
  simp only [cap1Word, hwmax, hhmax, Nat.add_comm p.wmax, Nat.mul_comm 65536]
  rfl

theorem CmdRegs.descs_reset (n : Fin 64) : CmdRegs.reset.descs[n] = Desc.reset :=
  Vector.getElem_replicate n.isLt

theorem resetBlock_desc (s : State) (n : Fin 64) : (resetBlock s).regs.descs[n] = Desc.reset :=
  CmdRegs.descs_reset n

/-- The reset values of the registers of several fields (R270). -/
theorem words_reset : State.reset.ctrl.word = 0 ∧ State.reset.status.word = 0 ∧
    State.reset.regs.fmt.word = 0x00000008 ∧ State.reset.regs.icfg.word = 0x00004400 := by decide

/-- A reset leaves each register of the map at its reset value. -/
theorem readReg_resetBlock {s : State} (hp : s.params.legal) (r : Reg) :
    readReg (resetBlock s) r = resetWord s.params r.offset := by
  obtain ⟨hctrl, hstatus, hfmt, hicfg⟩ := words_reset
  cases r with
  | ctrl => exact hctrl
  | status => exact hstatus
  | fmt => exact hfmt
  | icfg => exact hicfg
  | cap0 => exact cap0Word_of_legal hp
  | cap1 => exact cap1Word_of_legal hp
  | dBase n | dStride n | dDim n | dFlags n =>
    rw [resetWord_of_gt (by simp only [Reg.offset]; omega), readReg, resetBlock_desc]
    rfl
  | _ => rfl

theorem readOffset_resetBlock {s : State} {o : Nat} (hp : s.params.legal) (ho : o % 4 = 0) (hlt : o < 4096) :
    readOffset (resetBlock s) o = resetWord s.params o := by
  cases hr : regAt o with
  | some r => rw [readOffset_of_regAt hr, readReg_resetBlock hp, offset_of_regAt hr]
  | none =>
    have hgt : 0x060 < o := by
      by_contra hle
      rcases regAt_cases o ho hlt with ⟨-, h⟩ | ⟨h, -⟩ | ⟨h, -⟩
      · exact h hr
      · omega
      · omega
    rw [readOffset_of_unlisted hr, resetWord_of_gt hgt]

/-- The state after reset is the one a reset leaves as it is. -/
theorem resetBlock_reset : resetBlock State.reset = State.reset := rfl

theorem params_reset_legal : State.reset.params.legal := by decide

/-- Settles O45: `State.reset` is what a reset makes of it. -/
theorem resetRegisterValues : Obligations.ResetRegisterValues := by
  intro offset ho
  have h := readOffset_resetBlock params_reset_legal ho offset.isLt
  rwa [resetBlock_reset] at h

/-- Settles O49: after reset the block is idle, no failure is shown and the memory lists nothing. -/
theorem resetIsSound : Obligations.ResetIsSound where
  params := params_reset_legal
  memWf := Memory.wf_nil
  memBound := nofun
  latched := nofun
  busyClean := nofun
  doneClean := nofun
  errCoded := nofun
  infoZero _ := rfl
  touchedBusy := nofun

/-! ### The destination extent of the running command (R96, R272) -/

/-- The model's destination test says that the running command's destination covers the address. -/
theorem inDest_iff {s : State} {a : Nat} :
    s.inDest a = true ↔ ∃ i dst, s.status.busy = true ∧ decode s.latch.word = .ok i ∧ destSlot i = some dst ∧
      (s.latch.desc dst).covers s.latch.fmt.bps a := by
  constructor
  · intro h
    cases hr : s.running with
    | none => simp [State.inDest, hr] at h
    | some i =>
      rw [inDest_of_running hr, Option.any_eq_true] at h
      obtain ⟨dst, hdst, hcov⟩ := h
      obtain ⟨hb, hdec⟩ := running_eq_some.1 hr
      exact ⟨i, dst, hb, hdec, hdst, slotCovers_iff.1 hcov⟩
  · rintro ⟨i, dst, hb, hdec, hdst, hcov⟩
    rw [inDest_of_running (running_eq_some.2 ⟨hb, hdec⟩), Option.any_eq_true]
    exact ⟨dst, hdst, slotCovers_iff.2 hcov⟩

/-- A reset abandons bytes of the running command's destination extent only (R272). -/
theorem inDest_of_mem_abandonedBytes {s : State} {a : Nat} (h : a ∈ s.abandonedBytes) : s.inDest a = true := by
  unfold State.abandonedBytes at h
  split at h
  case h_1 dst hdst =>
    obtain ⟨i, hr, hd⟩ := Option.bind_eq_some_iff.1 hdst
    obtain ⟨hb, hdec⟩ := running_eq_some.1 hr
    dsimp only at h
    split at h
    case isTrue hext =>
      have hrange := (List.mem_filter.1 h).1
      rw [List.mem_range'_1] at hrange
      exact inDest_iff.2 ⟨i, dst, hb, hdec, hd, hext, hrange.1, by omega⟩
    case isFalse => cases h
  case h_2 => cases h

/-- A reset keeps every byte outside the running command's destination extent (R272). -/
theorem read_resetBlock_other {s : State} {a : Nat} (h : s.inDest a ≠ true) :
    Memory.read (resetBlock s).mem a = Memory.read s.mem a := by
  rw [resetBlock_mem]
  refine Memory.read_writeAll_other ?_
  rw [map_fst_freeCells]
  exact mt inDest_of_mem_abandonedBytes h

/-- Settles O46: the step is the reset of the popped state, which has the same running command. -/
theorem resetAbandonsCommand : Obligations.ResetAbandonsCommand := by
  intro s hnext hp
  refine ⟨resetBlock s.popHost, step_of_nextAct hnext, rfl, rfl, rfl, rfl,
    fun offset ho => readOffset_resetBlock (s := s.popHost) hp ho offset.isLt, fun a ha => ?_⟩
  refine read_resetBlock_other (s := s.popHost) fun hdest => ?_
  obtain ⟨i, dst, hb, hdec, hdst, hcov⟩ := inDest_iff.1 hdest
  exact ha i dst hb hdec hdst hcov

/-- Settles O48: the address is outside the destination extent, so the read is of the stored byte. -/
theorem hostReadOutsideDestination : Obligations.HostReadOutsideDestination := by
  intro s addr hlt hout
  refine hostMemRead_stored hlt (Bool.eq_false_iff.2 fun hdest => ?_) rfl
  obtain ⟨i, dst, hb, hdec, hdst, hcov⟩ := inDest_iff.1 hdest
  exact hout i dst hb hdec hdst hcov

/-! ### A host write outside every operand extent (R278) -/

/-- The state with one byte of data memory written. -/
def State.storeByte (s : State) (a : Nat) (v : Byte) : State := { s with mem := Memory.write s.mem a v }

/-- A host write outside every operand extent of the running command stores its byte only. -/
theorem hostMemWrite_outside {addr : Word} {s : State} (v : Byte) (hlt : addr.toNat < s.params.memSize)
    (ho : s.inOperand addr.toNat ≠ true) : hostMemWrite addr v s = .next (s.storeByte addr.toNat v) := by
  rw [hostMemWrite_next v hlt, Bool.eq_false_iff.2 ho, Bool.or_false]
  rfl

/-- An address outside the slot's extent is no byte of its samples, so a write there keeps them (R91). -/
theorem sampleAt_storeByte {s : State} {slot y x a : Nat} (v : Byte)
    (ho : ¬ (s.latch.desc slot).covers s.latch.fmt.bps a) (hy : y < s.latch.h slot) (hx : x < s.latch.w slot) :
    (s.storeByte a v).sampleAt slot y x = s.sampleAt slot y x := by
  refine sample_congr fun hz k hk => Memory.read_write_other v fun ha => ?_
  have hin := Desc.addr_le_last hy hx hk
  exact ho ⟨⟨hz, Nat.one_le_of_lt hx, Nat.one_le_of_lt hy⟩, by rwa [← ha]⟩

theorem sameOperands_storeByte {i : Instr} {s : State} {a : Nat} (v : Byte)
    (ho : ∀ src ∈ sourceSlots s.latch i, ¬ (s.latch.desc src).covers s.latch.fmt.bps a) :
    SameOperands i s (s.storeByte a v) :=
  ⟨rfl, rfl, rfl, fun slot hslot _ hy _ hx => (sampleAt_storeByte v (ho slot hslot) hy hx).symm⟩

/-- The cells the success of a command writes: its samples, free bytes after a disturbing host write (R92, R96). -/
def effectCells (i : Instr) (s : State) : List Host.Cell :=
  match destSlot i with
  | none => []
  | some dst =>
    if s.hostTouched then freeCells (planeAddrs s.latch.fmt.bps (s.latch.desc dst)) s.freeCtr
    else planeCells s.latch.fmt.bps (s.latch.desc dst) (destSample s i)

theorem effectCells_of_dest {i : Instr} {dst : Nat} (s : State) (hd : destSlot i = some dst) :
    effectCells i s =
      if s.hostTouched then freeCells (planeAddrs s.latch.fmt.bps (s.latch.desc dst)) s.freeCtr
      else planeCells s.latch.fmt.bps (s.latch.desc dst) (destSample s i) := by
  simp only [effectCells, hd]

theorem effectOf_mem_eq (i : Instr) (s : State) : (effectOf i s).mem = s.mem.writeAll (effectCells i s) := by
  cases hd : destSlot i with
  | none =>
    cases i <;> simp only [destSlot, reduceCtorEq] at hd
    exact scoreFrame_mem _ _ _ s
  | some dst =>
    rw [effectOf_eq_commitPlane s hd, effectCells_of_dest s hd, commitPlane]
    split <;> rfl

/-- A legal command writes bytes of its destination extent only (R92). -/
theorem CommandLegal.covers_of_mem_effectCells {i : Instr} {s : State} {a : Nat} (h : CommandLegal i s)
    (ha : a ∈ (effectCells i s).map Prod.fst) :
    ∃ dst ∈ destSlot i, (s.latch.desc dst).covers s.latch.fmt.bps a := by
  cases hd : destSlot i with
  | none => simp [effectCells, hd] at ha
  | some dst =>
    obtain ⟨hz, -, hw, hh, -⟩ := h.dest hd
    refine ⟨dst, rfl, ⟨hz, hw, hh⟩, ?_⟩
    rw [effectCells_of_dest s hd] at ha
    split at ha
    · rw [map_fst_freeCells] at ha
      exact planeCells_in_extent ha
    · exact planeCells_in_extent ha

theorem SameOperands.effectCells_eq {i : Instr} {s1 s2 : State} (h : SameOperands i s1 s2) (hl : CommandLegal i s1)
    (ht : s1.hostTouched = s2.hostTouched) (hc : s1.freeCtr = s2.freeCtr) : effectCells i s1 = effectCells i s2 := by
  cases hd : destSlot i with
  | none => simp only [effectCells, hd]
  | some dst =>
    have hcells := planeCells_congr (bps := s1.latch.fmt.bps) (d := s1.latch.desc dst)
      fun y hy x hx => h.destSample_eq hl hd hy hx
    rw [effectCells_of_dest s1 hd, effectCells_of_dest s2 hd, hcells, h.latch, ht, hc]

theorem SameOperands.effectOf_result_eq {i : Instr} {s1 s2 : State} (h : SameOperands i s1 s2)
    (hl : CommandLegal i s1) (ht : s1.hostTouched = s2.hostTouched) (hc : s1.freeCtr = s2.freeCtr)
    (hr : s1.result = s2.result) : (effectOf i s1).result = (effectOf i s2).result := by
  cases i with
  | iscombed ys us vs =>
    simp only [effectOf, effectFrom, scoreFrame, h.iscombedScore_eq hl, ht, hc]
    split <;> simp only [withScore_result, h.latch]
  | tmask | mmask | mand | mcomb | tbuild =>
    rw [effectOf_result_of_dest rfl, effectOf_result_of_dest rfl, hr]

/-- A write outside the addresses of a list of cells commutes with writing the list. -/
theorem Memory.read_writeAll_write {m : Memory} {cs : List Host.Cell} {a : Nat} (v : Byte) (x : Nat)
    (hm : Memory.wf m) (ha : a ∉ cs.map Prod.fst) :
    Memory.read ((Memory.write m a v).writeAll cs) x = Memory.read (Memory.write (m.writeAll cs) a v) x := by
  by_cases hx : x = a
  · rw [hx, Memory.read_writeAll_other ha, Memory.read_write_same a v hm,
      Memory.read_write_same a v (Memory.writeAll_wf cs hm)]
  · rw [Memory.read_write_other v hx]
    rcases writeAll_bytesAgreeOrKept cs (Memory.write_wf a v hm) hm x with heq | ⟨hk1, hk2⟩
    · exact heq
    · rw [hk1, hk2, Memory.read_write_other v hx]

/-- Settles O47: the write keeps every source sample and the model's note of R96, and is at no address the command
writes. -/
theorem hostWriteOutsideOperandsCommutes : Obligations.HostWriteOutsideOperandsCommutes := by
  intro i s addr v hwf _ hdec hl hlt hdst hsrc
  have hso : SameOperands i s (s.storeByte addr.toNat v) := sameOperands_storeByte v hsrc
  have hl1 : CommandLegal i (s.storeByte addr.toNat v) :=
    checkOf_eq_none.1 (hso.checkOf_eq ▸ checkOf_eq_none.2 hl)
  have hout : s.inOperand addr.toNat ≠ true := fun h => by
    obtain ⟨-, j, slot, hj, hslot, hcov⟩ := inOperand_iff.1 h
    obtain rfl : i = j := Except.ok.inj (hdec.symm.trans hj)
    exact hslot.elim (fun hd => hdst slot hd hcov) (fun hs => hsrc slot hs hcov)
  have hidle : (succeedCommand (effectOf i s)).inOperand addr.toNat ≠ true := fun h => by
    have hb := busy_of_inOperand h
    simp at hb
  have hcells : addr.toNat ∉ (effectCells i s).map Prod.fst := fun h => by
    obtain ⟨dst, hd, hcov⟩ := hl.covers_of_mem_effectCells h
    exact hdst dst hd hcov
  refine ⟨_, _, _, _, hostMemWrite_outside v hlt hout, exec_of_legal hl1, exec_of_legal hl,
    hostMemWrite_outside v (by rwa [succeedCommand_params, params_effectOf]) hidle, ?_, ?_, fun a => ?_⟩
  · change (effectOf i (s.storeByte addr.toNat v)).status.succeeded = (effectOf i s).status.succeeded
    rw [status_effectOf, status_effectOf]
    rfl
  · exact (hso.effectOf_result_eq hl rfl rfl rfl).symm
  · change Memory.read (effectOf i (s.storeByte addr.toNat v)).mem a =
      Memory.read (Memory.write (effectOf i s).mem addr.toNat v) a
    rw [effectOf_mem_eq, effectOf_mem_eq, ← hso.effectCells_eq hl rfl rfl]
    exact Memory.read_writeAll_write v a hwf hcells

end Sys2Proof.Machine
end

section
/-! The words of the test vectors (95_test_vectors.md), decoded by way of the encoder: a printed word is compared with
the word of its command. -/

namespace Sys2Proof

/-- The two round trips as one equivalence (30_encoding.md R110 to R123). -/
theorem decode_eq_ok_iff_encode_eq {c : CmdWord} {i : Instr} :
    decode c = .ok i ↔ i.wellFormed = true ∧ encode i = c := by
  constructor
  · exact decodeThenEncode c i
  · rintro ⟨hwf, rfl⟩
    exact encodeThenDecode i hwf

/-- Settles O3: each printed word is the word of its well-formed command. -/
theorem specWordsDecode : Obligations.SpecWordsDecode := by
  simp only [Obligations.SpecWordsDecode, decode_eq_ok_iff_encode_eq]
  decide

end Sys2Proof
end
